-- ==== Sys2Proof/Word.lean ====
section
/-! DEFINITION. The widths of the unit's values (00_scope.md R7, R9): nibbles, bytes, words, blocks. -/

namespace Sys2Proof

/-- A 4-bit S-box input or output, and one hex digit's value (R7: SBOX_IN_BITS). -/
abbrev Nibble := BitVec 4

/-- One byte of text, of hex, or of a block (R9). -/
abbrev Byte := BitVec 8

/-- A 32-bit word: the host's data width, a half block, a subkey (R7: HALF_BITS, SUBKEY_BITS; R8). -/
abbrev Word := BitVec 32

/-- A 64-bit block, and the master key (R7: BLOCK_BITS). -/
abbrev Block := BitVec 64

/-- A byte offset of the 64 KiB register window (20_memory.md R60). -/
abbrev Offset := BitVec 16

/-- `ceil8(n) = (n + 7) div 8` (00_scope.md R10). -/
def ceil8 (n : Nat) : Nat := (n + 7) / 8

end Sys2Proof
end

