-- ==== Sys2Proof/Syntax.lean ====
section
/-! DEFINITION. The fourteen commands of the opcode map (30_encoding.md R92). A command word carries no operand
(R91): every operand is a fixed register or buffer named by the command's rule. -/

namespace Sys2Proof

/-- One constructor for each row of spec/opcode_table.json. -/
inductive Instr where
  /-- 0x00 NOP (46_control.md R200). -/
  | nop
  /-- 0x01 SBOX (40_sbox.md R111). -/
  | sbox
  /-- 0x02 KEYGEN (41_keyschedule.md R122). -/
  | keygen
  /-- 0x03 ROUNDF (42_round.md R131). -/
  | roundf
  /-- 0x04 ENCB (43_feistel.md R142). -/
  | encb
  /-- 0x05 DECB (43_feistel.md R143). -/
  | decb
  /-- 0x06 T2B (44_codec.md R162). -/
  | t2b
  /-- 0x07 B2T (44_codec.md R163). -/
  | b2t
  /-- 0x08 ENCECB (43_feistel.md R144). -/
  | encecb
  /-- 0x09 DECECB (43_feistel.md R145). -/
  | dececb
  /-- 0x0A B2H (45_pipeline.md R184). -/
  | b2h
  /-- 0x0B H2B (45_pipeline.md R185). -/
  | h2b
  /-- 0x0C ENCTXT (45_pipeline.md R186). -/
  | enctxt
  /-- 0x0D DECTXT (45_pipeline.md R187). -/
  | dectxt
  deriving DecidableEq, Repr

end Sys2Proof
end

