-- ==== Sys2Proof/WellFormed.lean ====
section
/-! DEFINITION. The one command format CMD32 (30_encoding.md R90) and which of its words are legal (R96). -/

namespace Sys2Proof

/-- The two fields of a command word (R90): OPC = [7:0], RSV = [31:8]. -/
structure Cmd32 where
  rsv : BitVec 24
  opc : BitVec 8
  deriving DecidableEq, Repr

/-- "a decoder reads `OPC = CMD[7:0]` and `RSV = CMD[31:8]` and nothing else" (R90). -/
def Cmd32.ofWord (w : Word) : Cmd32 := { rsv := w.extractLsb' 8 24, opc := w.extractLsb' 0 8 }

/-- The reserved field is 0 (R90: "reserved; must be 0"). -/
def Cmd32.rsvZero (c : Cmd32) : Bool := c.rsv == 0#24

/-- The opcode is one of the fourteen rows of R92. -/
def Cmd32.opcDefined (c : Cmd32) : Bool := decide (c.opc.toNat ≤ 0x0D)

/-- "A command word is illegal if `RSV ≠ 0` or `OPC` is in 0x0E–0xFF" (R96). -/
def Cmd32.wellFormed (c : Cmd32) : Bool := c.rsvZero && c.opcDefined

/-- An instruction has no operand that could be out of range (R91), so every term of `Instr` is well-formed; the
checks on encodings are those of `Cmd32.wellFormed`. -/
def Instr.wellFormed (_ : Instr) : Bool := true

end Sys2Proof
end

