-- ==== Sys2Proof/Decode.lean ====
section
/-! DEFINITION. Decoding a command word (30_encoding.md R97), total on all 2^32 words, and the encoder (R92). The
unit fetches no bytes: a command word reaches it as one 32-bit datum (20_memory.md R82), so the decoder reads a word
(log entry 14). -/

namespace Sys2Proof

/-- Why a command word is no command (R96). Both complete with outcome ILLCMD. -/
inductive DecodeError where
  /-- `CMD[31:8] ≠ 0`. -/
  | reservedBits
  /-- `CMD[7:0]` in 0x0E–0xFF. -/
  | reservedOpcode
  deriving DecidableEq, Repr

/-- The row of R92 with this opcode. -/
def decodeOpc (opc : BitVec 8) : Option Instr :=
  match opc.toNat with
  | 0x00 => some .nop
  | 0x01 => some .sbox
  | 0x02 => some .keygen
  | 0x03 => some .roundf
  | 0x04 => some .encb
  | 0x05 => some .decb
  | 0x06 => some .t2b
  | 0x07 => some .b2t
  | 0x08 => some .encecb
  | 0x09 => some .dececb
  | 0x0A => some .b2h
  | 0x0B => some .h2b
  | 0x0C => some .enctxt
  | 0x0D => some .dectxt
  | _ => none

/-- R97: "if `v[31:8] ≠ 0` the outcome is `Error(ILLCMD, v)`; otherwise by `v[7:0]` the rule of the row of rule R92
with that OPC; for OPC 0x0E–0xFF the outcome is `Error(ILLCMD, v)`". -/
def decode (w : Word) : Except DecodeError Instr :=
  let c := Cmd32.ofWord w
  if c.rsvZero then
    match decodeOpc c.opc with
    | some i => .ok i
    | none => .error .reservedOpcode
  else .error .reservedBits

/-- The opcode of each row of R92. -/
def opcodeOf : Instr → BitVec 8
  | .nop => 0x00#8
  | .sbox => 0x01#8
  | .keygen => 0x02#8
  | .roundf => 0x03#8
  | .encb => 0x04#8
  | .decb => 0x05#8
  | .t2b => 0x06#8
  | .b2t => 0x07#8
  | .encecb => 0x08#8
  | .dececb => 0x09#8
  | .b2h => 0x0A#8
  | .h2b => 0x0B#8
  | .enctxt => 0x0C#8
  | .dectxt => 0x0D#8

/-- "The full word of each command is `0x000000XX` with XX its OPC" (R92). -/
def encode (i : Instr) : Word := 0#24 ++ opcodeOf i

/-- What the decoder reads from the word whose low `nbits` bits are those of `w` and whose other bits are 0. -/
def decodeTableWord (nbits w : Nat) : Option Instr :=
  let bits := w % 2 ^ nbits
  if bits < 2 ^ 32 then (decode (BitVec.ofNat 32 bits)).toOption else none

end Sys2Proof
end

