-- ==== Sys2Proof/Machine/Bits.lean ====
section
/-! DEFINITION. Bit fields and byte order (00_scope.md R9; 20_memory.md R69 to R72), said once. -/

namespace Sys2Proof.Machine

open Sys2Proof

/-- `B[63:32]`, the left or high half (R9). -/
def highHalf (b : Block) : Word := b.extractLsb' 32 32

/-- `B[31:0]`, the right or low half (R9). -/
def lowHalf (b : Block) : Word := b.extractLsb' 0 32

/-- `L ++ R` (R10). -/
def joinHalves (l r : Word) : Block := l ++ r

/-- Nibble j of a word: `v[4j+3:4j]` (R9). -/
def wordNibble (v : Word) (j : Nat) : Nibble := v.extractLsb' (4 * j) 4

/-- Byte j of a block in big-endian order: `B[63−8j : 56−8j]` (R9, 20_memory.md R72). -/
def blockByte (b : Block) (j : Nat) : Byte := b.extractLsb' (56 - 8 * j) 8

/-- Nibble d of a block, the most significant first: `B[63−4d : 60−4d]` (45_pipeline.md R182). -/
def blockNibble (b : Block) (d : Nat) : Nibble := b.extractLsb' (60 - 4 * d) 4

/-- Byte j of a word, the most significant first: bits [31:24] for j = 0 (20_memory.md R69). -/
def wordByte (v : Word) (j : Nat) : Byte := v.extractLsb' (24 - 8 * j) 8

/-- The eight bytes of a block, byte 0 first (20_memory.md R72). -/
def blockBytes (b : Block) : List Byte := (List.range 8).map (blockByte b)

/-- The four bytes of a word, the byte of lowest index first (20_memory.md R69). -/
def wordBytes (v : Word) : List Byte := (List.range 4).map (wordByte v)

/-- The word `f 0 ++ f 1 ++ f 2 ++ f 3` (20_memory.md R69). -/
def joinWord (f : Nat → Byte) : Word := f 0 ++ f 1 ++ f 2 ++ f 3

/-- The block `f 0 ++ … ++ f 7` (44_codec.md R160). -/
def joinBlock (f : Nat → Byte) : Block := f 0 ++ f 1 ++ f 2 ++ f 3 ++ f 4 ++ f 5 ++ f 6 ++ f 7

/-- The block `f 0 ++ … ++ f 15` of sixteen nibbles, the first one highest (45_pipeline.md R183). -/
def joinNibbles (f : Nat → Nibble) : Block :=
  f 0 ++ f 1 ++ f 2 ++ f 3 ++ f 4 ++ f 5 ++ f 6 ++ f 7 ++
    f 8 ++ f 9 ++ f 10 ++ f 11 ++ f 12 ++ f 13 ++ f 14 ++ f 15

/-- A byte that is undecodable as ASCII: 0x80–0xFF (00_scope.md R14). -/
def undecodable (c : Byte) : Bool := decide (0x80 ≤ c.toNat)

end Sys2Proof.Machine
end

