-- ==== Sys2Proof/Config.lean ====
section
/-! DEFINITION. What an implementation of the unit fixes (00_scope.md R8), and the values the spec leaves free. -/

namespace Sys2Proof

/-- The implementation's parameter TXT_CAP (R8: "a multiple of 8 with 8 ≤ TXT_CAP ≤ 4096"), given by its number of
8-byte chunks less one, so that exactly the legal values can be written down.
DESIGN CHOICE (log entry 3), safe: claims hold for every legal TXT_CAP. -/
structure Config where
  /-- BLK_CAP − 1: 0 for TXT_CAP = 8, 511 for TXT_CAP = 4096. -/
  chunks : Fin 512
  deriving DecidableEq, Repr

/-- BLK_CAP = TXT_CAP / 8: the 64-bit entries of `BLK` (R8). -/
def Config.blkCap (c : Config) : Nat := c.chunks.val + 1

/-- TXT_CAP: the bytes of `TXT` (R8). -/
def Config.txtCap (c : Config) : Nat := 8 * c.blkCap

/-- HEX_CAP = 2 × TXT_CAP: the bytes of `HEX` (R8). -/
def Config.hexCap (c : Config) : Nat := 2 * c.txtCap

/-- The reference configuration: TXT_CAP = 4096 (R8). -/
def Config.reference : Config := { chunks := 511 }

/-- FREE VALUE (log entry 5): what an unwritten buffer byte holds after the n-th reset, by its window offset
(70_reset_and_hazards.md R242: "unspecified. A model draws each freshly at reset, under no law"). -/
opaque Config.powerOnByte : Nat → Nat → Byte

/-- FREE VALUE (log entry 6): what the n-th read of a result register or buffer word while busy returns
(20_memory.md R68: "an unspecified 32-bit value; a model draws it freshly for each read, under no law"). -/
opaque Config.busyReadWord : Nat → Word

end Sys2Proof
end

