-- ==== Sys2Proof/Machine/State.lean ====
section
/-! DEFINITION. The state of the unit (10_state.md R45), what can happen to it next, and the state after reset
(70_reset_and_hazards.md R241, R242). Plain data throughout. -/

namespace Sys2Proof.Machine

open Sys2Proof

/-- `CTRL` (10_state.md R34). Bits [31:2] are reserved and hold nothing. -/
structure Ctrl where
  /-- Bit 0: enables the completion interrupt. -/
  ie : Bool
  /-- Bit 1: 1 selects the strict ASCII policy. -/
  strict : Bool
  deriving DecidableEq, Repr

/-- `STATUS` (10_state.md R33). Bits [7:5] and [31:12] are reserved and hold nothing. -/
structure Status where
  /-- Bit 0: a command has been accepted and has not completed. -/
  busy : Bool
  /-- Bit 1: a command has completed. -/
  done : Bool
  /-- Bit 2, sticky: a command completed with an outcome other than OK. -/
  err : Bool
  /-- Bit 3, sticky: a host write was ignored. -/
  wign : Bool
  /-- Bit 4, sticky: B2T or DECTXT dropped a byte. -/
  lossy : Bool
  /-- Bits [11:8]: the outcome code of the last completed command. -/
  errcode : BitVec 4
  deriving DecidableEq, Repr

/-- The outcome codes other than OK (60_exceptions.md R210). -/
inductive ErrCode where
  | illcmd
  | range
  | badlen
  | badhex
  | encloss
  deriving DecidableEq, Repr

/-- `Error(CODE, INFO)` of 00_scope.md R12. -/
structure CmdError where
  code : ErrCode
  info : Word
  deriving DecidableEq, Repr

/-- The width of a host access (20_memory.md R62): 32 bits, or one of the widths the unit refuses ("8 or 16 bits, or a
partial byte-enable"). -/
inductive AccessWidth where
  | byte
  | half
  | partialWord
  | word
  deriving DecidableEq, Repr

/-- One host access of the window: `BusRead(off)` or `BusWrite(off, v32)` (00_scope.md R11). -/
inductive Access where
  | read (off : Offset) (width : AccessWidth)
  | write (off : Offset) (width : AccessWidth) (data : Word)
  deriving DecidableEq, Repr

/-- What the unit answers to a host access. -/
inductive BusResponse where
  /-- No access has been answered since reset. -/
  | none
  /-- A read's value (20_memory.md R63). -/
  | readData (value : Word)
  /-- A write was taken, or was ignored (an ignored write is no error: 60_exceptions.md R214). -/
  | writeAck
  /-- The bus error response to a misaligned or narrow access: the host's fault (20_memory.md R62). -/
  | busError
  deriving DecidableEq, Repr

/-- The step that is taken next (10_state.md R20). The order in which turns stand is the interleaving: any order of
host accesses, engine turns and resets can be written down (60_exceptions.md R221; log entries 1 and 2). -/
inductive Turn where
  /-- One host access. -/
  | access (a : Access)
  /-- The `wait` statement (30_encoding.md R99): the host reads `STATUS` again and again until BUSY reads 0. `patience`
  bounds how many more polls go by before the engine takes its step (its latency is finite: R95). -/
  | poll (patience : Nat)
  /-- The engine takes its completion step, if it has one. -/
  | engine
  /-- The platform asserts reset (70_reset_and_hazards.md R240). -/
  | reset
  deriving DecidableEq, Repr

/-- The contents the host or a command has written to the buffers since reset: (window byte offset, byte), offsets
strictly rising. An unlisted offset has no written value (log entries 4 and 5). -/
abbrev Memory := List Host.Cell

/-- No rule of the spec stops the machine: a failing command completes with an outcome code (60_exceptions.md R210,
R213), and a host access fault is a response that changes nothing (20_memory.md R62), recorded in `State.bus`. So there
is no fault, and nobody raises one (log entry 8). -/
inductive Fault where
  deriving DecidableEq, Repr

/-- Why an instruction has no meaning. Every instruction of the table has one, so no arm of `exec` answers this. -/
inductive Refusal where
  /-- Raised by an arm of `exec` for an instruction without a meaning (there is none); safe. -/
  | notModelled (mnemonic : String)
  deriving DecidableEq, Repr

/-- The state of the unit: the record of 10_state.md R45, then the model's own fields. -/
@[ext]
structure State where
  /-- `KEY`, the master key (R22). -/
  key : Block
  /-- `ROUNDS`, its value field [6:0] (R23). -/
  rounds : BitVec 7
  /-- `ARG0` (R24). -/
  arg0 : Word
  /-- `ARG1` (R24). -/
  arg1 : Word
  /-- `RES` (R25). -/
  res : Word
  /-- `BIN` (R26). -/
  bin : Block
  /-- `BOUT` (R27). -/
  bout : Block
  /-- `TLEN` (R28). -/
  tlen : Word
  /-- `NBLK` (R29). -/
  nblk : Word
  /-- `HLEN` (R30). -/
  hlen : Word
  /-- `CTRL` (R34). -/
  ctrl : Ctrl
  /-- `STATUS` (R33). -/
  status : Status
  /-- `ERRINFO` (R35). -/
  errinfo : Word
  /-- `CMD`: the last accepted command word (R36). -/
  cmd : Word
  /-- `RK[0..63]` (R38). -/
  rk : Vector Word 64
  /-- What has been written to `TXT`, `BLK` and `HEX` (R39 to R41). -/
  mem : Memory
  /-- The parameter TXT_CAP (00_scope.md R8); no step changes it. -/
  cfg : Config
  /-- MODEL FIELD: the turns to come, the next one first. -/
  schedule : List Turn
  /-- MODEL FIELD: the response to the last host access. -/
  bus : BusResponse
  /-- MODEL FIELD: the number of resets, which the free power-on contents depend on. -/
  resets : Nat
  /-- MODEL FIELD: the number of reads answered with a free value. -/
  busyReads : Nat
  deriving DecidableEq, Repr

/-- `CTRL` after reset: "the reference lossy policy", interrupt masked (R241). -/
def Ctrl.reset : Ctrl := { ie := false, strict := false }

/-- `STATUS` after reset: idle, outcome OK (R241). -/
def Status.reset : Status :=
  { busy := false, done := false, err := false, wign := false, lossy := false, errcode := 0#4 }

/-- The unit right after reset (R241): "every register 0 except `ROUNDS = 8`; buffers unspecified". -/
def State.reset : State :=
  { key := 0#64, rounds := 8#7, arg0 := 0#32, arg1 := 0#32, res := 0#32, bin := 0#64, bout := 0#64,
    tlen := 0#32, nblk := 0#32, hlen := 0#32, ctrl := Ctrl.reset, status := Status.reset,
    errinfo := 0#32, cmd := 0#32, rk := Vector.replicate 64 0#32, mem := [],
    cfg := Config.reference, schedule := [], bus := .none, resets := 0, busyReads := 0 }

end Sys2Proof.Machine
end

