-- ==== Sys2Proof/Machine/Flags.lean ====
section
/-! DEFINITION. The unit's only flags: the STATUS and CTRL bits (10_state.md R33, R34, R37), what reads, host writes,
issue and completion do to them, and the interrupt output (R44). -/

namespace Sys2Proof.Machine

open Sys2Proof

/-- The number of an outcome code (60_exceptions.md R210). -/
def ErrCode.toBits : ErrCode → BitVec 4
  | .illcmd => 1#4
  | .range => 2#4
  | .badlen => 3#4
  | .badhex => 4#4
  | .encloss => 5#4

/-- `STATUS` as the host reads it; reserved bits read 0 (10_state.md R33). -/
def Status.toWord (t : Status) : Word :=
  0#20 ++ t.errcode ++ 0#3 ++ BitVec.ofBool t.lossy ++ BitVec.ofBool t.wign ++ BitVec.ofBool t.err ++
    BitVec.ofBool t.done ++ BitVec.ofBool t.busy

/-- `CTRL` as the host reads it; reserved bits read 0 (10_state.md R34). -/
def Ctrl.toWord (c : Ctrl) : Word := 0#30 ++ BitVec.ofBool c.strict ++ BitVec.ofBool c.ie

/-- A host write of v to `STATUS` "clears each of DONE, ERR, WIGN, LOSSY whose bit in v is 1 and changes nothing else"
(10_state.md R33). -/
def Status.writeOneToClear (t : Status) (v : Word) : Status :=
  { t with
    done := t.done && !v.getLsbD 1
    err := t.err && !v.getLsbD 2
    wign := t.wign && !v.getLsbD 3
    lossy := t.lossy && !v.getLsbD 4 }

/-- A host write was ignored (10_state.md R33: WIGN). -/
def Status.setWign (t : Status) : Status := { t with wign := true }

/-- A byte was dropped: LOSSY is set, and stays set if none was (10_state.md R33; 44_codec.md R163). -/
def Status.noteLoss (t : Status) (dropped : Bool) : Status := { t with lossy := t.lossy || dropped }

/-- A host write of v to `CTRL`: STRICT is written only while idle (10_state.md R34). -/
def Ctrl.write (c : Ctrl) (busy : Bool) (v : Word) : Ctrl :=
  { ie := v.getLsbD 0, strict := if busy then c.strict else v.getLsbD 1 }

/-- The acceptance of a command (30_encoding.md R94). -/
def Status.issue (t : Status) : Status := { t with busy := true, done := false }

/-- A completion with outcome OK (30_encoding.md R95). -/
def Status.completeOk (t : Status) : Status := { t with errcode := 0#4, busy := false, done := true }

/-- A completion with another outcome (30_encoding.md R95). -/
def Status.completeError (t : Status) (c : ErrCode) : Status :=
  { t with errcode := c.toBits, err := true, busy := false, done := true }

/-- `IRQ = CTRL.IE AND STATUS.DONE` (10_state.md R44, 60_exceptions.md R220). -/
def State.irq (s : State) : Bool := s.ctrl.ie && s.status.done

end Sys2Proof.Machine
end

