-- ==== Sys2Proof/Machine/Ops.lean ====
section
/-! DEFINITION. The named operations over buffers, the round-key file and the outcome of a command. The unit takes no
exception in a processor's sense (60_exceptions.md R222): what stands for one is `State.completeError`, the outcome of a
failing command (R213), and what stands for the return from one is the host's write of `STATUS` (R223), which is
`Status.writeOneToClear`. -/

namespace Sys2Proof.Machine

open Sys2Proof

/-! Memory. -/

/-- What an unlisted offset holds: no written value (log entry 5). -/
def Memory.unlisted : Option Byte := none

/-- The byte written at an offset, if one was. -/
def Memory.read : Memory → Nat → Option Byte
  | [], _ => Memory.unlisted
  | (k, v) :: rest, a => if a = k then some v else Memory.read rest a

/-- Write one byte, keeping the offsets strictly rising. -/
def Memory.write : Memory → Nat → Byte → Memory
  | [], a, b => [(a, b)]
  | (k, v) :: rest, a, b =>
    if a < k then (a, b) :: (k, v) :: rest
    else if a = k then (a, b) :: rest
    else (k, v) :: Memory.write rest a b

/-- Write consecutive bytes, the first at offset `a`. -/
def Memory.writeBytes : Memory → Nat → List Byte → Memory
  | m, _, [] => m
  | m, a, b :: bs => Memory.writeBytes (m.write a b) (a + 1) bs

/-- The canonical form: offsets strictly rising (an entry is a written value, so none equals what an unlisted offset
holds). -/
abbrev Memory.wf (m : Memory) : Prop := m.Pairwise fun x y => x.1 < y.1

/-! The buffers' places in the window (20_memory.md R61). -/

/-- The offset of `TXT[0]`. -/
def txtBase : Nat := 0x1000

/-- The offset of `BLK[0]`. -/
def blkBase : Nat := 0x2000

/-- The offset of `HEX[0]`. -/
def hexBase : Nat := 0x4000

/-- The buffer byte at a window offset: what was written there, or else the free value drawn at the last reset
(70_reset_and_hazards.md R242). -/
def State.bufByte (s : State) (a : Nat) : Byte :=
  match s.mem.read a with
  | some b => b
  | none => Config.powerOnByte s.resets a

/-- `TXT[b]` (10_state.md R39). -/
def State.txt (s : State) (b : Nat) : Byte := s.bufByte (txtBase + b)

/-- `HEX[b]` (10_state.md R41). -/
def State.hex (s : State) (b : Nat) : Byte := s.bufByte (hexBase + b)

/-- `BLK[j]` (10_state.md R40), its bytes in the order of 20_memory.md R71 and R72. -/
def State.blk (s : State) (j : Nat) : Block := joinBlock fun p => s.bufByte (blkBase + 8 * j + p)

/-- The host's word at an offset of a buffer window, the byte of lowest offset in bits [31:24] (20_memory.md R69 to
R71). -/
def State.bufWord (s : State) (off : Nat) : Word := joinWord fun p => s.bufByte (off + p)

/-- Store a host word in a buffer window (20_memory.md R69 to R71). -/
def State.storeWord (s : State) (off : Nat) (v : Word) : State :=
  { s with mem := s.mem.writeBytes off (wordBytes v) }

/-- `TXT[b] <- bytes[b]` for every b below the number of bytes; the rest of `TXT` is unchanged. -/
def State.storeText (s : State) (bytes : List Byte) : State :=
  { s with mem := s.mem.writeBytes txtBase bytes }

/-- `HEX[b] <- bytes[b]` for every b below the number of bytes; the rest of `HEX` is unchanged. -/
def State.storeHex (s : State) (bytes : List Byte) : State :=
  { s with mem := s.mem.writeBytes hexBase bytes }

/-- `BLK[j] <- blocks[j]` for every j below the number of blocks; the rest of `BLK` is unchanged. -/
def State.storeBlocks (s : State) (blocks : List Block) : State :=
  { s with mem := s.mem.writeBytes blkBase (blocks.flatMap blockBytes) }

/-! Length registers. -/

/-- `TLEN <- n`. -/
def State.setTlen (s : State) (n : Nat) : State := { s with tlen := BitVec.ofNat 32 n }

/-- `NBLK <- n`. -/
def State.setNblk (s : State) (n : Nat) : State := { s with nblk := BitVec.ofNat 32 n }

/-- `HLEN <- n`. -/
def State.setHlen (s : State) (n : Nat) : State := { s with hlen := BitVec.ofNat 32 n }

/-! The round-key file. -/

/-- `RK[i] <- keys[0]`, `RK[i+1] <- keys[1]`, and so on to the end of the keys (there is no entry from 64 on). -/
def writeKeys : List Word → Nat → Vector Word 64 → Vector Word 64
  | [], _, rk => rk
  | k :: keys, i, rk => writeKeys keys (i + 1) (rk.setIfInBounds i k)

/-- `RK[i] <- keys[i]` for every i below the number of keys; the rest of `RK` is unchanged (10_state.md R38). -/
def State.storeRoundKeys (s : State) (keys : List Word) : State := { s with rk := writeKeys keys 0 s.rk }

/-! Flags and ignored writes. -/

/-- Set `STATUS.LOSSY` if a byte was dropped. -/
def State.noteLoss (s : State) (dropped : Bool) : State := { s with status := s.status.noteLoss dropped }

/-- An ignored host write: only `STATUS.WIGN` is set (60_exceptions.md R214). -/
def State.ignoreWrite (s : State) : State := { s with status := s.status.setWign }

/-! Issue, completion, reset. -/

/-- The acceptance of command word v (30_encoding.md R94): "No other state changes at issue". -/
def State.issue (s : State) (v : Word) : State := { s with cmd := v, status := s.status.issue }

/-- The end of a completion step with outcome OK, after the writes (30_encoding.md R95). -/
def State.completeOk (s : State) : State := { s with status := s.status.completeOk }

/-- A completion step with outcome `Error(code, info)`: nothing but STATUS and ERRINFO is written (30_encoding.md R95;
60_exceptions.md R211, R213). -/
def State.completeError (s : State) (e : CmdError) : State :=
  { s with status := s.status.completeError e.code, errinfo := e.info }

/-- The completion step of 30_encoding.md R95, given what `Exec` answers: the state with the command's writes, or the
error for which they are discarded. -/
def finish (s : State) (result : Except CmdError State) : Host.Outcome State Fault Refusal :=
  match result with
  | .ok written => .next written.completeOk
  | .error e => .next (s.completeError e)

/-- A reset step (70_reset_and_hazards.md R240): every register at its reset value, a command in flight discarded, the
buffers' contents drawn anew. The parameters, the turns to come and the count of free reads are no state of the unit. -/
def State.resetUnit (s : State) : State :=
  { State.reset with
    cfg := s.cfg, schedule := s.schedule, resets := s.resets + 1, busyReads := s.busyReads }

end Sys2Proof.Machine
end

