-- ==== Sys2Proof/Machine/Operands.lean ====
section
/-! DEFINITION. The operands of the commands (30_encoding.md R91, R93) and the checks on them (60_exceptions.md R210,
R212). -/

namespace Sys2Proof.Machine

open Sys2Proof

/-- `ARG0[3:0]`, the S-box input (10_state.md R24). -/
def State.sboxInput (s : State) : Nibble := s.arg0.extractLsb' 0 4

/-- The round count N (10_state.md R23). -/
def State.roundCount (s : State) : Nat := s.rounds.toNat

/-- The text operand `TXT[0..TLEN−1]`. -/
def State.textBytes (s : State) : List Byte := (List.range s.tlen.toNat).map s.txt

/-- The hex operand `HEX[0..HLEN−1]`. -/
def State.hexBytes (s : State) : List Byte := (List.range s.hlen.toNat).map s.hex

/-- The block operand `BLK[0..NBLK−1]`. -/
def State.blocks (s : State) : List Block := (List.range s.nblk.toNat).map s.blk

/-- The bytes of a list of blocks, byte p of block j at index 8j + p (44_codec.md R163). -/
def bytesOfBlocks (bs : List Block) : List Byte := bs.flatMap blockBytes

/-- The RANGE check on a length register (60_exceptions.md R210). -/
def rangeError (len : Word) (cap : Nat) : Option CmdError :=
  if cap < len.toNat then some { code := .range, info := len } else none

/-- The BADLEN check on `HLEN` (60_exceptions.md R210). -/
def lengthError (len : Word) : Option CmdError :=
  if len.toNat % 16 ≠ 0 then some { code := .badlen, info := len } else none

/-- The ENCLOSS check: only with `CTRL.STRICT = 1`, at the least index of a byte ≥ 0x80 (60_exceptions.md R210). -/
def strictError (strict : Bool) (bytes : List Byte) : Option CmdError :=
  if strict then
    (bytes.findIdx? undecodable).map fun b => { code := .encloss, info := BitVec.ofNat 32 b }
  else none

/-- Run a check before the rest of a command: the first check that fails is reported (60_exceptions.md R212). -/
def unlessError (check : Option CmdError) (rest : Except CmdError State) : Except CmdError State :=
  match check with
  | some e => .error e
  | none => rest

end Sys2Proof.Machine
end

