-- ==== Sys2Proof/Machine/Control.lean ====
section
/-! DEFINITION. Control commands (46_control.md). -/

namespace Sys2Proof.Machine

open Sys2Proof

/-- NOP (46_control.md R200): no write; completes OK. -/
def execNop (s : State) : Host.Outcome State Fault Refusal := finish s (.ok s)

end Sys2Proof.Machine
end

