-- ==== Sys2Proof/Machine/Codec.lean ====
section
/-! DEFINITION. The text block codec: padding and splitting (44_codec.md). -/

namespace Sys2Proof.Machine

open Sys2Proof

/-- `P[b]`: byte b of a text of n bytes, padded on the right with NULs (44_codec.md R160). -/
def paddedByte (bytes : List Byte) (n b : Nat) : Byte := if b < n then bytes.getD b 0x00#8 else 0x00#8

/-- `Pack(bytes, n)` (44_codec.md R160). -/
def pack (bytes : List Byte) (n : Nat) : List Block :=
  (List.range (ceil8 n)).map fun j => joinBlock fun p => paddedByte bytes n (8 * j + p)

/-- Remove the trailing NULs: "while d ≠ [] and last(d) = 0x00: d <- init(d)" (44_codec.md R161). -/
def stripNuls (d : List Byte) : List Byte := (d.reverse.dropWhile (· == 0x00#8)).reverse

/-- The decoded text of one block: undecodable bytes dropped, then trailing NULs stripped (44_codec.md R161). -/
def blockText (b : Block) : List Byte := stripNuls ((blockBytes b).filter fun c => !undecodable c)

/-- `Unpack(blocks, nb)` (44_codec.md R161). -/
def unpack (blocks : List Block) (nb : Nat) : List Byte := stripNuls ((blocks.take nb).flatMap blockText)

/-- Whether unpacking drops a byte (44_codec.md R163). -/
def dropsBytes (blocks : List Block) : Bool := (bytesOfBlocks blocks).any undecodable

/-- The writes of an unpacking: `TXT`, `TLEN` and `LOSSY` (44_codec.md R163, 45_pipeline.md R187). -/
def State.storeUnpacked (s : State) (blocks : List Block) : State :=
  let out := unpack blocks blocks.length
  ((s.storeText out).setTlen out.length).noteLoss (dropsBytes blocks)

/-- T2B (44_codec.md R162). -/
def execT2b (s : State) : Host.Outcome State Fault Refusal :=
  finish s <|
    unlessError (rangeError s.tlen s.cfg.txtCap) <|
    unlessError (strictError s.ctrl.strict s.textBytes) <|
      .ok ((s.storeBlocks (pack s.textBytes s.tlen.toNat)).setNblk (ceil8 s.tlen.toNat))

/-- B2T (44_codec.md R163). -/
def execB2t (s : State) : Host.Outcome State Fault Refusal :=
  finish s <|
    unlessError (rangeError s.nblk s.cfg.blkCap) <|
    unlessError (strictError s.ctrl.strict (bytesOfBlocks s.blocks)) <|
      .ok (s.storeUnpacked s.blocks)

end Sys2Proof.Machine
end

