-- ==== Sys2Proof/Machine/KeySchedule.lean ====
section
/-! DEFINITION. The key schedule generator (41_keyschedule.md). -/

namespace Sys2Proof.Machine

open Sys2Proof

/-- `s_i = (i * 7) mod 64` (41_keyschedule.md R120). -/
def shiftAmount (i : Nat) : Nat := (i * 7) % 64

/-- The wrapped bits: `(K << (64 − s))[63:0]`, and 0 at s = 0 (41_keyschedule.md R121). -/
def wrappedBits (k : Block) (s : Nat) : Block := if s = 0 then 0#64 else k <<< (64 - s)

/-- `rk_i` (41_keyschedule.md R121). -/
def roundKey (k : Block) (i : Nat) : Word :=
  lowHalf ((k >>> shiftAmount i) ^^^ wrappedBits k (shiftAmount i))

/-- `RoundKeys(K, N)` (41_keyschedule.md R121). -/
def roundKeys (k : Block) (n : Nat) : List Word := (List.range n).map (roundKey k)

/-- The write every key-consuming command makes on success: `RK[i] <- RoundKeys(KEY, ROUNDS)[i]` for i < ROUNDS
(30_encoding.md R98, 10_state.md R38). -/
def State.loadRoundKeys (s : State) : State := s.storeRoundKeys (roundKeys s.key s.roundCount)

/-- KEYGEN (41_keyschedule.md R122). -/
def execKeygen (s : State) : Host.Outcome State Fault Refusal := finish s (.ok s.loadRoundKeys)

end Sys2Proof.Machine
end

