-- ==== Sys2Proof/Machine/Sbox.lean ====
section
/-! DEFINITION. The S-box substitution unit (40_sbox.md). -/

namespace Sys2Proof.Machine

open Sys2Proof

/-- The S-box table, entry n counted from 0 (40_sbox.md R110). -/
def sboxTable : List Nibble :=
  [0xE#4, 0x4#4, 0xD#4, 0x1#4, 0x2#4, 0xF#4, 0xB#4, 0x8#4, 0x3#4, 0xA#4, 0x6#4, 0xC#4, 0x5#4, 0x9#4, 0x0#4, 0x7#4]

/-- `Sbox(n)` (40_sbox.md R110). -/
def sbox (n : Nibble) : Nibble := sboxTable.getD n.toNat 0#4

/-- SBOX (40_sbox.md R111): `RES <- zext_32(Sbox(ARG0[3:0]))`. -/
def execSbox (s : State) : Host.Outcome State Fault Refusal :=
  finish s (.ok { s with res := (sbox s.sboxInput).setWidth 32 })

end Sys2Proof.Machine
end

