-- ==== Sys2Proof/Machine/Round.lean ====
section
/-! DEFINITION. The Feistel round function (42_round.md). -/

namespace Sys2Proof.Machine

open Sys2Proof

/-- Nibble-wise substitution of a word, "in the same bit positions" (42_round.md R130). -/
def substitute (t : Word) : Word :=
  sbox (wordNibble t 7) ++ sbox (wordNibble t 6) ++ sbox (wordNibble t 5) ++ sbox (wordNibble t 4) ++
    sbox (wordNibble t 3) ++ sbox (wordNibble t 2) ++ sbox (wordNibble t 1) ++ sbox (wordNibble t 0)

/-- `F(r, k)` (42_round.md R130). -/
def roundFunction (r k : Word) : Word := substitute (r ^^^ k)

/-- ROUNDF (42_round.md R131): `RES <- F(ARG0, ARG1)`. -/
def execRoundf (s : State) : Host.Outcome State Fault Refusal :=
  finish s (.ok { s with res := roundFunction s.arg0 s.arg1 })

end Sys2Proof.Machine
end

