-- ==== Sys2Proof/Machine/Feistel.lean ====
section
/-! DEFINITION. The Feistel block cipher engine (43_feistel.md). -/

namespace Sys2Proof.Machine

open Sys2Proof

/-- One encryption round: `(L, R) <- (R, L XOR F(R, k))` (43_feistel.md R140). -/
def encRound (p : Word × Word) (k : Word) : Word × Word := (p.2, p.1 ^^^ roundFunction p.2 k)

/-- One decryption round: `(L, R) <- (R XOR F(L, k), L)` (43_feistel.md R141). -/
def decRound (p : Word × Word) (k : Word) : Word × Word := (p.2 ^^^ roundFunction p.1 k, p.1)

/-- The two halves of a block as the Feistel state (43_feistel.md R140). -/
def halves (b : Block) : Word × Word := (highHalf b, lowHalf b)

/-- `L ++ R` of a Feistel state (43_feistel.md R140). -/
def ofHalves (p : Word × Word) : Block := joinHalves p.1 p.2

/-- `Enc(B, K, N)`: the rounds in forward order, no extra swap (43_feistel.md R140). -/
def encrypt (b k : Block) (n : Nat) : Block := ofHalves ((roundKeys k n).foldl encRound (halves b))

/-- `Dec(C, K, N)`: the same round keys in reverse order (43_feistel.md R141). -/
def decrypt (c k : Block) (n : Nat) : Block := ofHalves ((roundKeys k n).reverse.foldl decRound (halves c))

/-- `Enc` under the unit's `KEY` and `ROUNDS`. -/
def State.encryptBlock (s : State) (b : Block) : Block := encrypt b s.key s.roundCount

/-- `Dec` under the unit's `KEY` and `ROUNDS`. -/
def State.decryptBlock (s : State) (c : Block) : Block := decrypt c s.key s.roundCount

/-- ENCB (43_feistel.md R142). -/
def execEncb (s : State) : Host.Outcome State Fault Refusal :=
  finish s (.ok { s.loadRoundKeys with bout := s.encryptBlock s.bin })

/-- DECB (43_feistel.md R143). -/
def execDecb (s : State) : Host.Outcome State Fault Refusal :=
  finish s (.ok { s.loadRoundKeys with bout := s.decryptBlock s.bin })

/-- ENCECB (43_feistel.md R144). -/
def execEncecb (s : State) : Host.Outcome State Fault Refusal :=
  finish s <|
    unlessError (rangeError s.nblk s.cfg.blkCap) <|
      .ok ((s.storeBlocks (s.blocks.map s.encryptBlock)).loadRoundKeys)

/-- DECECB (43_feistel.md R145). -/
def execDececb (s : State) : Host.Outcome State Fault Refusal :=
  finish s <|
    unlessError (rangeError s.nblk s.cfg.blkCap) <|
      .ok ((s.storeBlocks (s.blocks.map s.decryptBlock)).loadRoundKeys)

end Sys2Proof.Machine
end

