-- ==== Sys2Proof/Machine/Pipeline.lean ====
section
/-! DEFINITION. Hex serialization and the whole-text pipeline (45_pipeline.md). -/

namespace Sys2Proof.Machine

open Sys2Proof

/-- `HexChar(v)`: lowercase (45_pipeline.md R180). -/
def hexChar (v : Nibble) : Byte :=
  if v.toNat ≤ 9 then 0x30#8 + v.setWidth 8 else 0x61#8 + (v.setWidth 8 - 10#8)

/-- `HexVal(c)`; `none` for an invalid character (45_pipeline.md R181). -/
def hexVal (c : Byte) : Option Nibble :=
  if 0x30 ≤ c.toNat ∧ c.toNat ≤ 0x39 then some ((c - 0x30#8).setWidth 4)
  else if 0x61 ≤ c.toNat ∧ c.toNat ≤ 0x66 then some ((c - 0x61#8 + 10#8).setWidth 4)
  else if 0x41 ≤ c.toNat ∧ c.toNat ≤ 0x46 then some ((c - 0x41#8 + 10#8).setWidth 4)
  else none

/-- The sixteen characters of a block, "most significant nibble first" (45_pipeline.md R182). -/
def hexOfBlock (b : Block) : List Byte := (List.range 16).map fun d => hexChar (blockNibble b d)

/-- `Render(blocks, nb)` (45_pipeline.md R182). -/
def render (blocks : List Block) (nb : Nat) : List Byte := (blocks.take nb).flatMap hexOfBlock

/-- The value of character b of a hex text that `Parse` is given (every character below its length is valid there). -/
def digitAt (h : List Byte) (b : Nat) : Nibble := (hexVal (h.getD b 0x30#8)).getD 0#4

/-- `Parse(h, n)` (45_pipeline.md R183). -/
def parse (h : List Byte) (n : Nat) : List Block :=
  (List.range (n / 16)).map fun j => joinNibbles fun d => digitAt h (16 * j + d)

/-- The BADHEX check, at the least index of a byte that is no hex digit (45_pipeline.md R185). -/
def digitError (h : List Byte) : Option CmdError :=
  (h.findIdx? fun c => (hexVal c).isNone).map fun b => { code := .badhex, info := BitVec.ofNat 32 b }

/-- The writes of a rendering: `HEX[0..16·nb−1]` and `HLEN` (45_pipeline.md R184). -/
def State.storeRendered (s : State) (blocks : List Block) : State :=
  (s.storeHex (render blocks blocks.length)).setHlen (16 * blocks.length)

/-- B2H (45_pipeline.md R184). -/
def execB2h (s : State) : Host.Outcome State Fault Refusal :=
  finish s <|
    unlessError (rangeError s.nblk s.cfg.blkCap) <|
      .ok (s.storeRendered s.blocks)

/-- H2B (45_pipeline.md R185). -/
def execH2b (s : State) : Host.Outcome State Fault Refusal :=
  finish s <|
    unlessError (rangeError s.hlen s.cfg.hexCap) <|
    unlessError (lengthError s.hlen) <|
    unlessError (digitError s.hexBytes) <|
      .ok ((s.storeBlocks (parse s.hexBytes s.hlen.toNat)).setNblk (s.hlen.toNat / 16))

/-- ENCTXT (45_pipeline.md R186). -/
def execEnctxt (s : State) : Host.Outcome State Fault Refusal :=
  finish s <|
    unlessError (rangeError s.tlen s.cfg.txtCap) <|
    unlessError (strictError s.ctrl.strict s.textBytes) <|
      let c := (pack s.textBytes s.tlen.toNat).map s.encryptBlock
      .ok ((((s.storeBlocks c).setNblk (ceil8 s.tlen.toNat)).storeRendered c).loadRoundKeys)

/-- DECTXT (45_pipeline.md R187). -/
def execDectxt (s : State) : Host.Outcome State Fault Refusal :=
  finish s <|
    unlessError (rangeError s.hlen s.cfg.hexCap) <|
    unlessError (lengthError s.hlen) <|
    unlessError (digitError s.hexBytes) <|
      let p := (parse s.hexBytes s.hlen.toNat).map s.decryptBlock
      unlessError (strictError s.ctrl.strict (bytesOfBlocks p)) <|
        .ok ((((s.storeBlocks p).setNblk (s.hlen.toNat / 16)).storeUnpacked p).loadRoundKeys)

end Sys2Proof.Machine
end

