-- ==== Sys2Proof/Machine/Dispatch.lean ====
section
/-! DEFINITION. One arm per command: the completion step of the command, which is `Exec` of 30_encoding.md R97 and the
end of R95. -/

namespace Sys2Proof.Machine

open Sys2Proof

def exec (i : Instr) (s : State) : Host.Outcome State Fault Refusal :=
  match i with
  | .nop => Sys2Proof.Machine.execNop s
  | .sbox => Sys2Proof.Machine.execSbox s
  | .keygen => Sys2Proof.Machine.execKeygen s
  | .roundf => Sys2Proof.Machine.execRoundf s
  | .encb => Sys2Proof.Machine.execEncb s
  | .decb => Sys2Proof.Machine.execDecb s
  | .t2b => Sys2Proof.Machine.execT2b s
  | .b2t => Sys2Proof.Machine.execB2t s
  | .encecb => Sys2Proof.Machine.execEncecb s
  | .dececb => Sys2Proof.Machine.execDececb s
  | .b2h => Sys2Proof.Machine.execB2h s
  | .h2b => Sys2Proof.Machine.execH2b s
  | .enctxt => Sys2Proof.Machine.execEnctxt s
  | .dectxt => Sys2Proof.Machine.execDectxt s

end Sys2Proof.Machine
end

