-- ==== Sys2Proof/Machine/Window.lean ====
section
/-! DEFINITION. The register window: the address map and the host's accesses (20_memory.md). -/

namespace Sys2Proof.Machine

open Sys2Proof

/-- The named registers of the window (20_memory.md R61). -/
inductive RegName where
  | id
  | ctrl
  | status
  | cmd
  | errinfo
  | rounds
  | keyHi
  | keyLo
  | arg0
  | arg1
  | res
  | binHi
  | binLo
  | boutHi
  | boutLo
  | tlen
  | nblk
  | hlen
  deriving DecidableEq, Repr

/-- What stands at an offset of the window (20_memory.md R61). -/
inductive Place where
  /-- A named register. -/
  | reg (r : RegName)
  /-- Round-key entry `RK[i]`. -/
  | roundKey (i : Fin 64)
  /-- A word of the TXT, BLK or HEX window within the configured capacity. -/
  | buffer
  /-- Anything else. -/
  | reserved
  deriving DecidableEq, Repr

/-- The address map's rows of named registers (20_memory.md R61). -/
def RegName.offset : RegName → Nat
  | .id => 0x0000
  | .ctrl => 0x0004
  | .status => 0x0008
  | .cmd => 0x000C
  | .errinfo => 0x0010
  | .rounds => 0x0014
  | .keyHi => 0x0018
  | .keyLo => 0x001C
  | .arg0 => 0x0020
  | .arg1 => 0x0024
  | .res => 0x0028
  | .binHi => 0x002C
  | .binLo => 0x0030
  | .boutHi => 0x0034
  | .boutLo => 0x0038
  | .tlen => 0x003C
  | .nblk => 0x0040
  | .hlen => 0x0044

/-- Every named register. -/
def RegName.all : List RegName :=
  [.id, .ctrl, .status, .cmd, .errinfo, .rounds, .keyHi, .keyLo, .arg0, .arg1, .res, .binHi, .binLo, .boutHi,
    .boutLo, .tlen, .nblk, .hlen]

/-- The named register at an offset. -/
def regAt (off : Nat) : Option RegName := RegName.all.find? fun r => r.offset == off

/-- The offset of `RK[0]` (20_memory.md R61). -/
def rkBase : Nat := 0x0100

/-- An offset within `size` bytes of a base. -/
def within (off base size : Nat) : Bool := decide (base ≤ off) && decide (off < base + size)

/-- An offset of the TXT, BLK or HEX window within the configured capacity (20_memory.md R61). -/
def isBuffer (c : Config) (off : Nat) : Bool :=
  within off txtBase c.txtCap || within off blkBase (8 * c.blkCap) || within off hexBase c.hexCap

/-- The address map (20_memory.md R61), for an offset that is a multiple of 4. -/
def placeAt (c : Config) (off : Nat) : Place :=
  match regAt off with
  | some r => .reg r
  | none =>
    if within off rkBase 256 then .roundKey (Fin.ofNat 64 ((off - rkBase) / 4))
    else if isBuffer c off then .buffer
    else .reserved

/-! Reads. -/

/-- `ID` (10_state.md R32, 00_scope.md R2): ASCII "SEG1". -/
def idValue : Word := 0x53454731#32

/-- The value of a named register, "with every reserved bit read as 0" (20_memory.md R63). -/
def State.readReg (s : State) : RegName → Word
  | .id => idValue
  | .ctrl => s.ctrl.toWord
  | .status => s.status.toWord
  | .cmd => s.cmd
  | .errinfo => s.errinfo
  | .rounds => s.rounds.setWidth 32
  | .keyHi => highHalf s.key
  | .keyLo => lowHalf s.key
  | .arg0 => s.arg0
  | .arg1 => s.arg1
  | .res => s.res
  | .binHi => highHalf s.bin
  | .binLo => lowHalf s.bin
  | .boutHi => highHalf s.bout
  | .boutLo => lowHalf s.bout
  | .tlen => s.tlen
  | .nblk => s.nblk
  | .hlen => s.hlen

/-- The word at an offset of the window while the unit is idle; reserved offsets read 0 (20_memory.md R63, R64). -/
def State.readPlace (s : State) (off : Nat) : Word :=
  match placeAt s.cfg off with
  | .reg r => s.readReg r
  | .roundKey i => s.rk[i]
  | .buffer => s.bufWord off
  | .reserved => 0#32

/-- The registers a command may write, whose reads while busy return an unspecified value (20_memory.md R68). -/
def RegName.isResult : RegName → Bool
  | .res | .boutHi | .boutLo | .tlen | .nblk | .hlen => true
  | .id | .ctrl | .status | .cmd | .errinfo | .rounds | .keyHi | .keyLo | .arg0 | .arg1 | .binHi | .binLo => false

/-- The places whose reads while busy return an unspecified value (20_memory.md R68). A reserved offset reads 0, also
within a buffer's window beyond its capacity (R64; log entry 9). -/
def Place.isResult : Place → Bool
  | .reg r => r.isResult
  | .roundKey _ => true
  | .buffer => true
  | .reserved => false

/-- A host read of the aligned word at an offset: the word is the response; no register of the unit changes (20_memory.md
R63, R68). -/
def State.hostRead (s : State) (off : Nat) : State :=
  if s.status.busy && (placeAt s.cfg off).isResult then
    { s with bus := .readData (Config.busyReadWord s.busyReads), busyReads := s.busyReads + 1 }
  else { s with bus := .readData (s.readPlace off) }

/-! Writes. -/

/-- Replace the high half of a block. -/
def setHigh (b : Block) (v : Word) : Block := joinHalves v (lowHalf b)

/-- Replace the low half of a block. -/
def setLow (b : Block) (v : Word) : Block := joinHalves (highHalf b) v

/-- A host write of v to `ROUNDS`: only 1 to 64 is taken (10_state.md R23). -/
def State.writeRounds (s : State) (v : Word) : State :=
  if 1 ≤ v.toNat ∧ v.toNat ≤ 64 then { s with rounds := v.setWidth 7 } else s.ignoreWrite

/-- A host write of v to a named register while idle (10_state.md R22 to R36; 20_memory.md R67). -/
def State.writeReg (s : State) (v : Word) : RegName → State
  | .id => s.ignoreWrite
  | .ctrl => { s with ctrl := s.ctrl.write s.status.busy v }
  | .status => { s with status := s.status.writeOneToClear v }
  | .cmd => s.issue v
  | .errinfo => s.ignoreWrite
  | .rounds => s.writeRounds v
  | .keyHi => { s with key := setHigh s.key v }
  | .keyLo => { s with key := setLow s.key v }
  | .arg0 => { s with arg0 := v }
  | .arg1 => { s with arg1 := v }
  | .res => s.ignoreWrite
  | .binHi => { s with bin := setHigh s.bin v }
  | .binLo => { s with bin := setLow s.bin v }
  | .boutHi => s.ignoreWrite
  | .boutLo => s.ignoreWrite
  | .tlen => { s with tlen := v }
  | .nblk => { s with nblk := v }
  | .hlen => { s with hlen := v }

/-- A host write of v to the aligned word at an offset while the unit is idle (20_memory.md R65, R67, R69 to R71). -/
def State.writePlace (s : State) (off : Nat) (v : Word) : State :=
  match placeAt s.cfg off with
  | .reg r => s.writeReg v r
  | .roundKey _ => s.ignoreWrite
  | .buffer => s.storeWord off v
  | .reserved => s.ignoreWrite

/-- The registers whose writes are honoured while busy (20_memory.md R66). -/
def Place.writableWhileBusy : Place → Bool
  | .reg .ctrl => true
  | .reg .status => true
  | _ => false

/-- A host write of v to the aligned word at an offset: ignored while busy but for `CTRL` and `STATUS` (20_memory.md
R66). -/
def State.hostWrite (s : State) (off : Nat) (v : Word) : State :=
  let written :=
    if s.status.busy && !(placeAt s.cfg off).writableWhileBusy then s.ignoreWrite else s.writePlace off v
  { written with bus := .writeAck }

/-- Whether the unit takes an access: 32 bits wide at a multiple of 4 (20_memory.md R62). -/
def accepts (off : Offset) (width : AccessWidth) : Bool := width == .word && off.toNat % 4 == 0

/-- One host access. A misaligned or narrow one "returns a bus error response to the host, changes no state of the
unit, and sets no `STATUS` bit" (20_memory.md R62; log entry 8). -/
def State.hostAccess (s : State) : Access → State
  | .read off width => if accepts off width then s.hostRead off.toNat else { s with bus := .busError }
  | .write off width v => if accepts off width then s.hostWrite off.toNat v else { s with bus := .busError }

/-- One poll of `STATUS` by the `wait` statement (30_encoding.md R99): while BUSY reads 1 the host polls again, and
after at most `patience` more polls the engine has taken its step. -/
def State.hostPoll (s : State) (patience : Nat) : State :=
  let polled := s.hostRead RegName.status.offset
  if s.status.busy then
    match patience with
    | 0 => { polled with schedule := .engine :: .poll 0 :: s.schedule }
    | n + 1 => { polled with schedule := .poll n :: s.schedule }
  else polled

end Sys2Proof.Machine
end

