-- ==== Sys2Proof/Machine/Engine.lean ====
section
/-! DEFINITION. The engine's step and the unit's turns (10_state.md R20, 30_encoding.md R95). -/

namespace Sys2Proof.Machine

open Sys2Proof

/-- The completion step of the accepted command word (30_encoding.md R95, R97): a legal word's command, or ILLCMD with
the word as `ERRINFO` (R96, 60_exceptions.md R210). -/
def completeCommand (s : State) : Host.Outcome State Fault Refusal :=
  match decode s.cmd with
  | .ok i => exec i s
  | .error _ => finish s (.error { code := .illcmd, info := s.cmd })

/-- The engine's turn: while busy it has "exactly one enabled step, the completion step"; while idle it "has no step"
(30_encoding.md R95). -/
def engineTurn (s : State) : Host.Outcome State Fault Refusal :=
  if s.status.busy then completeCommand s else .next s

/-- The turn `t` is taken in state `s`, whose schedule holds the turns after it. -/
def takeTurn (t : Turn) (s : State) : Host.Outcome State Fault Refusal :=
  match t with
  | .access a => .next (s.hostAccess a)
  | .poll patience => .next (s.hostPoll patience)
  | .engine => engineTurn s
  | .reset => .next s.resetUnit

/-- The next turn of the schedule. With no turn left only the engine can step, and "the engine does not wait forever"
(30_encoding.md R95). -/
def nextTurn (s : State) : Turn × State :=
  match s.schedule with
  | [] => (.engine, s)
  | t :: rest => (t, { s with schedule := rest })

/-- The state in which the host has issued command word v and the engine's turn is next (30_encoding.md R94). -/
def State.issueNow (s : State) (v : Word) : State :=
  { s.issue v with schedule := .engine :: s.schedule }

end Sys2Proof.Machine
end

