-- ==== Sys2Proof/Machine/Step.lean ====
section
/-! DEFINITION. One step of the unit: one atomic host access, completion step or reset (10_state.md R20). -/

namespace Sys2Proof.Machine

open Sys2Proof

/-- One step. -/
def step (s : State) : Host.Outcome State Fault Refusal := takeTurn (nextTurn s).1 (nextTurn s).2

/-- The state in which the very next step runs the command word with these bits: the word has just been issued
(30_encoding.md R94), which is how a command comes to run on this unit (log entry 11). -/
def State.withFetchWord (s : State) (nbits w : Nat) : State := s.issueNow (BitVec.ofNat 32 (w % 2 ^ nbits))

end Sys2Proof.Machine
end

