-- ==== Sys2Proof/Machine/Script.lean ====
section
/-! DEFINITION. Host scripts (30_encoding.md R99 to R101): statements, pseudo-statements and their expansions, the
transactions a script encodes to, the schedules those transactions give, and the text notation (log entry 15). -/

namespace Sys2Proof.Machine

open Sys2Proof

/-- `target` (R99). -/
inductive Target where
  /-- A `REGNAME`. -/
  | reg (r : RegName)
  /-- `TXT+n`. -/
  | txt (n : Nat)
  /-- `BLK+n`. -/
  | blk (n : Nat)
  /-- `HEX+n`. -/
  | hex (n : Nat)
  /-- `RK+n`. -/
  | rk (n : Nat)
  /-- `imm16`. -/
  | imm (off : Offset)
  deriving DecidableEq, Repr

/-- `stmt` (R99). -/
inductive Stmt where
  /-- `wr target, imm32`. -/
  | wr (t : Target) (v : Word)
  /-- `rd target`. -/
  | rd (t : Target)
  /-- `cmd MNEMONIC`. -/
  | cmd (i : Instr)
  /-- `wait`. -/
  | wait
  deriving DecidableEq, Repr

/-- A line of a script: a statement or a pseudo-statement (R100). -/
inductive Line where
  | stmt (s : Stmt)
  /-- `setkey K`. -/
  | setkey (k : Block)
  /-- `setbin B`. -/
  | setbin (b : Block)
  /-- `run M`. -/
  | run (i : Instr)
  /-- `puttxt "s"`. -/
  | puttxt (s : List Byte)
  /-- `puthex "h"`. -/
  | puthex (h : List Byte)
  /-- `ack`. -/
  | ack
  deriving DecidableEq, Repr

/-- A bus transaction of a script (R101); `wait` is the read of `STATUS` repeated until BUSY reads 0. -/
inductive Txn where
  /-- `(W, off, data)`. -/
  | write (off : Offset) (data : Word)
  /-- `(R, off)`. -/
  | read (off : Offset)
  /-- `wait`. -/
  | wait
  deriving DecidableEq, Repr

/-- The offset a target stands for (R99). -/
def Target.offset : Target → Offset
  | .reg r => BitVec.ofNat 16 r.offset
  | .txt n => BitVec.ofNat 16 (txtBase + n)
  | .blk n => BitVec.ofNat 16 (blkBase + n)
  | .hex n => BitVec.ofNat 16 (hexBase + n)
  | .rk n => BitVec.ofNat 16 (rkBase + n)
  | .imm off => off

/-- "n a byte offset, a multiple of 4" (R99), within the 64 KiB window. -/
def Target.wellFormed : Target → Bool
  | .reg _ => true
  | .txt n => n % 4 == 0 && decide (txtBase + n < 0x10000)
  | .blk n => n % 4 == 0 && decide (blkBase + n < 0x10000)
  | .hex n => n % 4 == 0 && decide (hexBase + n < 0x10000)
  | .rk n => n % 4 == 0 && decide (rkBase + n < 0x10000)
  | .imm _ => true

/-- A statement's target is well-formed. -/
def Stmt.wellFormed : Stmt → Bool
  | .wr t _ => t.wellFormed
  | .rd t => t.wellFormed
  | .cmd _ => true
  | .wait => true

/-- The bounds of R100: "n ≤ TXT_CAP" and "n ≤ HEX_CAP". -/
def Line.wellFormed (c : Config) : Line → Bool
  | .stmt s => s.wellFormed
  | .puttxt s => decide (s.length ≤ c.txtCap)
  | .puthex h => decide (h.length ≤ c.hexCap)
  | .setkey _ => true
  | .setbin _ => true
  | .run _ => true
  | .ack => true

/-- The writes of `puttxt` and `puthex`: for w = 0 .. ceil(n/4)−1 the word of bytes 4w to 4w+3, "with bytes beyond n
taken as 0x00" (R100). -/
def fillBuffer (target : Nat → Target) (bytes : List Byte) : List Stmt :=
  (List.range ((bytes.length + 3) / 4)).map fun w =>
    .wr (target (4 * w)) (joinWord fun p => bytes.getD (4 * w + p) 0x00#8)

/-- The expansion of a line (R100): "a pseudo-statement is a shorthand for those accesses and nothing else". -/
def Line.expand : Line → List Stmt
  | .stmt s => [s]
  | .setkey k => [.wr (.reg .keyHi) (highHalf k), .wr (.reg .keyLo) (lowHalf k)]
  | .setbin b => [.wr (.reg .binHi) (highHalf b), .wr (.reg .binLo) (lowHalf b)]
  | .run i => [.cmd i, .wait]
  | .puttxt s => fillBuffer .txt s ++ [.wr (.reg .tlen) (BitVec.ofNat 32 s.length)]
  | .puthex h => fillBuffer .hex h ++ [.wr (.reg .hlen) (BitVec.ofNat 32 h.length)]
  | .ack => [.wr (.reg .status) 0x0000001E#32]

/-- The transaction of a statement; "`cmd M` encodes as `(W, 0x000C, 0x000000XX)` with XX the OPC" (R101). -/
def Stmt.encode : Stmt → Txn
  | .wr t v => .write t.offset v
  | .rd t => .read t.offset
  | .cmd i => .write (BitVec.ofNat 16 RegName.cmd.offset) (Sys2Proof.encode i)
  | .wait => .wait

/-- The encoding of a script (R101). -/
def encodeScript (ls : List Line) : List Txn := (ls.flatMap Line.expand).map Stmt.encode

/-- The turns of one transaction. When the engine takes its turn between the accesses is open (LATENCY: 00_scope.md R8,
30_encoding.md R95), and the delay says it. Before an access, delay 0 stands for no engine turn and any other delay for
one. A `wait` reads `STATUS` with BUSY 1 as many times as its delay says before the engine's turn; with delay 0 that turn
comes before the first read, which then sees BUSY 0. DESIGN CHOICE (log entries 2 and 15), safe: every place of the
engine's turn is some delay's. -/
def Txn.turns (delay : Nat) : Txn → List Turn
  | .write off v => (if delay = 0 then [] else [.engine]) ++ [.access (.write off .word v)]
  | .read off => (if delay = 0 then [] else [.engine]) ++ [.access (.read off .word)]
  | .wait =>
    match delay with
    | 0 => [.engine, .poll 0]
    | n + 1 => [.poll n]

/-- A schedule of a script's transactions. Every choice of delays is one of the interleavings of 60_exceptions.md R221.
Delays beyond the list are 0: DESIGN CHOICE (log entry 15), unsafe for a claim that leaves the list short of the
transactions. -/
def scheduleOf : List Txn → List Nat → List Turn
  | [], _ => []
  | t :: ts, [] => t.turns 0 ++ scheduleOf ts []
  | t :: ts, d :: ds => t.turns d ++ scheduleOf ts ds

/-! The text notation. -/

/-- The name of a register (20_memory.md R61). -/
def RegName.name : RegName → String
  | .id => "ID"
  | .ctrl => "CTRL"
  | .status => "STATUS"
  | .cmd => "CMD"
  | .errinfo => "ERRINFO"
  | .rounds => "ROUNDS"
  | .keyHi => "KEY_HI"
  | .keyLo => "KEY_LO"
  | .arg0 => "ARG0"
  | .arg1 => "ARG1"
  | .res => "RES"
  | .binHi => "BIN_HI"
  | .binLo => "BIN_LO"
  | .boutHi => "BOUT_HI"
  | .boutLo => "BOUT_LO"
  | .tlen => "TLEN"
  | .nblk => "NBLK"
  | .hlen => "HLEN"

/-- The mnemonics (30_encoding.md R92). -/
def mnemonics : List (String × Instr) :=
  [("NOP", .nop), ("SBOX", .sbox), ("KEYGEN", .keygen), ("ROUNDF", .roundf), ("ENCB", .encb), ("DECB", .decb),
    ("T2B", .t2b), ("B2T", .b2t), ("ENCECB", .encecb), ("DECECB", .dececb), ("B2H", .b2h), ("H2B", .h2b),
    ("ENCTXT", .enctxt), ("DECTXT", .dectxt)]

/-- A token of a line. -/
inductive Token where
  | word (cs : List Char)
  | quoted (bytes : List Byte)
  | comma
  deriving DecidableEq, Repr

/-- What the lexer is inside of. -/
inductive LexMode where
  | between
  | inWord (reversed : List Char)
  | inQuotes (reversed : List Byte)
  deriving DecidableEq, Repr

/-- White space between tokens. -/
def isBlank (c : Char) : Bool := c == ' ' || c == '\t' || c == '\r'

/-- The tokens of a line; `;` starts a comment, except inside quotes (R99). -/
def lexLine : List Char → LexMode → Option (List Token)
  | [], .between => some []
  | [], .inWord r => some [.word r.reverse]
  | [], .inQuotes _ => none
  | c :: cs, .between =>
    if isBlank c then lexLine cs .between
    else if c == ';' then some []
    else if c == ',' then (lexLine cs .between).map (.comma :: ·)
    else if c == '"' then lexLine cs (.inQuotes [])
    else lexLine cs (.inWord [c])
  | c :: cs, .inWord r =>
    if isBlank c then (lexLine cs .between).map (.word r.reverse :: ·)
    else if c == ';' then some [.word r.reverse]
    else if c == ',' then (lexLine cs .between).map (.word r.reverse :: .comma :: ·)
    else if c == '"' then none
    else lexLine cs (.inWord (c :: r))
  | c :: cs, .inQuotes r =>
    if c == '"' then (lexLine cs .between).map (.quoted r.reverse :: ·)
    else if c.toNat < 256 then lexLine cs (.inQuotes (BitVec.ofNat 8 c.toNat :: r))
    else none

/-- A decimal digit's value. -/
def decimalDigit (c : Char) : Option Nat :=
  if 0x30 ≤ c.toNat ∧ c.toNat ≤ 0x39 then some (c.toNat - 0x30) else none

/-- A hex digit's value (45_pipeline.md R181 gives the digits). -/
def hexDigit (c : Char) : Option Nat :=
  if c.toNat < 128 then (hexVal (BitVec.ofNat 8 c.toNat)).map BitVec.toNat else none

/-- A numeral in a base, the most significant digit first. -/
def numeral (digit : Char → Option Nat) (base : Nat) (cs : List Char) : Option Nat :=
  if cs.isEmpty then none
  else cs.foldl (fun acc c => acc.bind fun n => (digit c).map fun d => n * base + d) (some 0)

/-- "numbers are hexadecimal with a `0x` prefix or decimal" (R99). -/
def parseNumber (cs : List Char) : Option Nat :=
  match cs with
  | '0' :: 'x' :: ds => numeral hexDigit 16 ds
  | ds => numeral decimalDigit 10 ds

/-- A number that fits in w bits. -/
def parseImm (w : Nat) (cs : List Char) : Option (BitVec w) :=
  (parseNumber cs).bind fun n => if n < 2 ^ w then some (BitVec.ofNat w n) else none

/-- A mnemonic (R92). -/
def parseMnemonic (cs : List Char) : Option Instr :=
  (mnemonics.find? fun p => p.1.toList == cs).map Prod.snd

/-- A buffer or round-key target `NAME+n` (R99). -/
def parseIndexed (name digits : List Char) : Option Target :=
  (parseNumber digits).bind fun n =>
    if name == "TXT".toList then some (.txt n)
    else if name == "BLK".toList then some (.blk n)
    else if name == "HEX".toList then some (.hex n)
    else if name == "RK".toList then some (.rk n)
    else none

/-- `target` (R99). -/
def parseTarget (cs : List Char) : Option Target :=
  match RegName.all.find? fun r => r.name.toList == cs with
  | some r => some (.reg r)
  | none =>
    match cs.dropWhile (· != '+') with
    | '+' :: digits => parseIndexed (cs.takeWhile (· != '+')) digits
    | _ => (parseImm 16 cs).map .imm

/-- One statement of one word. -/
def parseWord (w : List Char) : Option Line :=
  if w == "wait".toList then some (.stmt .wait)
  else if w == "ack".toList then some .ack
  else none

/-- One statement with one operand. -/
def parseUnary (w operand : List Char) : Option Line :=
  if w == "rd".toList then (parseTarget operand).map fun t => .stmt (.rd t)
  else if w == "cmd".toList then (parseMnemonic operand).map fun i => .stmt (.cmd i)
  else if w == "run".toList then (parseMnemonic operand).map .run
  else if w == "setkey".toList then (parseImm 64 operand).map .setkey
  else if w == "setbin".toList then (parseImm 64 operand).map .setbin
  else none

/-- One statement with a quoted operand. -/
def parseQuoted (w : List Char) (bytes : List Byte) : Option Line :=
  if w == "puttxt".toList then some (.puttxt bytes)
  else if w == "puthex".toList then some (.puthex bytes)
  else none

/-- The statement or pseudo-statement of a line, none on an empty one (R99: "one statement per line"). -/
def parseTokens : List Token → Option (List Line)
  | [] => some []
  | [.word w] => (parseWord w).map ([·])
  | [.word w, .word x] => (parseUnary w x).map ([·])
  | [.word w, .quoted b] => (parseQuoted w b).map ([·])
  | [.word w, .word x, .comma, .word y] =>
    if w == "wr".toList then
      (parseTarget x).bind fun t => (parseImm 32 y).map fun v => [.stmt (.wr t v)]
    else none
  | _ => none

/-- One line of a script (R99). -/
def parseLine (cs : List Char) : Option (List Line) := (lexLine cs .between).bind parseTokens

/-- A script, given line by line. -/
def parseScript : List (List Char) → Option (List Line)
  | [] => some []
  | l :: ls => (parseLine l).bind fun x => (parseScript ls).map (x ++ ·)

end Sys2Proof.Machine
end

