-- ==== Sys2Proof/Safety.lean ====
section
/-! DEFINITION. What holds of every state the unit can be in, and what counts as a safe run. -/

namespace Sys2Proof.Machine

open Sys2Proof

/-- `ROUNDS` holds a legal value: "Legal values 1 ≤ ROUNDS ≤ MAX_ROUNDS = 64" (10_state.md R23). -/
abbrev State.roundsLegal (s : State) : Prop := 1 ≤ s.rounds.toNat ∧ s.rounds.toNat ≤ 64

/-- `ERRCODE` is one of the codes the unit produces: codes 6–15 are "never produced" (60_exceptions.md R210). -/
abbrev State.errcodeProduced (s : State) : Prop := s.status.errcode.toNat ≤ 5

/-- DONE is 0 from issue to completion (30_encoding.md R94, R95). -/
abbrev State.busyExcludesDone (s : State) : Prop := s.status.busy = true → s.status.done = false

/-- Memory lists bytes of the configured buffers only (20_memory.md R61). -/
abbrev State.memWithinBuffers (s : State) : Prop := ∀ c ∈ s.mem, isBuffer s.cfg c.1 = true

/-- The invariant of the unit. -/
structure State.Inv (s : State) : Prop where
  rounds : s.roundsLegal
  errcode : s.errcodeProduced
  busyDone : s.busyExcludesDone
  memWf : s.mem.wf
  memWithin : s.memWithinBuffers

/-- A step is safe when it answers a next state. -/
def Safe (s : State) : Prop := ∃ t, step s = .next t

end Sys2Proof.Machine
end

