-- ==== Sys2Proof/Certificates/Slice0/Obligations.lean ====
section
/-! DEFINITION. The statements for the provers, from the numbered rules of the spec. -/

open Sys2Proof Sys2Proof.Machine

namespace Sys2Proof.Claims

/-- `STATUS` after a completion with outcome OK (30_encoding.md R95): ERR, WIGN and LOSSY as they were. -/
def okStatus (t : Status) : Status := { t with errcode := 0#4, busy := false, done := true }

/-- The state after a completion with another outcome (30_encoding.md R95): nothing but STATUS and ERRINFO. -/
def failed (s : State) (code : BitVec 4) (info : Word) : State :=
  { s with status := { s.status with errcode := code, err := true, busy := false, done := true }, errinfo := info }

/-- `RK` after a key-consuming command (10_state.md R38): entries below ROUNDS are the round keys, the others are kept. -/
def rkLoaded (s t : State) : Prop :=
  ∀ i (h : i < 64), t.rk[i] = if i < s.rounds.toNat then roundKey s.key i else s.rk[i]

/-- Window offsets of `TXT[0..n−1]`. -/
def inText (n a : Nat) : Prop := 0x1000 ≤ a ∧ a < 0x1000 + n

/-- Window offsets of `BLK[0..n−1]`. -/
def inBlocks (n a : Nat) : Prop := 0x2000 ≤ a ∧ a < 0x2000 + 8 * n

/-- Window offsets of `HEX[0..n−1]`. -/
def inHex (n a : Nat) : Prop := 0x4000 ≤ a ∧ a < 0x4000 + n

/-- The inverse table of 40_sbox.md R112. -/
def sboxInverse : List Nibble :=
  [0xE#4, 0x3#4, 0x4#4, 0x8#4, 0x1#4, 0xC#4, 0xA#4, 0xF#4, 0x7#4, 0xD#4, 0x9#4, 0x6#4, 0xB#4, 0x2#4, 0x0#4, 0x5#4]

/-- Byte b of the text operand padded with NULs (44_codec.md R160): `TXT[b]` below TLEN, 0x00 from there on. -/
def paddedText (s : State) (b : Nat) : Byte := if b < s.tlen.toNat then s.txt b else 0x00#8

/-- Block j of the hex operand (45_pipeline.md R183), for hex digits. -/
def parsedBlock (s : State) (j : Nat) : Block := joinNibbles fun d => (hexVal (s.hex (16 * j + d))).getD 0#4

/-- The three conditions of 44_codec.md R165 on a text s of length n. -/
def roundTrips (s : List Byte) : Prop :=
  (∀ c ∈ s, c.toNat < 0x80) ∧ (s.length = 0 ∨ s.getD (s.length - 1) 0#8 ≠ 0#8) ∧
    ∀ j, 8 * j + 7 < s.length → s.getD (8 * j + 7) 0#8 ≠ 0#8

end Sys2Proof.Claims

open Sys2Proof.Claims

/-! ## Reset and steps -/

/-- 70_reset_and_hazards.md R241: the registers after reset. (The model's own fields and the parameter are not in it.)
-/
def Obligations.ResetRegisterValues : Prop :=
  idValue = 0x53454731#32 ∧ State.reset.ctrl.ie = false ∧ State.reset.ctrl.strict = false ∧
  State.reset.status.busy = false ∧ State.reset.status.done = false ∧ State.reset.status.err = false ∧
  State.reset.status.wign = false ∧ State.reset.status.lossy = false ∧ State.reset.status.errcode = 0#4 ∧
  State.reset.cmd = 0#32 ∧ State.reset.errinfo = 0#32 ∧ State.reset.rounds = 8#7 ∧ State.reset.key = 0#64 ∧
  State.reset.arg0 = 0#32 ∧ State.reset.arg1 = 0#32 ∧ State.reset.res = 0#32 ∧ State.reset.bin = 0#64 ∧
  State.reset.bout = 0#64 ∧ State.reset.tlen = 0#32 ∧ State.reset.nblk = 0#32 ∧ State.reset.hlen = 0#32 ∧
  (∀ i (h : i < 64), State.reset.rk[i] = 0#32) ∧ State.reset.irq = false

/-- The invariant of Safety.lean holds after reset. -/
def Obligations.ResetMeetsInvariant : Prop := State.reset.Inv

/-- 70_reset_and_hazards.md section 1: a reset turn leaves every register at its reset value, discards the command in
flight and draws the buffers anew. That the parameter, the turns to come and the count of free reads stay is the
model's choice (log entries 1, 3, 6, 10). -/
def Obligations.ResetTurnRestoresRegisters : Prop :=
  ∀ (s : State) (r : List Turn), s.schedule = .reset :: r →
    step s = .next { State.reset with
      cfg := s.cfg, schedule := r, resets := s.resets + 1, busyReads := s.busyReads }

/-- 10_state.md section 1 and 30_encoding.md section 3: while busy the engine's step is the completion step of the
command `CMD` decodes to; while idle the engine has no step; a host access takes effect in a step of its own. That a
step is the schedule's next turn, and the engine's when no turn is left, is the model's choice (log entry 1). -/
def Obligations.StepRunsDecodedCommand : Prop :=
  (∀ (s : State) (i : Instr), s.status.busy = true → decode s.cmd = .ok i →
    (∀ r, s.schedule = .engine :: r → step s = exec i { s with schedule := r }) ∧
    (s.schedule = [] → step s = exec i s)) ∧
  (∀ (s : State) (a : Access) (r : List Turn), s.schedule = .access a :: r →
    step s = .next (State.hostAccess { s with schedule := r } a)) ∧
  (∀ (s : State) (r : List Turn), s.status.busy = false → s.schedule = .engine :: r →
    step s = .next { s with schedule := r }) ∧
  (∀ s : State, s.status.busy = false → s.schedule = [] → step s = .next s)

/-- 30_encoding.md R96: an illegal word is accepted like any other, and it completes with ILLCMD (code 1), ERRINFO the
word, and no other change. (The write's answer and the schedule are the model's own fields: log entries 1 and 7.) -/
def Obligations.IllegalWordCompletesWithIllcmd : Prop :=
  ∀ (s : State) (v : Word), (v.extractLsb' 8 24 ≠ 0#24 ∨ 0x0E ≤ (v.extractLsb' 0 8).toNat) →
    (s.status.busy = false →
      s.hostAccess (.write 0x000C#16 .word v) =
        { s with cmd := v, status := { s.status with busy := true, done := false }, bus := .writeAck }) ∧
    (∀ r : List Turn, s.status.busy = true → s.cmd = v → s.schedule = .engine :: r →
      step s = .next (failed { s with schedule := r } 1#4 v))

/-- 30_encoding.md R94: issue while idle, of any word; while busy a write of `CMD` is lost and sets WIGN. -/
def Obligations.IssueAcceptsAnyWord : Prop :=
  ∀ (s : State) (v : Word),
    (s.status.busy = false →
      s.hostAccess (.write 0x000C#16 .word v) =
        { s with cmd := v, status := { s.status with busy := true, done := false }, bus := .writeAck }) ∧
    (s.status.busy = true →
      s.hostAccess (.write 0x000C#16 .word v) =
        { s with status := { s.status with wign := true }, bus := .writeAck })

/-- No step stops: every step answers a next state. That a failing command completes with an outcome code and takes no
trap is 60_exceptions.md sections 1 and 3. That the machine also goes on after a misaligned or narrow access, which R62
has answered with a bus error and a host fault, is the model's deduction (log entry 8), and that a step with no turn left
is the engine's is its choice (log entry 1). -/
def Obligations.StepNeverStops : Prop := ∀ s : State, Safe s

/-- Every step keeps the invariant of Safety.lean: ROUNDS legal, ERRCODE one of the produced codes, DONE 0 while busy,
the memory canonical and within the configured buffers. -/
def Obligations.StepKeepsInvariant : Prop := ∀ s t : State, s.Inv → step s = .next t → t.Inv

/-! ## Encoding -/

/-- 30_encoding.md sections 1 to 4: a word decodes to a command exactly when it is that command's encoding, and is
rejected by name otherwise. -/
def Obligations.DecodeInvertsEncode : Prop :=
  (∀ (w : Word) (i : Instr), decode w = .ok i ↔ w = encode i) ∧
  (∀ w : Word, decode w = .error .reservedBits ↔ w.extractLsb' 8 24 ≠ 0#24) ∧
  (∀ w : Word, decode w = .error .reservedOpcode ↔
    w.extractLsb' 8 24 = 0#24 ∧ 0x0E ≤ (w.extractLsb' 0 8).toNat)

/-- 30_encoding.md section 2: the words of the opcode map, written out, and two illegal ones (95_test_vectors.md V82).
-/
def Obligations.DecodeSpecWords : Prop :=
  decode 0x00000000#32 = .ok .nop ∧ decode 0x00000001#32 = .ok .sbox ∧ decode 0x00000002#32 = .ok .keygen ∧
  decode 0x00000003#32 = .ok .roundf ∧ decode 0x00000004#32 = .ok .encb ∧ decode 0x00000005#32 = .ok .decb ∧
  decode 0x00000006#32 = .ok .t2b ∧ decode 0x00000007#32 = .ok .b2t ∧ decode 0x00000008#32 = .ok .encecb ∧
  decode 0x00000009#32 = .ok .dececb ∧ decode 0x0000000A#32 = .ok .b2h ∧ decode 0x0000000B#32 = .ok .h2b ∧
  decode 0x0000000C#32 = .ok .enctxt ∧ decode 0x0000000D#32 = .ok .dectxt ∧
  decode 0x0000000E#32 = .error .reservedOpcode ∧ decode 0x00000104#32 = .error .reservedBits

/-! ## NOP, SBOX, KEYGEN, ROUNDF -/

/-- 46_control.md R200. -/
def Obligations.NopCompletes : Prop :=
  ∀ s : State, exec .nop s = .next { s with status := okStatus s.status }

/-- 40_sbox.md: the table (R110), entry n counted from 0; and the spec's inference from it (R112), that it is a
permutation with the inverse table given there and without a fixed point. -/
def Obligations.SboxTableIsPermutation : Prop :=
  (List.range 16).map (fun n => sbox (BitVec.ofNat 4 n)) =
    [0xE#4, 0x4#4, 0xD#4, 0x1#4, 0x2#4, 0xF#4, 0xB#4, 0x8#4, 0x3#4, 0xA#4, 0x6#4, 0xC#4, 0x5#4, 0x9#4, 0x0#4,
      0x7#4] ∧
  (∀ n : Nibble, sboxInverse.getD (sbox n).toNat 0#4 = n) ∧
  (∀ m : Nibble, sbox (sboxInverse.getD m.toNat 0#4) = m) ∧ (∀ n : Nibble, sbox n ≠ n)

/-- 40_sbox.md R111: RES is the S-box of ARG0[3:0], zero-extended; nothing else but the completion's STATUS changes.
-/
def Obligations.SboxResult : Prop :=
  ∀ s : State, exec .sbox s =
    .next { s with res := (sbox (s.arg0.extractLsb' 0 4)).setWidth 32, status := okStatus s.status }

/-- 41_keyschedule.md, R120 and R121: the shifts; exactly N round keys, entry i by the formula with a wrap term of 0 at
shift 0; and the spec's inference in R120, that the shifts take each of 0..63 once in one period of 64. -/
def Obligations.RoundKeysFollowFormula : Prop :=
  ((List.range 8).map shiftAmount = [0, 7, 14, 21, 28, 35, 42, 49] ∧
    (∀ i, shiftAmount i = (i * 7) % 64) ∧ (∀ i, shiftAmount (i + 64) = shiftAmount i) ∧
    (∀ v < 64, ∃ i < 64, shiftAmount i = v) ∧
    (∀ i < 64, ∀ j < 64, shiftAmount i = shiftAmount j → i = j)) ∧
  ∀ (k : Block) (n : Nat), (roundKeys k n).length = n ∧
    ∀ i < n, (roundKeys k n)[i]? =
      some (((k >>> ((i * 7) % 64)) ^^^
        (if (i * 7) % 64 = 0 then 0#64 else k <<< (64 - (i * 7) % 64))).extractLsb' 0 32)

/-- 41_keyschedule.md (R123, the spec's inference from R121): the formula is a rotation, bit by bit. -/
def Obligations.RoundKeyIsRotation : Prop :=
  (∀ (k : Block) (s : Nat), 0 < s → s < 64 →
    (k >>> s) ^^^ (k <<< (64 - s)) = (k >>> s) ||| (k <<< (64 - s)) ∧
    (k >>> s) ^^^ (k <<< (64 - s)) = k.rotateRight s) ∧
  (∀ (k : Block) (i : Nat), roundKey k i = (k.rotateRight ((i * 7) % 64)).extractLsb' 0 32) ∧
  (∀ (k : Block) (i b : Nat), b < 32 → (roundKey k i).getLsbD b = k.getLsbD ((b + (i * 7) % 64) % 64))

/-- 41_keyschedule.md R122: RK[i] below ROUNDS is round key i, the others are kept; nothing else changes. -/
def Obligations.KeygenResult : Prop :=
  ∀ s : State, ∃ t : State, exec .keygen s = .next t ∧
    t = { s with rk := t.rk, status := okStatus s.status } ∧
    ∀ i (h : i < 64), t.rk[i] = if i < s.rounds.toNat then
      ((s.key >>> ((i * 7) % 64)) ^^^
        (if (i * 7) % 64 = 0 then 0#64 else s.key <<< (64 - (i * 7) % 64))).extractLsb' 0 32 else s.rk[i]

/-- 42_round.md R130: nibble j of F(r, k) is the S-box of nibble j of r XOR k. -/
def Obligations.RoundFunctionNibbles : Prop :=
  ∀ (r k : Word) (j : Nat), j < 8 →
    (roundFunction r k).extractLsb' (4 * j) 4 = sbox ((r ^^^ k).extractLsb' (4 * j) 4)

/-- 42_round.md (R132, the spec's inference from R130): F depends on r XOR k only, and is a bijection of r for fixed
k. -/
def Obligations.RoundFunctionBijective : Prop :=
  (∀ r k : Word, roundFunction r k = roundFunction (r ^^^ k) 0#32) ∧
  (∀ k : Word, Function.Bijective fun r => roundFunction r k)

/-- 42_round.md R131. -/
def Obligations.RoundfResult : Prop :=
  ∀ s : State, exec .roundf s =
    .next { s with res := roundFunction s.arg0 s.arg1, status := okStatus s.status }

/-! ## The Feistel engine -/

/-- 43_feistel.md R140: for every sequence of states that follows the rounds, Enc is its last state. -/
def Obligations.EncryptFollowsRounds : Prop :=
  ∀ (b k : Block) (n : Nat) (L R : Nat → Word), L 0 = b.extractLsb' 32 32 → R 0 = b.extractLsb' 0 32 →
    (∀ i < n, L (i + 1) = R i ∧ R (i + 1) = L i ^^^ roundFunction (R i) (roundKey k i)) →
    encrypt b k n = L n ++ R n

/-- 43_feistel.md R141: for every sequence of states that follows the rounds from N−1 down to 0, Dec is its last
state. -/
def Obligations.DecryptFollowsRounds : Prop :=
  ∀ (c k : Block) (n : Nat) (L R : Nat → Word), L n = c.extractLsb' 32 32 → R n = c.extractLsb' 0 32 →
    (∀ i < n, L i = R (i + 1) ^^^ roundFunction (L (i + 1)) (roundKey k i) ∧ R i = L (i + 1)) →
    decrypt c k n = L 0 ++ R 0

/-- 43_feistel.md: decryption undoes encryption (R146, there for a positive round count; here also for 0), and the spec's
inference in R143, that encryption undoes decryption. -/
def Obligations.DecryptUndoesEncrypt : Prop :=
  ∀ (b k : Block) (n : Nat), decrypt (encrypt b k n) k n = b ∧ encrypt (decrypt b k n) k n = b

/-- 43_feistel.md R142. -/
def Obligations.EncbResult : Prop :=
  ∀ s : State, ∃ t : State, exec .encb s = .next t ∧ rkLoaded s t ∧
    t = { s with bout := encrypt s.bin s.key s.rounds.toNat, rk := t.rk, status := okStatus s.status }

/-- 43_feistel.md R143. -/
def Obligations.DecbResult : Prop :=
  ∀ s : State, ∃ t : State, exec .decb s = .next t ∧ rkLoaded s t ∧
    t = { s with bout := decrypt s.bin s.key s.rounds.toNat, rk := t.rk, status := okStatus s.status }

/-- 43_feistel.md R144: every block below NBLK is encrypted on its own, every other buffer byte is kept; RANGE when
NBLK is beyond BLK_CAP. -/
def Obligations.EncecbResult : Prop :=
  ∀ s : State,
    (s.cfg.blkCap < s.nblk.toNat → exec .encecb s = .next (failed s 2#4 s.nblk)) ∧
    (s.nblk.toNat ≤ s.cfg.blkCap → ∃ t : State, exec .encecb s = .next t ∧ rkLoaded s t ∧
      t = { s with mem := t.mem, rk := t.rk, status := okStatus s.status } ∧
      (∀ j < s.nblk.toNat, t.blk j = encrypt (s.blk j) s.key s.rounds.toNat) ∧
      ∀ a, ¬ inBlocks s.nblk.toNat a → t.bufByte a = s.bufByte a)

/-- 43_feistel.md R145. -/
def Obligations.DececbResult : Prop :=
  ∀ s : State,
    (s.cfg.blkCap < s.nblk.toNat → exec .dececb s = .next (failed s 2#4 s.nblk)) ∧
    (s.nblk.toNat ≤ s.cfg.blkCap → ∃ t : State, exec .dececb s = .next t ∧ rkLoaded s t ∧
      t = { s with mem := t.mem, rk := t.rk, status := okStatus s.status } ∧
      (∀ j < s.nblk.toNat, t.blk j = decrypt (s.blk j) s.key s.rounds.toNat) ∧
      ∀ a, ¬ inBlocks s.nblk.toNat a → t.bufByte a = s.bufByte a)

/-- 43_feistel.md section 3 (R145's corner case, the spec's inference): DECECB after ENCECB restores every byte of the
buffers. -/
def Obligations.EcbRestoresBuffers : Prop :=
  ∀ s : State, s.nblk.toNat ≤ s.cfg.blkCap →
    ∃ t u : State, exec .encecb s = .next t ∧ exec .dececb t = .next u ∧ ∀ a, u.bufByte a = s.bufByte a

/-! ## The text codec -/

/-- 44_codec.md R160: ceil8(n) blocks, byte p of block j is byte 8j + p of the text padded with NULs. -/
def Obligations.PackPadsBigEndian : Prop :=
  ∀ (bytes : List Byte) (n : Nat), n ≤ bytes.length →
    (pack bytes n).length = (n + 7) / 8 ∧
    ∀ j < (n + 7) / 8, ∀ p < 8, ((pack bytes n).getD j 0#64).extractLsb' (56 - 8 * p) 8 =
      if 8 * j + p < n then bytes.getD (8 * j + p) 0#8 else 0#8

/-- 44_codec.md section 1 (R161): block by block, drop the bytes ≥ 0x80 and then the trailing NULs; then strip trailing
NULs from the whole; and the spec's inference there, that the last strip removes nothing. -/
def Obligations.UnpackStripsEachBlock : Prop :=
  ∀ (bs : List Block) (nb : Nat) (decoded : List Byte), nb ≤ bs.length →
    decoded = ((bs.take nb).flatMap fun b =>
      (((List.range 8).map fun p => b.extractLsb' (56 - 8 * p) 8).filter fun c : Byte =>
        decide (c.toNat < 0x80)).rdropWhile fun c => decide (c = 0#8)) →
    unpack bs nb = (decoded.rdropWhile fun c => decide (c = 0#8)) ∧ unpack bs nb = decoded

/-- 44_codec.md R162. -/
def Obligations.TextToBlocksResult : Prop :=
  ∀ s : State,
    (s.cfg.txtCap < s.tlen.toNat → exec .t2b s = .next (failed s 2#4 s.tlen)) ∧
    (s.tlen.toNat ≤ s.cfg.txtCap → s.ctrl.strict = true →
      ∀ b < s.tlen.toNat, 0x80 ≤ (s.txt b).toNat → (∀ b' < b, (s.txt b').toNat < 0x80) →
        exec .t2b s = .next (failed s 5#4 (BitVec.ofNat 32 b))) ∧
    (s.tlen.toNat ≤ s.cfg.txtCap →
      (s.ctrl.strict = true → ∀ b < s.tlen.toNat, (s.txt b).toNat < 0x80) →
      ∃ t : State, exec .t2b s = .next t ∧
        t = { s with
          mem := t.mem, nblk := BitVec.ofNat 32 (ceil8 s.tlen.toNat), status := okStatus s.status } ∧
        (∀ j < ceil8 s.tlen.toNat, t.blk j = joinBlock fun p => paddedText s (8 * j + p)) ∧
        ∀ a, ¬ inBlocks (ceil8 s.tlen.toNat) a → t.bufByte a = s.bufByte a)

/-- 44_codec.md R163. -/
def Obligations.BlocksToTextResult : Prop :=
  ∀ s : State,
    (s.cfg.blkCap < s.nblk.toNat → exec .b2t s = .next (failed s 2#4 s.nblk)) ∧
    (s.nblk.toNat ≤ s.cfg.blkCap → s.ctrl.strict = true →
      ∀ j < s.nblk.toNat, ∀ p < 8, 0x80 ≤ (blockByte (s.blk j) p).toNat →
        (∀ j' p', p' < 8 → 8 * j' + p' < 8 * j + p → (blockByte (s.blk j') p').toNat < 0x80) →
        exec .b2t s = .next (failed s 5#4 (BitVec.ofNat 32 (8 * j + p)))) ∧
    (s.nblk.toNat ≤ s.cfg.blkCap →
      (s.ctrl.strict = true → ∀ j < s.nblk.toNat, ∀ p < 8, (blockByte (s.blk j) p).toNat < 0x80) →
      ∃ (t : State) (out : List Byte), out = unpack ((List.range s.nblk.toNat).map s.blk) s.nblk.toNat ∧
        exec .b2t s = .next t ∧
        t = { s with
          mem := t.mem, tlen := BitVec.ofNat 32 out.length,
          status := { okStatus s.status with lossy := t.status.lossy } } ∧
        (t.status.lossy = true ↔
          s.status.lossy = true ∨ ∃ j < s.nblk.toNat, ∃ p < 8, 0x80 ≤ (blockByte (s.blk j) p).toNat) ∧
        (∀ b < out.length, t.txt b = out.getD b 0#8) ∧
        ∀ a, ¬ inText out.length a → t.bufByte a = s.bufByte a)

/-- 44_codec.md section 3 (R165, the spec's inference from R160 and R161): a text comes back exactly when it meets the
three conditions. -/
def Obligations.CodecRoundTrip : Prop :=
  ∀ s : List Byte, unpack (pack s s.length) (ceil8 s.length) = s ↔ roundTrips s

/-! ## Hex and the text pipeline -/

/-- 45_pipeline.md R180 and R181: the characters of the digits, and exactly the 22 valid ones. -/
def Obligations.HexDigitCharacters : Prop :=
  (∀ v : Nibble, (hexChar v).toNat = if v.toNat ≤ 9 then 0x30 + v.toNat else 0x61 + (v.toNat - 10)) ∧
  (∀ c : Byte, (hexVal c).map BitVec.toNat =
    if 0x30 ≤ c.toNat ∧ c.toNat ≤ 0x39 then some (c.toNat - 0x30)
    else if 0x61 ≤ c.toNat ∧ c.toNat ≤ 0x66 then some (c.toNat - 0x61 + 10)
    else if 0x41 ≤ c.toNat ∧ c.toNat ≤ 0x46 then some (c.toNat - 0x41 + 10)
    else none)

/-- 45_pipeline.md R182: sixteen characters a block, the most significant nibble first. -/
def Obligations.RenderWritesSixteenDigits : Prop :=
  ∀ (bs : List Block) (nb : Nat), nb ≤ bs.length →
    (render bs nb).length = 16 * nb ∧
    ∀ j < nb, ∀ d < 16, (render bs nb).getD (16 * j + d) 0#8 =
      hexChar ((bs.getD j 0#64).extractLsb' (60 - 4 * d) 4)

/-- 45_pipeline.md section 1 (R183): the blocks of a hex text, digit by digit; and the spec's inference from R180 to
R183, that parsing undoes rendering. -/
def Obligations.ParseUndoesRender : Prop :=
  (∀ (h : List Byte) (n : Nat), n ≤ h.length → n % 16 = 0 → (∀ b < n, (hexVal (h.getD b 0#8)).isSome) →
    (parse h n).length = n / 16 ∧
    ∀ j < n / 16, ∀ d < 16,
      some (((parse h n).getD j 0#64).extractLsb' (60 - 4 * d) 4) = hexVal (h.getD (16 * j + d) 0#8)) ∧
  (∀ bs : List Block, parse (render bs bs.length) (16 * bs.length) = bs)

/-- 45_pipeline.md R184. -/
def Obligations.BlocksToHexResult : Prop :=
  ∀ s : State,
    (s.cfg.blkCap < s.nblk.toNat → exec .b2h s = .next (failed s 2#4 s.nblk)) ∧
    (s.nblk.toNat ≤ s.cfg.blkCap → ∃ t : State, exec .b2h s = .next t ∧
      t = { s with mem := t.mem, hlen := BitVec.ofNat 32 (16 * s.nblk.toNat), status := okStatus s.status } ∧
      (∀ j < s.nblk.toNat, ∀ d < 16, t.hex (16 * j + d) = hexChar (blockNibble (s.blk j) d)) ∧
      ∀ a, ¬ inHex (16 * s.nblk.toNat) a → t.bufByte a = s.bufByte a)

/-- 45_pipeline.md R185: the checks in their order, and the parsed blocks. -/
def Obligations.HexToBlocksResult : Prop :=
  ∀ s : State,
    (s.cfg.hexCap < s.hlen.toNat → exec .h2b s = .next (failed s 2#4 s.hlen)) ∧
    (s.hlen.toNat ≤ s.cfg.hexCap → s.hlen.toNat % 16 ≠ 0 → exec .h2b s = .next (failed s 3#4 s.hlen)) ∧
    (s.hlen.toNat ≤ s.cfg.hexCap → s.hlen.toNat % 16 = 0 →
      ∀ b < s.hlen.toNat, hexVal (s.hex b) = none → (∀ b' < b, (hexVal (s.hex b')).isSome) →
        exec .h2b s = .next (failed s 4#4 (BitVec.ofNat 32 b))) ∧
    (s.hlen.toNat ≤ s.cfg.hexCap → s.hlen.toNat % 16 = 0 →
      (∀ b < s.hlen.toNat, (hexVal (s.hex b)).isSome) →
      ∃ t : State, exec .h2b s = .next t ∧
        t = { s with
          mem := t.mem, nblk := BitVec.ofNat 32 (s.hlen.toNat / 16), status := okStatus s.status } ∧
        (∀ j < s.hlen.toNat / 16, ∀ d < 16, hexVal (s.hex (16 * j + d)) = some (blockNibble (t.blk j) d)) ∧
        ∀ a, ¬ inBlocks (s.hlen.toNat / 16) a → t.bufByte a = s.bufByte a)

/-- 45_pipeline.md R186. -/
def Obligations.EncryptTextResult : Prop :=
  ∀ s : State,
    (s.cfg.txtCap < s.tlen.toNat → exec .enctxt s = .next (failed s 2#4 s.tlen)) ∧
    (s.tlen.toNat ≤ s.cfg.txtCap → s.ctrl.strict = true →
      ∀ b < s.tlen.toNat, 0x80 ≤ (s.txt b).toNat → (∀ b' < b, (s.txt b').toNat < 0x80) →
        exec .enctxt s = .next (failed s 5#4 (BitVec.ofNat 32 b))) ∧
    (s.tlen.toNat ≤ s.cfg.txtCap →
      (s.ctrl.strict = true → ∀ b < s.tlen.toNat, (s.txt b).toNat < 0x80) →
      ∃ t : State, exec .enctxt s = .next t ∧ rkLoaded s t ∧
        t = { s with
          mem := t.mem, rk := t.rk, nblk := BitVec.ofNat 32 (ceil8 s.tlen.toNat),
          hlen := BitVec.ofNat 32 (16 * ceil8 s.tlen.toNat), status := okStatus s.status } ∧
        (∀ j < ceil8 s.tlen.toNat,
          t.blk j = encrypt (joinBlock fun p => paddedText s (8 * j + p)) s.key s.rounds.toNat ∧
          ∀ d < 16, t.hex (16 * j + d) = hexChar (blockNibble (t.blk j) d)) ∧
        ∀ a, ¬ inBlocks (ceil8 s.tlen.toNat) a → ¬ inHex (16 * ceil8 s.tlen.toNat) a →
          t.bufByte a = s.bufByte a)

/-- 45_pipeline.md R187. -/
def Obligations.DecryptTextResult : Prop :=
  ∀ s : State,
    (s.cfg.hexCap < s.hlen.toNat → exec .dectxt s = .next (failed s 2#4 s.hlen)) ∧
    (s.hlen.toNat ≤ s.cfg.hexCap → s.hlen.toNat % 16 ≠ 0 → exec .dectxt s = .next (failed s 3#4 s.hlen)) ∧
    (s.hlen.toNat ≤ s.cfg.hexCap → s.hlen.toNat % 16 = 0 →
      ∀ b < s.hlen.toNat, hexVal (s.hex b) = none → (∀ b' < b, (hexVal (s.hex b')).isSome) →
        exec .dectxt s = .next (failed s 4#4 (BitVec.ofNat 32 b))) ∧
    (s.hlen.toNat ≤ s.cfg.hexCap → s.hlen.toNat % 16 = 0 →
      (∀ b < s.hlen.toNat, (hexVal (s.hex b)).isSome) →
      ∀ p : Nat → Block, (∀ j, p j = decrypt (parsedBlock s j) s.key s.rounds.toNat) →
      (s.ctrl.strict = true →
        ∀ j < s.hlen.toNat / 16, ∀ q < 8, 0x80 ≤ (blockByte (p j) q).toNat →
          (∀ j' q', q' < 8 → 8 * j' + q' < 8 * j + q → (blockByte (p j') q').toNat < 0x80) →
          exec .dectxt s = .next (failed s 5#4 (BitVec.ofNat 32 (8 * j + q)))) ∧
      ((s.ctrl.strict = true → ∀ j < s.hlen.toNat / 16, ∀ q < 8, (blockByte (p j) q).toNat < 0x80) →
        ∃ (t : State) (out : List Byte),
          out = unpack ((List.range (s.hlen.toNat / 16)).map p) (s.hlen.toNat / 16) ∧
          exec .dectxt s = .next t ∧ rkLoaded s t ∧
          t = { s with
            mem := t.mem, rk := t.rk, nblk := BitVec.ofNat 32 (s.hlen.toNat / 16),
            tlen := BitVec.ofNat 32 out.length,
            status := { okStatus s.status with lossy := t.status.lossy } } ∧
          (t.status.lossy = true ↔ s.status.lossy = true ∨
            ∃ j < s.hlen.toNat / 16, ∃ q < 8, 0x80 ≤ (blockByte (p j) q).toNat) ∧
          (∀ j < s.hlen.toNat / 16, t.blk j = p j) ∧
          (∀ b < out.length, t.txt b = out.getD b 0#8) ∧
          ∀ a, ¬ inBlocks (s.hlen.toNat / 16) a → ¬ inText out.length a → t.bufByte a = s.bufByte a))

/-- 45_pipeline.md section 3 (R186): a successful ENCTXT is T2B, ENCECB and B2H run back to back. -/
def Obligations.EncryptTextIsThreeCommands : Prop :=
  ∀ s : State, s.mem.wf → s.tlen.toNat ≤ s.cfg.txtCap →
    (s.ctrl.strict = true → ∀ b < s.tlen.toNat, (s.txt b).toNat < 0x80) →
    ∃ t u v : State, exec .t2b s = .next t ∧ exec .encecb t = .next u ∧ exec .b2h u = .next v ∧
      exec .enctxt s = .next v

/-- 45_pipeline.md section 3 (R187): a successful DECTXT is H2B, DECECB and B2T run back to back. -/
def Obligations.DecryptTextIsThreeCommands : Prop :=
  ∀ s w : State, s.mem.wf → exec .dectxt s = .next w → w.status.errcode = 0#4 →
    ∃ t u : State, exec .h2b s = .next t ∧ exec .dececb t = .next u ∧ exec .b2t u = .next w

/-- 45_pipeline.md section 4 (R188): after a successful ENCTXT, HLEN = 16 · ceil8(TLEN), a multiple of 16, and 0 for
TLEN = 0. -/
def Obligations.CiphertextLength : Prop :=
  ∀ s t : State, exec .enctxt s = .next t → t.status.errcode = 0#4 →
    t.hlen.toNat = 16 * ((s.tlen.toNat + 7) / 8) ∧ t.hlen.toNat % 16 = 0 ∧ (s.tlen = 0#32 → t.hlen = 0#32)

/-- 45_pipeline.md section 4 (R189, the spec's inference from R186 and R187): ENCTXT, then the hex moved unchanged to
a unit with the same KEY and ROUNDS, then DECTXT, gives the text back exactly when it meets the conditions of R165. The
receiving unit is any whose HEX holds the hex and whose STRICT, if set, meets no byte ≥ 0x80 in the text: on any other
DECTXT fails with RANGE or ENCLOSS. -/
def Obligations.TextRoundTrip : Prop :=
  ∀ s : State, s.tlen.toNat ≤ s.cfg.txtCap →
    (s.ctrl.strict = true → ∀ b < s.tlen.toNat, (s.txt b).toNat < 0x80) →
    ∃ t : State, exec .enctxt s = .next t ∧
      ∀ v : State, v.key = s.key → v.rounds = s.rounds → v.hlen = t.hlen → v.hlen.toNat ≤ v.cfg.hexCap →
        (v.ctrl.strict = true → ∀ b < s.tlen.toNat, (s.txt b).toNat < 0x80) →
        (∀ b < t.hlen.toNat, v.hex b = t.hex b) →
        ∃ u : State, exec .dectxt v = .next u ∧ u.status.errcode = 0#4 ∧
          (u.textBytes = s.textBytes ↔ roundTrips s.textBytes)

/-! ## Outcomes -/

/-- 60_exceptions.md R213: a command that completes with an outcome other than OK has changed nothing but STATUS and
ERRINFO. -/
def Obligations.FailureChangesNothing : Prop :=
  ∀ (i : Instr) (s t : State), exec i s = .next t → t.status.errcode ≠ 0#4 →
    t = failed s t.status.errcode t.errinfo

/-- 10_state.md sections 2 and 4: no command writes KEY, ROUNDS, ARG0, ARG1, BIN, CTRL or CMD, or clears ERR, WIGN or
LOSSY; a command that completes with OK leaves ERRINFO, ERR and WIGN unchanged (60_exceptions.md section 1, R211). -/
def Obligations.CommandsKeepInputRegisters : Prop :=
  ∀ (i : Instr) (s t : State), exec i s = .next t →
    (t.key = s.key ∧ t.rounds = s.rounds ∧ t.arg0 = s.arg0 ∧ t.arg1 = s.arg1 ∧ t.bin = s.bin ∧ t.ctrl = s.ctrl ∧
      t.cmd = s.cmd) ∧
    (s.status.err = true → t.status.err = true) ∧ t.status.wign = s.status.wign ∧
    (s.status.lossy = true → t.status.lossy = true) ∧
    (t.status.errcode = 0#4 → t.errinfo = s.errinfo ∧ t.status.err = s.status.err)

/-- 10_state.md section 8 (R44) and 60_exceptions.md section 2 (R220): IRQ is IE and DONE in every state. Every
completion, successful or not, of a command or of an illegal word, leaves BUSY 0 and DONE 1, so that IRQ is IE. IRQ is
cleared by a write of STATUS with bit 1 set, by an accepted issue and by reset; a write of STATUS without that bit leaves
it as it was, and a write of IE enables or masks it at once. -/
def Obligations.CompletionRaisesIrq : Prop :=
  (∀ s : State, s.irq = true ↔ s.ctrl.ie = true ∧ s.status.done = true) ∧
  (∀ (i : Instr) (s t : State), exec i s = .next t →
    t.status.busy = false ∧ t.status.done = true ∧ t.irq = s.ctrl.ie) ∧
  (∀ (s t : State) (r : List Turn), s.status.busy = true → s.schedule = .engine :: r → step s = .next t →
    t.status.busy = false ∧ t.status.done = true ∧ t.irq = s.ctrl.ie) ∧
  (∀ (s : State) (v : Word),
    (s.hostAccess (.write 0x0008#16 .word v)).irq = (s.irq && !v.getLsbD 1) ∧
    (s.status.busy = false → (s.hostAccess (.write 0x000C#16 .word v)).irq = false) ∧
    (s.hostAccess (.write 0x0004#16 .word v)).irq = (v.getLsbD 0 && s.status.done)) ∧
  (∀ (s t : State) (r : List Turn), s.schedule = .reset :: r → step s = .next t → t.irq = false)

/-- 10_state.md section 5 (R38) and 43_feistel.md R147: no result depends on RK. From states that differ in RK alone,
every command gives states that differ in RK alone, and a command that writes round key i writes the same one. -/
def Obligations.ResultsIgnoreRoundKeyFile : Prop :=
  ∀ (i : Instr) (s t t' : State) (rk : Vector Word 64),
    exec i s = .next t → exec i { s with rk := rk } = .next t' →
    t' = { t with rk := t'.rk } ∧
    ∀ j (h : j < 64), t'.rk[j] = t.rk[j] ∨ (t'.rk[j] = rk[j] ∧ t.rk[j] = s.rk[j])

/-- 20_memory.md section 2 (R66): the inputs of a command cannot change between its acceptance and its completion.
Whatever the host accesses while the command runs, its completion gives the same state but for the interrupt enable,
the sticky bits, and the model's record of the accesses themselves: bus, the last answer (log entry 7), and busyReads,
the count of reads answered with a free value (log entry 6). -/
def Obligations.InputsFrozenWhileBusy : Prop :=
  ∀ (i : Instr) (as : List Access) (s t t' : State), s.status.busy = true →
    exec i s = .next t → exec i (as.foldl State.hostAccess s) = .next t' →
    t' = { t with
      ctrl := { t.ctrl with ie := t'.ctrl.ie },
      status := { t.status with
        err := t'.status.err, wign := t'.status.wign, lossy := t'.status.lossy },
      bus := t'.bus, busyReads := t'.busyReads }

/-! ## Host accesses -/

/-- 20_memory.md R62: a misaligned or narrow access gets a bus error and changes no state of the unit. (The response
is recorded in the model's own field: log entry 8.) -/
def Obligations.RefusedAccessChangesNothing : Prop :=
  ∀ (s : State) (off : Offset) (width : AccessWidth) (v : Word), width ≠ .word ∨ off.toNat % 4 ≠ 0 →
    s.hostAccess (.read off width) = { s with bus := .busError } ∧
    s.hostAccess (.write off width v) = { s with bus := .busError }

/-- 20_memory.md section 2 (R66): while busy, a write to any aligned offset but CTRL and STATUS is ignored and sets
WIGN. -/
def Obligations.WriteWhileBusyIgnored : Prop :=
  ∀ (s : State) (off : Offset) (v : Word), s.status.busy = true → off.toNat % 4 = 0 →
    off ≠ 0x0004#16 → off ≠ 0x0008#16 →
    s.hostAccess (.write off .word v) =
      { s with status := { s.status with wign := true }, bus := .writeAck }

/-- 10_state.md R33 and R34: the places of the bits of STATUS and CTRL, reserved bits reading 0; writes of STATUS
clear DONE, ERR, WIGN and LOSSY by ones, busy or not; writes of CTRL set IE, and STRICT only while idle. -/
def Obligations.StatusAndControlWrites : Prop :=
  (∀ t : Status, t.toWord.getLsbD 0 = t.busy ∧ t.toWord.getLsbD 1 = t.done ∧ t.toWord.getLsbD 2 = t.err ∧
    t.toWord.getLsbD 3 = t.wign ∧ t.toWord.getLsbD 4 = t.lossy ∧ t.toWord.extractLsb' 5 3 = 0#3 ∧
    t.toWord.extractLsb' 8 4 = t.errcode ∧ t.toWord.extractLsb' 12 20 = 0#20) ∧
  (∀ c : Ctrl, c.toWord.getLsbD 0 = c.ie ∧ c.toWord.getLsbD 1 = c.strict ∧ c.toWord.extractLsb' 2 30 = 0#30) ∧
  ∀ (s : State) (v : Word),
    s.hostAccess (.write 0x0008#16 .word v) =
      { s with
        status := { s.status with
          done := s.status.done && !v.getLsbD 1, err := s.status.err && !v.getLsbD 2,
          wign := s.status.wign && !v.getLsbD 3, lossy := s.status.lossy && !v.getLsbD 4 },
        bus := .writeAck } ∧
    (s.status.busy = false → s.hostAccess (.write 0x0004#16 .word v) =
      { s with ctrl := { ie := v.getLsbD 0, strict := v.getLsbD 1 }, bus := .writeAck }) ∧
    (s.status.busy = true → s.hostAccess (.write 0x0004#16 .word v) =
      { s with ctrl := { ie := v.getLsbD 0, strict := s.ctrl.strict }, bus := .writeAck })

/-- 10_state.md section 2 (R23): while idle, a write of ROUNDS takes 1 to 64 and ignores any other value with WIGN. -/
def Obligations.RoundsWriteTakesLegalValues : Prop :=
  ∀ (s : State) (v : Word), s.status.busy = false →
    (1 ≤ v.toNat ∧ v.toNat ≤ 64 → ∃ t : State, s.hostAccess (.write 0x0014#16 .word v) = t ∧
      t = { s with rounds := t.rounds, bus := .writeAck } ∧ t.rounds.toNat = v.toNat) ∧
    (¬ (1 ≤ v.toNat ∧ v.toNat ≤ 64) → s.hostAccess (.write 0x0014#16 .word v) =
      { s with status := { s.status with wign := true }, bus := .writeAck })

/-- 10_state.md section 2 and 20_memory.md section 2 (R67): while idle, writes of the read-write data registers, and
of the read-only registers, RK[0..63] among them. -/
def Obligations.IdleRegisterWrites : Prop :=
  ∀ (s : State) (v : Word), s.status.busy = false →
    s.hostAccess (.write 0x0018#16 .word v) =
      { s with key := v ++ s.key.extractLsb' 0 32, bus := .writeAck } ∧
    s.hostAccess (.write 0x001C#16 .word v) =
      { s with key := s.key.extractLsb' 32 32 ++ v, bus := .writeAck } ∧
    s.hostAccess (.write 0x0020#16 .word v) = { s with arg0 := v, bus := .writeAck } ∧
    s.hostAccess (.write 0x0024#16 .word v) = { s with arg1 := v, bus := .writeAck } ∧
    s.hostAccess (.write 0x002C#16 .word v) =
      { s with bin := v ++ s.bin.extractLsb' 0 32, bus := .writeAck } ∧
    s.hostAccess (.write 0x0030#16 .word v) =
      { s with bin := s.bin.extractLsb' 32 32 ++ v, bus := .writeAck } ∧
    s.hostAccess (.write 0x003C#16 .word v) = { s with tlen := v, bus := .writeAck } ∧
    s.hostAccess (.write 0x0040#16 .word v) = { s with nblk := v, bus := .writeAck } ∧
    s.hostAccess (.write 0x0044#16 .word v) = { s with hlen := v, bus := .writeAck } ∧
    (∀ off ∈ [0x0000#16, 0x0010#16, 0x0028#16, 0x0034#16, 0x0038#16],
      s.hostAccess (.write off .word v) =
        { s with status := { s.status with wign := true }, bus := .writeAck }) ∧
    ∀ i < 64, s.hostAccess (.write (BitVec.ofNat 16 (0x0100 + 4 * i)) .word v) =
      { s with status := { s.status with wign := true }, bus := .writeAck }

/-- 20_memory.md section 2 (R63): reads have no side effect on the unit, and while idle they return the registers. -/
def Obligations.ReadsReturnRegisters : Prop :=
  (∀ (s : State) (off : Offset) (width : AccessWidth), ∃ t : State, s.hostAccess (.read off width) = t ∧
    t = { s with bus := t.bus, busyReads := t.busyReads }) ∧
  (∀ s : State, s.status.busy = false →
    ∀ p ∈ [(0x0000#16, 0x53454731#32), (0x0004#16, s.ctrl.toWord), (0x0008#16, s.status.toWord),
      (0x000C#16, s.cmd), (0x0010#16, s.errinfo),
      (0x0014#16, BitVec.ofNat 32 s.rounds.toNat), (0x0018#16, s.key.extractLsb' 32 32),
      (0x001C#16, s.key.extractLsb' 0 32), (0x0020#16, s.arg0), (0x0024#16, s.arg1), (0x0028#16, s.res),
      (0x002C#16, s.bin.extractLsb' 32 32), (0x0030#16, s.bin.extractLsb' 0 32),
      (0x0034#16, s.bout.extractLsb' 32 32), (0x0038#16, s.bout.extractLsb' 0 32), (0x003C#16, s.tlen),
      (0x0040#16, s.nblk), (0x0044#16, s.hlen)],
      s.hostAccess (.read p.1 .word) = { s with bus := .readData p.2 }) ∧
  (∀ (s : State) (i : Fin 64), s.status.busy = false →
    s.hostAccess (.read (BitVec.ofNat 16 (0x0100 + 4 * i.val)) .word) = { s with bus := .readData s.rk[i] })

/-- 20_memory.md section 2 (R64, R65): reserved offsets read 0, and while idle a write there is ignored and sets WIGN.
That a reserved part of a buffer's window also reads 0 while busy is the model's reading (log entry 9). -/
def Obligations.ReservedOffsetsReadZero : Prop :=
  ∀ (s : State) (off : Offset) (v : Word), off.toNat % 4 = 0 →
    ((0x0048 ≤ off.toNat ∧ off.toNat < 0x0100) ∨ (0x0200 ≤ off.toNat ∧ off.toNat < 0x1000) ∨
      (0x1000 + s.cfg.txtCap ≤ off.toNat ∧ off.toNat < 0x2000) ∨
      (0x2000 + 8 * s.cfg.blkCap ≤ off.toNat ∧ off.toNat < 0x4000) ∨ 0x4000 + s.cfg.hexCap ≤ off.toNat) →
    s.hostAccess (.read off .word) = { s with bus := .readData 0#32 } ∧
    s.hostAccess (.write off .word v) =
      { s with status := { s.status with wign := true }, bus := .writeAck }

/-- 20_memory.md R69, R70, R71: while idle, a write of a word of the TXT, HEX or BLK window stores its bytes, the byte
of lowest index from bits [31:24], and changes no other byte; a read returns the word. -/
def Obligations.BufferWordsBigEndian : Prop :=
  ∀ (s : State) (v : Word) (w : Nat), s.status.busy = false →
    (4 * w < s.cfg.txtCap →
      (∃ t : State, s.hostAccess (.write (BitVec.ofNat 16 (0x1000 + 4 * w)) .word v) = t ∧
        t = { s with mem := t.mem, bus := .writeAck } ∧
        t.txt (4 * w) = v.extractLsb' 24 8 ∧ t.txt (4 * w + 1) = v.extractLsb' 16 8 ∧
        t.txt (4 * w + 2) = v.extractLsb' 8 8 ∧ t.txt (4 * w + 3) = v.extractLsb' 0 8 ∧
        ∀ a, ¬ (0x1000 + 4 * w ≤ a ∧ a < 0x1000 + 4 * w + 4) → t.bufByte a = s.bufByte a) ∧
      s.hostAccess (.read (BitVec.ofNat 16 (0x1000 + 4 * w)) .word) =
        { s with
          bus := .readData (s.txt (4 * w) ++ s.txt (4 * w + 1) ++ s.txt (4 * w + 2) ++ s.txt (4 * w + 3)) }) ∧
    (4 * w < s.cfg.hexCap →
      (∃ t : State, s.hostAccess (.write (BitVec.ofNat 16 (0x4000 + 4 * w)) .word v) = t ∧
        t = { s with mem := t.mem, bus := .writeAck } ∧
        t.hex (4 * w) = v.extractLsb' 24 8 ∧ t.hex (4 * w + 1) = v.extractLsb' 16 8 ∧
        t.hex (4 * w + 2) = v.extractLsb' 8 8 ∧ t.hex (4 * w + 3) = v.extractLsb' 0 8 ∧
        ∀ a, ¬ (0x4000 + 4 * w ≤ a ∧ a < 0x4000 + 4 * w + 4) → t.bufByte a = s.bufByte a) ∧
      s.hostAccess (.read (BitVec.ofNat 16 (0x4000 + 4 * w)) .word) =
        { s with
          bus := .readData (s.hex (4 * w) ++ s.hex (4 * w + 1) ++ s.hex (4 * w + 2) ++ s.hex (4 * w + 3)) }) ∧
    (w < s.cfg.blkCap →
      (∃ t : State, s.hostAccess (.write (BitVec.ofNat 16 (0x2000 + 8 * w)) .word v) = t ∧
        t = { s with mem := t.mem, bus := .writeAck } ∧ t.blk w = v ++ (s.blk w).extractLsb' 0 32 ∧
        ∀ a, ¬ (0x2000 + 8 * w ≤ a ∧ a < 0x2000 + 8 * w + 4) → t.bufByte a = s.bufByte a) ∧
      (∃ t : State, s.hostAccess (.write (BitVec.ofNat 16 (0x2000 + 8 * w + 4)) .word v) = t ∧
        t = { s with mem := t.mem, bus := .writeAck } ∧ t.blk w = (s.blk w).extractLsb' 32 32 ++ v ∧
        ∀ a, ¬ (0x2000 + 8 * w + 4 ≤ a ∧ a < 0x2000 + 8 * w + 8) → t.bufByte a = s.bufByte a) ∧
      s.hostAccess (.read (BitVec.ofNat 16 (0x2000 + 8 * w)) .word) =
        { s with bus := .readData ((s.blk w).extractLsb' 32 32) } ∧
      s.hostAccess (.read (BitVec.ofNat 16 (0x2000 + 8 * w + 4)) .word) =
        { s with bus := .readData ((s.blk w).extractLsb' 0 32) })

/-- 20_memory.md section 2 (R68; log entries 6 and 9): while busy, reads of what a command may write return the next
free value, and reads of the other registers return their values. -/
def Obligations.BusyReadsAreFree : Prop :=
  ∀ s : State, s.status.busy = true →
    (∀ off : Offset, off.toNat % 4 = 0 →
      (off ∈ [0x0028#16, 0x0034#16, 0x0038#16, 0x003C#16, 0x0040#16, 0x0044#16] ∨
        (0x0100 ≤ off.toNat ∧ off.toNat < 0x0200) ∨
        (0x1000 ≤ off.toNat ∧ off.toNat < 0x1000 + s.cfg.txtCap) ∨
        (0x2000 ≤ off.toNat ∧ off.toNat < 0x2000 + 8 * s.cfg.blkCap) ∨
        (0x4000 ≤ off.toNat ∧ off.toNat < 0x4000 + s.cfg.hexCap)) →
      s.hostAccess (.read off .word) =
        { s with bus := .readData (Config.busyReadWord s.busyReads), busyReads := s.busyReads + 1 }) ∧
    (∀ p ∈ [(0x0000#16, 0x53454731#32), (0x0004#16, s.ctrl.toWord), (0x0008#16, s.status.toWord),
        (0x000C#16, s.cmd), (0x0010#16, s.errinfo), (0x0014#16, BitVec.ofNat 32 s.rounds.toNat),
        (0x0018#16, s.key.extractLsb' 32 32), (0x001C#16, s.key.extractLsb' 0 32), (0x0020#16, s.arg0),
        (0x0024#16, s.arg1), (0x002C#16, s.bin.extractLsb' 32 32), (0x0030#16, s.bin.extractLsb' 0 32)],
      s.hostAccess (.read p.1 .word) = { s with bus := .readData p.2 })

/-! ## Scripts -/

/-- 30_encoding.md section 5 (R99): `wait` ends. With d more polls granted to the engine it takes at most d + 3 steps,
and then BUSY is 0 and the last value read is STATUS. (The bound is the model's choice of LATENCY: log entry 2.) -/
def Obligations.WaitEnds : Prop :=
  ∀ (d : Nat) (s : State) (r : List Turn), s.schedule = .poll d :: r →
    ∃ n ≤ d + 3, ∃ t : State, core.run n s = .next t ∧ t.schedule = r ∧ t.status.busy = false ∧
      t.bus = .readData t.status.toWord

/-- 30_encoding.md section 5 (R100): on an idle unit the accesses of `puttxt "s"` leave s as the text operand and
change nothing else: no other register, and no byte of the buffers but those of the words of `TXT` that hold s, whose
bytes beyond s become 0x00. (The schedule and the answer of the last write are the model's own fields: log entries 1 and
7.) -/
def Obligations.PuttxtLeavesText : Prop :=
  ∀ (s : State) (text : List Byte), s.status.busy = false → s.schedule = scheduleOf (encodeScript [.puttxt text]) [] →
    text.length ≤ s.cfg.txtCap →
    ∃ t : State, core.run s.schedule.length s = .next t ∧ t.textBytes = text ∧
      t = { s with
        mem := t.mem, tlen := BitVec.ofNat 32 text.length, schedule := [], bus := .writeAck } ∧
      (∀ b, text.length ≤ b → b < 4 * ((text.length + 3) / 4) → t.txt b = 0#8) ∧
      ∀ a, ¬ inText (4 * ((text.length + 3) / 4)) a → t.bufByte a = s.bufByte a
end

