-- ==== Sys2Proof/Laws/Bits.lean ====
section
/-! SUPPORT. The bit-field helpers and the concatenations undo each other. -/

namespace Sys2Proof.Machine

open Sys2Proof

@[simp] theorem highHalf_joinHalves (l r : Word) : highHalf (joinHalves l r) = l := by
  apply BitVec.eq_of_getLsbD_eq
  intro i hi
  have : ¬ (32 + i < 32) := by omega
  simp only [highHalf, joinHalves, BitVec.getLsbD_extractLsb', BitVec.getLsbD_append]
  simp [hi, this]

@[simp] theorem lowHalf_joinHalves (l r : Word) : lowHalf (joinHalves l r) = r := by
  apply BitVec.eq_of_getLsbD_eq
  intro i hi
  simp only [lowHalf, joinHalves, BitVec.getLsbD_extractLsb', BitVec.getLsbD_append]
  simp [hi]

@[simp] theorem joinHalves_halves (b : Block) : joinHalves (highHalf b) (lowHalf b) = b := by
  apply BitVec.eq_of_getLsbD_eq
  intro i hi
  simp only [highHalf, lowHalf, joinHalves, BitVec.getLsbD_extractLsb', BitVec.getLsbD_append]
  split
  · simp [*]
  · have : 32 + (i - 32) = i := by omega
    have h2 : i - 32 < 32 := by omega
    simp [this, h2]

theorem blockByte_joinBlock (f : Nat → Byte) (p : Nat) (hp : p < 8) : blockByte (joinBlock f) p = f p := by
  apply BitVec.eq_of_getLsbD_eq
  intro i hi
  simp only [blockByte, joinBlock, BitVec.getLsbD_extractLsb', BitVec.getLsbD_append]
  interval_cases p <;> interval_cases i <;> rfl

@[simp] theorem joinBlock_blockByte (b : Block) : (joinBlock fun p => blockByte b p) = b := by
  apply BitVec.eq_of_getLsbD_eq
  intro i hi
  simp only [blockByte, joinBlock, BitVec.getLsbD_extractLsb', BitVec.getLsbD_append]
  interval_cases i <;> rfl

theorem blockNibble_joinNibbles (f : Nat → Nibble) (d : Nat) (hd : d < 16) :
    blockNibble (joinNibbles f) d = f d := by
  apply BitVec.eq_of_getLsbD_eq
  intro i hi
  simp only [blockNibble, joinNibbles, BitVec.getLsbD_extractLsb', BitVec.getLsbD_append]
  interval_cases d <;> interval_cases i <;> rfl

@[simp] theorem joinNibbles_blockNibble (b : Block) : (joinNibbles fun d => blockNibble b d) = b := by
  apply BitVec.eq_of_getLsbD_eq
  intro i hi
  simp only [blockNibble, joinNibbles, BitVec.getLsbD_extractLsb', BitVec.getLsbD_append]
  interval_cases i <;> rfl

theorem wordByte_joinWord (f : Nat → Byte) (p : Nat) (hp : p < 4) : wordByte (joinWord f) p = f p := by
  apply BitVec.eq_of_getLsbD_eq
  intro i hi
  simp only [wordByte, joinWord, BitVec.getLsbD_extractLsb', BitVec.getLsbD_append]
  interval_cases p <;> interval_cases i <;> rfl

@[simp] theorem joinWord_wordByte (v : Word) : (joinWord fun p => wordByte v p) = v := by
  apply BitVec.eq_of_getLsbD_eq
  intro i hi
  simp only [wordByte, joinWord, BitVec.getLsbD_extractLsb', BitVec.getLsbD_append]
  interval_cases i <;> rfl

theorem joinBlock_congr {f g : Nat → Byte} (h : ∀ p < 8, f p = g p) : joinBlock f = joinBlock g := by
  simp [joinBlock, h]

theorem joinNibbles_congr {f g : Nat → Nibble} (h : ∀ d < 16, f d = g d) : joinNibbles f = joinNibbles g := by
  simp [joinNibbles, h]

theorem joinWord_congr {f g : Nat → Byte} (h : ∀ p < 4, f p = g p) : joinWord f = joinWord g := by
  simp [joinWord, h]

@[simp] theorem length_blockBytes (b : Block) : (blockBytes b).length = 8 := by simp [blockBytes]

@[simp] theorem length_wordBytes (v : Word) : (wordBytes v).length = 4 := by simp [wordBytes]

theorem getElem?_blockBytes (b : Block) (p : Nat) (hp : p < 8) : (blockBytes b)[p]? = some (blockByte b p) := by
  simp [blockBytes, hp]

theorem getElem?_wordBytes (v : Word) (p : Nat) (hp : p < 4) : (wordBytes v)[p]? = some (wordByte v p) := by
  simp [wordBytes, hp]

@[simp] theorem length_flatMap_blockBytes (bs : List Block) : (bs.flatMap blockBytes).length = 8 * bs.length := by
  induction bs with
  | nil => rfl
  | cons b bs ih => simp [ih]; omega

/-- Byte p of block j of a list of blocks stands at index 8j + p of its bytes. -/
theorem getElem?_flatMap_blockBytes (bs : List Block) (j p : Nat) (hp : p < 8) :
    (bs.flatMap blockBytes)[8 * j + p]? = bs[j]?.map fun b => blockByte b p := by
  induction bs generalizing j with
  | nil => simp
  | cons b bs ih =>
    cases j with
    | zero => simp [List.getElem?_append, hp, blockBytes]
    | succ j =>
      have h1 : ¬ (8 * (j + 1) + p < 8) := by omega
      have h2 : 8 * (j + 1) + p - 8 = 8 * j + p := by omega
      simp [List.getElem?_append, h1, h2, ih]

end Sys2Proof.Machine
end

