-- ==== Sys2Proof/Laws/Memory.lean ====
section
/-! SUPPORT. The laws of the buffer memory: reads after writes, and the canonical form. -/

namespace Sys2Proof.Machine

open Sys2Proof

namespace Memory

@[simp] theorem read_write_same (m : Memory) (a : Nat) (b : Byte) : (m.write a b).read a = some b := by
  induction m with
  | nil => simp [write, read]
  | cons c m ih =>
    simp only [write]
    split
    · simp [read]
    · split
      · simp [read]
      · rename_i h1 h2
        simp [read, h2, ih]

theorem read_of_lt_all (m : Memory) (a : Nat) (h : ∀ c ∈ m, a < c.1) : m.read a = none := by
  induction m with
  | nil => rfl
  | cons c m ih =>
    have h1 := h c (by simp)
    have h2 : a ≠ c.1 := by omega
    simp only [read, h2, if_false]
    exact ih fun c hc => h c (by simp [hc])

theorem read_write_other (m : Memory) (a a' : Nat) (b : Byte) (hne : a' ≠ a) :
    (m.write a b).read a' = m.read a' := by
  induction m with
  | nil => simp [write, read, hne]
  | cons c m ih =>
    simp only [write]
    split
    · simp [read, hne]
    · split
      · rename_i h1 h2
        subst h2
        simp [read, hne]
      · simp [read, ih]

theorem mem_write (m : Memory) (a : Nat) (b : Byte) (c : Host.Cell) (h : c ∈ m.write a b) : c = (a, b) ∨ c ∈ m := by
  induction m with
  | nil => simpa [write] using h
  | cons d m ih =>
    simp only [write] at h
    split at h
    · simpa using h
    · split at h
      · rcases List.mem_cons.1 h with h | h
        · exact .inl h
        · exact .inr (List.mem_cons_of_mem _ h)
      · rcases List.mem_cons.1 h with h | h
        · exact .inr (by simp [h])
        · exact (ih h).imp id (List.mem_cons_of_mem _)

theorem write_wf (m : Memory) (a : Nat) (b : Byte) (h : m.wf) : (m.write a b).wf := by
  induction m with
  | nil => simp [write]
  | cons d m ih =>
    obtain ⟨hd, hm⟩ := List.pairwise_cons.1 h
    simp only [write]
    split
    · rename_i hlt
      refine List.pairwise_cons.2 ⟨fun c hc => ?_, h⟩
      rcases List.mem_cons.1 hc with rfl | hc
      · exact hlt
      · exact Nat.lt_trans hlt (hd c hc)
    · split
      · rename_i _ heq
        exact List.pairwise_cons.2 ⟨fun c hc => heq ▸ hd c hc, hm⟩
      · rename_i h1 h2
        refine List.pairwise_cons.2 ⟨fun c hc => ?_, ih hm⟩
        rcases mem_write m a b c hc with rfl | hc
        · simp only; omega
        · exact hd c hc

theorem writeBytes_wf (m : Memory) (a : Nat) (bs : List Byte) (h : m.wf) : (m.writeBytes a bs).wf := by
  induction bs generalizing m a with
  | nil => exact h
  | cons b bs ih => exact ih _ _ (write_wf m a b h)

/-- Every cell of a memory after a write of consecutive bytes is one of them or stood there before. -/
theorem mem_writeBytes (m : Memory) (a : Nat) (bs : List Byte) (c : Host.Cell) (h : c ∈ m.writeBytes a bs) :
    (a ≤ c.1 ∧ c.1 < a + bs.length) ∨ c ∈ m := by
  induction bs generalizing m a with
  | nil => exact .inr h
  | cons b bs ih =>
    rcases ih _ _ h with h | h
    · exact .inl ⟨by omega, by simp only [List.length_cons]; omega⟩
    · rcases mem_write m a b c h with rfl | h
      · exact .inl ⟨le_refl _, by simp⟩
      · exact .inr h

theorem read_writeBytes_outside (m : Memory) (a : Nat) (bs : List Byte) (x : Nat)
    (h : x < a ∨ a + bs.length ≤ x) : (m.writeBytes a bs).read x = m.read x := by
  induction bs generalizing m a with
  | nil => rfl
  | cons b bs ih =>
    simp only [List.length_cons] at h
    rw [writeBytes, ih _ _ (by omega), read_write_other _ _ _ _ (by omega)]

theorem read_writeBytes_inside (m : Memory) (a : Nat) (bs : List Byte) (i : Nat) (h : i < bs.length) :
    (m.writeBytes a bs).read (a + i) = some bs[i] := by
  induction bs generalizing m a i with
  | nil => exact absurd h (by simp)
  | cons b bs ih =>
    cases i with
    | zero => rw [writeBytes, Nat.add_zero, read_writeBytes_outside _ _ _ _ (by omega)]; simp
    | succ i =>
      have := ih (m.write a b) (a + 1) i (by simpa using h)
      rw [writeBytes, show a + (i + 1) = a + 1 + i by omega, this]
      simp

/-- Two memories in canonical form that read alike are equal. -/
theorem ext_of_wf (m m' : Memory) (h : m.wf) (h' : m'.wf) (hr : ∀ a, m.read a = m'.read a) : m = m' := by
  induction m generalizing m' with
  | nil =>
    cases m' with
    | nil => rfl
    | cons c m' => simpa [read, unlisted] using hr c.1
  | cons c m ih =>
    cases m' with
    | nil => simpa [read, unlisted] using hr c.1
    | cons d m' =>
      obtain ⟨hc, hm⟩ := List.pairwise_cons.1 h
      obtain ⟨hd, hm'⟩ := List.pairwise_cons.1 h'
      have key : c.1 = d.1 := by
        rcases Nat.lt_trichotomy c.1 d.1 with hlt | heq | hgt
        · have h0 := hr c.1
          have : Memory.read (d :: m') c.1 = none :=
            read_of_lt_all _ _ fun x hx => by
              rcases List.mem_cons.1 hx with rfl | hx
              · exact hlt
              · exact Nat.lt_trans hlt (hd x hx)
          rw [this] at h0
          simp [read] at h0
        · exact heq
        · have h0 := hr d.1
          have : Memory.read (c :: m) d.1 = none :=
            read_of_lt_all _ _ fun x hx => by
              rcases List.mem_cons.1 hx with rfl | hx
              · exact hgt
              · exact Nat.lt_trans hgt (hc x hx)
          rw [this] at h0
          simp [read] at h0
      have val : c.2 = d.2 := by
        have h0 := hr c.1
        simp only [read, if_true, key, Option.some.injEq] at h0
        exact h0
      have tail : m = m' := by
        refine ih m' hm hm' fun a => ?_
        by_cases ha : a = c.1
        · rw [read_of_lt_all m a fun x hx => ha ▸ hc x hx,
            read_of_lt_all m' a fun x hx => by rw [ha, key]; exact hd x hx]
        · have h0 := hr a
          have ha' : a ≠ d.1 := by omega
          simpa [read, ha, ha'] using h0
      rw [tail, show c = d from Prod.ext key val]

/-- A later write of at least as many bytes at the same place overwrites an earlier one. -/
theorem writeBytes_writeBytes (m : Memory) (a : Nat) (xs ys : List Byte) (h : m.wf) (hlen : xs.length = ys.length) :
    (m.writeBytes a xs).writeBytes a ys = m.writeBytes a ys := by
  refine ext_of_wf _ _ (writeBytes_wf _ _ _ (writeBytes_wf _ _ _ h)) (writeBytes_wf _ _ _ h) fun x => ?_
  by_cases hx : x < a ∨ a + ys.length ≤ x
  · rw [read_writeBytes_outside _ _ _ _ hx, read_writeBytes_outside _ _ _ _ hx,
      read_writeBytes_outside _ _ _ _ (by omega)]
  · obtain ⟨i, rfl⟩ : ∃ i, x = a + i := ⟨x - a, by omega⟩
    rw [read_writeBytes_inside _ _ _ _ (by omega), read_writeBytes_inside _ _ _ _ (by omega)]

end Memory

/-! The buffer bytes of a state. -/

theorem bufByte_of_read (s t : State) (a : Nat) (hr : t.mem.read a = s.mem.read a) (hn : t.resets = s.resets) :
    t.bufByte a = s.bufByte a := by
  simp [State.bufByte, hr, hn]

end Sys2Proof.Machine
end

