-- ==== Sys2Proof/Laws/State.lean ====
section
/-! SUPPORT. One lemma per field and update of State, so that no later proof unfolds an update. -/

namespace Sys2Proof.Machine

open Sys2Proof

variable (s : State)

/-! `State.storeWord` -/

@[simp] theorem State.storeWord_key (off : Nat) (v : Word) : (s.storeWord off v).key = s.key := rfl
@[simp] theorem State.storeWord_rounds (off : Nat) (v : Word) : (s.storeWord off v).rounds = s.rounds := rfl
@[simp] theorem State.storeWord_arg0 (off : Nat) (v : Word) : (s.storeWord off v).arg0 = s.arg0 := rfl
@[simp] theorem State.storeWord_arg1 (off : Nat) (v : Word) : (s.storeWord off v).arg1 = s.arg1 := rfl
@[simp] theorem State.storeWord_res (off : Nat) (v : Word) : (s.storeWord off v).res = s.res := rfl
@[simp] theorem State.storeWord_bin (off : Nat) (v : Word) : (s.storeWord off v).bin = s.bin := rfl
@[simp] theorem State.storeWord_bout (off : Nat) (v : Word) : (s.storeWord off v).bout = s.bout := rfl
@[simp] theorem State.storeWord_tlen (off : Nat) (v : Word) : (s.storeWord off v).tlen = s.tlen := rfl
@[simp] theorem State.storeWord_nblk (off : Nat) (v : Word) : (s.storeWord off v).nblk = s.nblk := rfl
@[simp] theorem State.storeWord_hlen (off : Nat) (v : Word) : (s.storeWord off v).hlen = s.hlen := rfl
@[simp] theorem State.storeWord_ctrl (off : Nat) (v : Word) : (s.storeWord off v).ctrl = s.ctrl := rfl
@[simp] theorem State.storeWord_status (off : Nat) (v : Word) : (s.storeWord off v).status = s.status := rfl
@[simp] theorem State.storeWord_errinfo (off : Nat) (v : Word) : (s.storeWord off v).errinfo = s.errinfo := rfl
@[simp] theorem State.storeWord_cmd (off : Nat) (v : Word) : (s.storeWord off v).cmd = s.cmd := rfl
@[simp] theorem State.storeWord_rk (off : Nat) (v : Word) : (s.storeWord off v).rk = s.rk := rfl
@[simp] theorem State.storeWord_mem (off : Nat) (v : Word) : (s.storeWord off v).mem = s.mem.writeBytes off (wordBytes v) := rfl
@[simp] theorem State.storeWord_cfg (off : Nat) (v : Word) : (s.storeWord off v).cfg = s.cfg := rfl
@[simp] theorem State.storeWord_schedule (off : Nat) (v : Word) : (s.storeWord off v).schedule = s.schedule := rfl
@[simp] theorem State.storeWord_bus (off : Nat) (v : Word) : (s.storeWord off v).bus = s.bus := rfl
@[simp] theorem State.storeWord_resets (off : Nat) (v : Word) : (s.storeWord off v).resets = s.resets := rfl
@[simp] theorem State.storeWord_busyReads (off : Nat) (v : Word) : (s.storeWord off v).busyReads = s.busyReads := rfl

/-! `State.storeText` -/

@[simp] theorem State.storeText_key (bs : List Byte) : (s.storeText bs).key = s.key := rfl
@[simp] theorem State.storeText_rounds (bs : List Byte) : (s.storeText bs).rounds = s.rounds := rfl
@[simp] theorem State.storeText_arg0 (bs : List Byte) : (s.storeText bs).arg0 = s.arg0 := rfl
@[simp] theorem State.storeText_arg1 (bs : List Byte) : (s.storeText bs).arg1 = s.arg1 := rfl
@[simp] theorem State.storeText_res (bs : List Byte) : (s.storeText bs).res = s.res := rfl
@[simp] theorem State.storeText_bin (bs : List Byte) : (s.storeText bs).bin = s.bin := rfl
@[simp] theorem State.storeText_bout (bs : List Byte) : (s.storeText bs).bout = s.bout := rfl
@[simp] theorem State.storeText_tlen (bs : List Byte) : (s.storeText bs).tlen = s.tlen := rfl
@[simp] theorem State.storeText_nblk (bs : List Byte) : (s.storeText bs).nblk = s.nblk := rfl
@[simp] theorem State.storeText_hlen (bs : List Byte) : (s.storeText bs).hlen = s.hlen := rfl
@[simp] theorem State.storeText_ctrl (bs : List Byte) : (s.storeText bs).ctrl = s.ctrl := rfl
@[simp] theorem State.storeText_status (bs : List Byte) : (s.storeText bs).status = s.status := rfl
@[simp] theorem State.storeText_errinfo (bs : List Byte) : (s.storeText bs).errinfo = s.errinfo := rfl
@[simp] theorem State.storeText_cmd (bs : List Byte) : (s.storeText bs).cmd = s.cmd := rfl
@[simp] theorem State.storeText_rk (bs : List Byte) : (s.storeText bs).rk = s.rk := rfl
@[simp] theorem State.storeText_mem (bs : List Byte) : (s.storeText bs).mem = s.mem.writeBytes txtBase bs := rfl
@[simp] theorem State.storeText_cfg (bs : List Byte) : (s.storeText bs).cfg = s.cfg := rfl
@[simp] theorem State.storeText_schedule (bs : List Byte) : (s.storeText bs).schedule = s.schedule := rfl
@[simp] theorem State.storeText_bus (bs : List Byte) : (s.storeText bs).bus = s.bus := rfl
@[simp] theorem State.storeText_resets (bs : List Byte) : (s.storeText bs).resets = s.resets := rfl
@[simp] theorem State.storeText_busyReads (bs : List Byte) : (s.storeText bs).busyReads = s.busyReads := rfl

/-! `State.storeHex` -/

@[simp] theorem State.storeHex_key (bs : List Byte) : (s.storeHex bs).key = s.key := rfl
@[simp] theorem State.storeHex_rounds (bs : List Byte) : (s.storeHex bs).rounds = s.rounds := rfl
@[simp] theorem State.storeHex_arg0 (bs : List Byte) : (s.storeHex bs).arg0 = s.arg0 := rfl
@[simp] theorem State.storeHex_arg1 (bs : List Byte) : (s.storeHex bs).arg1 = s.arg1 := rfl
@[simp] theorem State.storeHex_res (bs : List Byte) : (s.storeHex bs).res = s.res := rfl
@[simp] theorem State.storeHex_bin (bs : List Byte) : (s.storeHex bs).bin = s.bin := rfl
@[simp] theorem State.storeHex_bout (bs : List Byte) : (s.storeHex bs).bout = s.bout := rfl
@[simp] theorem State.storeHex_tlen (bs : List Byte) : (s.storeHex bs).tlen = s.tlen := rfl
@[simp] theorem State.storeHex_nblk (bs : List Byte) : (s.storeHex bs).nblk = s.nblk := rfl
@[simp] theorem State.storeHex_hlen (bs : List Byte) : (s.storeHex bs).hlen = s.hlen := rfl
@[simp] theorem State.storeHex_ctrl (bs : List Byte) : (s.storeHex bs).ctrl = s.ctrl := rfl
@[simp] theorem State.storeHex_status (bs : List Byte) : (s.storeHex bs).status = s.status := rfl
@[simp] theorem State.storeHex_errinfo (bs : List Byte) : (s.storeHex bs).errinfo = s.errinfo := rfl
@[simp] theorem State.storeHex_cmd (bs : List Byte) : (s.storeHex bs).cmd = s.cmd := rfl
@[simp] theorem State.storeHex_rk (bs : List Byte) : (s.storeHex bs).rk = s.rk := rfl
@[simp] theorem State.storeHex_mem (bs : List Byte) : (s.storeHex bs).mem = s.mem.writeBytes hexBase bs := rfl
@[simp] theorem State.storeHex_cfg (bs : List Byte) : (s.storeHex bs).cfg = s.cfg := rfl
@[simp] theorem State.storeHex_schedule (bs : List Byte) : (s.storeHex bs).schedule = s.schedule := rfl
@[simp] theorem State.storeHex_bus (bs : List Byte) : (s.storeHex bs).bus = s.bus := rfl
@[simp] theorem State.storeHex_resets (bs : List Byte) : (s.storeHex bs).resets = s.resets := rfl
@[simp] theorem State.storeHex_busyReads (bs : List Byte) : (s.storeHex bs).busyReads = s.busyReads := rfl

/-! `State.storeBlocks` -/

@[simp] theorem State.storeBlocks_key (bs : List Block) : (s.storeBlocks bs).key = s.key := rfl
@[simp] theorem State.storeBlocks_rounds (bs : List Block) : (s.storeBlocks bs).rounds = s.rounds := rfl
@[simp] theorem State.storeBlocks_arg0 (bs : List Block) : (s.storeBlocks bs).arg0 = s.arg0 := rfl
@[simp] theorem State.storeBlocks_arg1 (bs : List Block) : (s.storeBlocks bs).arg1 = s.arg1 := rfl
@[simp] theorem State.storeBlocks_res (bs : List Block) : (s.storeBlocks bs).res = s.res := rfl
@[simp] theorem State.storeBlocks_bin (bs : List Block) : (s.storeBlocks bs).bin = s.bin := rfl
@[simp] theorem State.storeBlocks_bout (bs : List Block) : (s.storeBlocks bs).bout = s.bout := rfl
@[simp] theorem State.storeBlocks_tlen (bs : List Block) : (s.storeBlocks bs).tlen = s.tlen := rfl
@[simp] theorem State.storeBlocks_nblk (bs : List Block) : (s.storeBlocks bs).nblk = s.nblk := rfl
@[simp] theorem State.storeBlocks_hlen (bs : List Block) : (s.storeBlocks bs).hlen = s.hlen := rfl
@[simp] theorem State.storeBlocks_ctrl (bs : List Block) : (s.storeBlocks bs).ctrl = s.ctrl := rfl
@[simp] theorem State.storeBlocks_status (bs : List Block) : (s.storeBlocks bs).status = s.status := rfl
@[simp] theorem State.storeBlocks_errinfo (bs : List Block) : (s.storeBlocks bs).errinfo = s.errinfo := rfl
@[simp] theorem State.storeBlocks_cmd (bs : List Block) : (s.storeBlocks bs).cmd = s.cmd := rfl
@[simp] theorem State.storeBlocks_rk (bs : List Block) : (s.storeBlocks bs).rk = s.rk := rfl
@[simp] theorem State.storeBlocks_mem (bs : List Block) : (s.storeBlocks bs).mem = s.mem.writeBytes blkBase (bs.flatMap blockBytes) := rfl
@[simp] theorem State.storeBlocks_cfg (bs : List Block) : (s.storeBlocks bs).cfg = s.cfg := rfl
@[simp] theorem State.storeBlocks_schedule (bs : List Block) : (s.storeBlocks bs).schedule = s.schedule := rfl
@[simp] theorem State.storeBlocks_bus (bs : List Block) : (s.storeBlocks bs).bus = s.bus := rfl
@[simp] theorem State.storeBlocks_resets (bs : List Block) : (s.storeBlocks bs).resets = s.resets := rfl
@[simp] theorem State.storeBlocks_busyReads (bs : List Block) : (s.storeBlocks bs).busyReads = s.busyReads := rfl

/-! `State.setTlen` -/

@[simp] theorem State.setTlen_key (n : Nat) : (s.setTlen n).key = s.key := rfl
@[simp] theorem State.setTlen_rounds (n : Nat) : (s.setTlen n).rounds = s.rounds := rfl
@[simp] theorem State.setTlen_arg0 (n : Nat) : (s.setTlen n).arg0 = s.arg0 := rfl
@[simp] theorem State.setTlen_arg1 (n : Nat) : (s.setTlen n).arg1 = s.arg1 := rfl
@[simp] theorem State.setTlen_res (n : Nat) : (s.setTlen n).res = s.res := rfl
@[simp] theorem State.setTlen_bin (n : Nat) : (s.setTlen n).bin = s.bin := rfl
@[simp] theorem State.setTlen_bout (n : Nat) : (s.setTlen n).bout = s.bout := rfl
@[simp] theorem State.setTlen_tlen (n : Nat) : (s.setTlen n).tlen = BitVec.ofNat 32 n := rfl
@[simp] theorem State.setTlen_nblk (n : Nat) : (s.setTlen n).nblk = s.nblk := rfl
@[simp] theorem State.setTlen_hlen (n : Nat) : (s.setTlen n).hlen = s.hlen := rfl
@[simp] theorem State.setTlen_ctrl (n : Nat) : (s.setTlen n).ctrl = s.ctrl := rfl
@[simp] theorem State.setTlen_status (n : Nat) : (s.setTlen n).status = s.status := rfl
@[simp] theorem State.setTlen_errinfo (n : Nat) : (s.setTlen n).errinfo = s.errinfo := rfl
@[simp] theorem State.setTlen_cmd (n : Nat) : (s.setTlen n).cmd = s.cmd := rfl
@[simp] theorem State.setTlen_rk (n : Nat) : (s.setTlen n).rk = s.rk := rfl
@[simp] theorem State.setTlen_mem (n : Nat) : (s.setTlen n).mem = s.mem := rfl
@[simp] theorem State.setTlen_cfg (n : Nat) : (s.setTlen n).cfg = s.cfg := rfl
@[simp] theorem State.setTlen_schedule (n : Nat) : (s.setTlen n).schedule = s.schedule := rfl
@[simp] theorem State.setTlen_bus (n : Nat) : (s.setTlen n).bus = s.bus := rfl
@[simp] theorem State.setTlen_resets (n : Nat) : (s.setTlen n).resets = s.resets := rfl
@[simp] theorem State.setTlen_busyReads (n : Nat) : (s.setTlen n).busyReads = s.busyReads := rfl

/-! `State.setNblk` -/

@[simp] theorem State.setNblk_key (n : Nat) : (s.setNblk n).key = s.key := rfl
@[simp] theorem State.setNblk_rounds (n : Nat) : (s.setNblk n).rounds = s.rounds := rfl
@[simp] theorem State.setNblk_arg0 (n : Nat) : (s.setNblk n).arg0 = s.arg0 := rfl
@[simp] theorem State.setNblk_arg1 (n : Nat) : (s.setNblk n).arg1 = s.arg1 := rfl
@[simp] theorem State.setNblk_res (n : Nat) : (s.setNblk n).res = s.res := rfl
@[simp] theorem State.setNblk_bin (n : Nat) : (s.setNblk n).bin = s.bin := rfl
@[simp] theorem State.setNblk_bout (n : Nat) : (s.setNblk n).bout = s.bout := rfl
@[simp] theorem State.setNblk_tlen (n : Nat) : (s.setNblk n).tlen = s.tlen := rfl
@[simp] theorem State.setNblk_nblk (n : Nat) : (s.setNblk n).nblk = BitVec.ofNat 32 n := rfl
@[simp] theorem State.setNblk_hlen (n : Nat) : (s.setNblk n).hlen = s.hlen := rfl
@[simp] theorem State.setNblk_ctrl (n : Nat) : (s.setNblk n).ctrl = s.ctrl := rfl
@[simp] theorem State.setNblk_status (n : Nat) : (s.setNblk n).status = s.status := rfl
@[simp] theorem State.setNblk_errinfo (n : Nat) : (s.setNblk n).errinfo = s.errinfo := rfl
@[simp] theorem State.setNblk_cmd (n : Nat) : (s.setNblk n).cmd = s.cmd := rfl
@[simp] theorem State.setNblk_rk (n : Nat) : (s.setNblk n).rk = s.rk := rfl
@[simp] theorem State.setNblk_mem (n : Nat) : (s.setNblk n).mem = s.mem := rfl
@[simp] theorem State.setNblk_cfg (n : Nat) : (s.setNblk n).cfg = s.cfg := rfl
@[simp] theorem State.setNblk_schedule (n : Nat) : (s.setNblk n).schedule = s.schedule := rfl
@[simp] theorem State.setNblk_bus (n : Nat) : (s.setNblk n).bus = s.bus := rfl
@[simp] theorem State.setNblk_resets (n : Nat) : (s.setNblk n).resets = s.resets := rfl
@[simp] theorem State.setNblk_busyReads (n : Nat) : (s.setNblk n).busyReads = s.busyReads := rfl

/-! `State.setHlen` -/

@[simp] theorem State.setHlen_key (n : Nat) : (s.setHlen n).key = s.key := rfl
@[simp] theorem State.setHlen_rounds (n : Nat) : (s.setHlen n).rounds = s.rounds := rfl
@[simp] theorem State.setHlen_arg0 (n : Nat) : (s.setHlen n).arg0 = s.arg0 := rfl
@[simp] theorem State.setHlen_arg1 (n : Nat) : (s.setHlen n).arg1 = s.arg1 := rfl
@[simp] theorem State.setHlen_res (n : Nat) : (s.setHlen n).res = s.res := rfl
@[simp] theorem State.setHlen_bin (n : Nat) : (s.setHlen n).bin = s.bin := rfl
@[simp] theorem State.setHlen_bout (n : Nat) : (s.setHlen n).bout = s.bout := rfl
@[simp] theorem State.setHlen_tlen (n : Nat) : (s.setHlen n).tlen = s.tlen := rfl
@[simp] theorem State.setHlen_nblk (n : Nat) : (s.setHlen n).nblk = s.nblk := rfl
@[simp] theorem State.setHlen_hlen (n : Nat) : (s.setHlen n).hlen = BitVec.ofNat 32 n := rfl
@[simp] theorem State.setHlen_ctrl (n : Nat) : (s.setHlen n).ctrl = s.ctrl := rfl
@[simp] theorem State.setHlen_status (n : Nat) : (s.setHlen n).status = s.status := rfl
@[simp] theorem State.setHlen_errinfo (n : Nat) : (s.setHlen n).errinfo = s.errinfo := rfl
@[simp] theorem State.setHlen_cmd (n : Nat) : (s.setHlen n).cmd = s.cmd := rfl
@[simp] theorem State.setHlen_rk (n : Nat) : (s.setHlen n).rk = s.rk := rfl
@[simp] theorem State.setHlen_mem (n : Nat) : (s.setHlen n).mem = s.mem := rfl
@[simp] theorem State.setHlen_cfg (n : Nat) : (s.setHlen n).cfg = s.cfg := rfl
@[simp] theorem State.setHlen_schedule (n : Nat) : (s.setHlen n).schedule = s.schedule := rfl
@[simp] theorem State.setHlen_bus (n : Nat) : (s.setHlen n).bus = s.bus := rfl
@[simp] theorem State.setHlen_resets (n : Nat) : (s.setHlen n).resets = s.resets := rfl
@[simp] theorem State.setHlen_busyReads (n : Nat) : (s.setHlen n).busyReads = s.busyReads := rfl

/-! `State.storeRoundKeys` -/

@[simp] theorem State.storeRoundKeys_key (ks : List Word) : (s.storeRoundKeys ks).key = s.key := rfl
@[simp] theorem State.storeRoundKeys_rounds (ks : List Word) : (s.storeRoundKeys ks).rounds = s.rounds := rfl
@[simp] theorem State.storeRoundKeys_arg0 (ks : List Word) : (s.storeRoundKeys ks).arg0 = s.arg0 := rfl
@[simp] theorem State.storeRoundKeys_arg1 (ks : List Word) : (s.storeRoundKeys ks).arg1 = s.arg1 := rfl
@[simp] theorem State.storeRoundKeys_res (ks : List Word) : (s.storeRoundKeys ks).res = s.res := rfl
@[simp] theorem State.storeRoundKeys_bin (ks : List Word) : (s.storeRoundKeys ks).bin = s.bin := rfl
@[simp] theorem State.storeRoundKeys_bout (ks : List Word) : (s.storeRoundKeys ks).bout = s.bout := rfl
@[simp] theorem State.storeRoundKeys_tlen (ks : List Word) : (s.storeRoundKeys ks).tlen = s.tlen := rfl
@[simp] theorem State.storeRoundKeys_nblk (ks : List Word) : (s.storeRoundKeys ks).nblk = s.nblk := rfl
@[simp] theorem State.storeRoundKeys_hlen (ks : List Word) : (s.storeRoundKeys ks).hlen = s.hlen := rfl
@[simp] theorem State.storeRoundKeys_ctrl (ks : List Word) : (s.storeRoundKeys ks).ctrl = s.ctrl := rfl
@[simp] theorem State.storeRoundKeys_status (ks : List Word) : (s.storeRoundKeys ks).status = s.status := rfl
@[simp] theorem State.storeRoundKeys_errinfo (ks : List Word) : (s.storeRoundKeys ks).errinfo = s.errinfo := rfl
@[simp] theorem State.storeRoundKeys_cmd (ks : List Word) : (s.storeRoundKeys ks).cmd = s.cmd := rfl
@[simp] theorem State.storeRoundKeys_rk (ks : List Word) : (s.storeRoundKeys ks).rk = writeKeys ks 0 s.rk := rfl
@[simp] theorem State.storeRoundKeys_mem (ks : List Word) : (s.storeRoundKeys ks).mem = s.mem := rfl
@[simp] theorem State.storeRoundKeys_cfg (ks : List Word) : (s.storeRoundKeys ks).cfg = s.cfg := rfl
@[simp] theorem State.storeRoundKeys_schedule (ks : List Word) : (s.storeRoundKeys ks).schedule = s.schedule := rfl
@[simp] theorem State.storeRoundKeys_bus (ks : List Word) : (s.storeRoundKeys ks).bus = s.bus := rfl
@[simp] theorem State.storeRoundKeys_resets (ks : List Word) : (s.storeRoundKeys ks).resets = s.resets := rfl
@[simp] theorem State.storeRoundKeys_busyReads (ks : List Word) : (s.storeRoundKeys ks).busyReads = s.busyReads := rfl

/-! `State.loadRoundKeys` -/

@[simp] theorem State.loadRoundKeys_key : (s.loadRoundKeys).key = s.key := rfl
@[simp] theorem State.loadRoundKeys_rounds : (s.loadRoundKeys).rounds = s.rounds := rfl
@[simp] theorem State.loadRoundKeys_arg0 : (s.loadRoundKeys).arg0 = s.arg0 := rfl
@[simp] theorem State.loadRoundKeys_arg1 : (s.loadRoundKeys).arg1 = s.arg1 := rfl
@[simp] theorem State.loadRoundKeys_res : (s.loadRoundKeys).res = s.res := rfl
@[simp] theorem State.loadRoundKeys_bin : (s.loadRoundKeys).bin = s.bin := rfl
@[simp] theorem State.loadRoundKeys_bout : (s.loadRoundKeys).bout = s.bout := rfl
@[simp] theorem State.loadRoundKeys_tlen : (s.loadRoundKeys).tlen = s.tlen := rfl
@[simp] theorem State.loadRoundKeys_nblk : (s.loadRoundKeys).nblk = s.nblk := rfl
@[simp] theorem State.loadRoundKeys_hlen : (s.loadRoundKeys).hlen = s.hlen := rfl
@[simp] theorem State.loadRoundKeys_ctrl : (s.loadRoundKeys).ctrl = s.ctrl := rfl
@[simp] theorem State.loadRoundKeys_status : (s.loadRoundKeys).status = s.status := rfl
@[simp] theorem State.loadRoundKeys_errinfo : (s.loadRoundKeys).errinfo = s.errinfo := rfl
@[simp] theorem State.loadRoundKeys_cmd : (s.loadRoundKeys).cmd = s.cmd := rfl
@[simp] theorem State.loadRoundKeys_rk : (s.loadRoundKeys).rk = writeKeys (roundKeys s.key s.roundCount) 0 s.rk := rfl
@[simp] theorem State.loadRoundKeys_mem : (s.loadRoundKeys).mem = s.mem := rfl
@[simp] theorem State.loadRoundKeys_cfg : (s.loadRoundKeys).cfg = s.cfg := rfl
@[simp] theorem State.loadRoundKeys_schedule : (s.loadRoundKeys).schedule = s.schedule := rfl
@[simp] theorem State.loadRoundKeys_bus : (s.loadRoundKeys).bus = s.bus := rfl
@[simp] theorem State.loadRoundKeys_resets : (s.loadRoundKeys).resets = s.resets := rfl
@[simp] theorem State.loadRoundKeys_busyReads : (s.loadRoundKeys).busyReads = s.busyReads := rfl

/-! `State.noteLoss` -/

@[simp] theorem State.noteLoss_key (d : Bool) : (s.noteLoss d).key = s.key := rfl
@[simp] theorem State.noteLoss_rounds (d : Bool) : (s.noteLoss d).rounds = s.rounds := rfl
@[simp] theorem State.noteLoss_arg0 (d : Bool) : (s.noteLoss d).arg0 = s.arg0 := rfl
@[simp] theorem State.noteLoss_arg1 (d : Bool) : (s.noteLoss d).arg1 = s.arg1 := rfl
@[simp] theorem State.noteLoss_res (d : Bool) : (s.noteLoss d).res = s.res := rfl
@[simp] theorem State.noteLoss_bin (d : Bool) : (s.noteLoss d).bin = s.bin := rfl
@[simp] theorem State.noteLoss_bout (d : Bool) : (s.noteLoss d).bout = s.bout := rfl
@[simp] theorem State.noteLoss_tlen (d : Bool) : (s.noteLoss d).tlen = s.tlen := rfl
@[simp] theorem State.noteLoss_nblk (d : Bool) : (s.noteLoss d).nblk = s.nblk := rfl
@[simp] theorem State.noteLoss_hlen (d : Bool) : (s.noteLoss d).hlen = s.hlen := rfl
@[simp] theorem State.noteLoss_ctrl (d : Bool) : (s.noteLoss d).ctrl = s.ctrl := rfl
@[simp] theorem State.noteLoss_status (d : Bool) : (s.noteLoss d).status = s.status.noteLoss d := rfl
@[simp] theorem State.noteLoss_errinfo (d : Bool) : (s.noteLoss d).errinfo = s.errinfo := rfl
@[simp] theorem State.noteLoss_cmd (d : Bool) : (s.noteLoss d).cmd = s.cmd := rfl
@[simp] theorem State.noteLoss_rk (d : Bool) : (s.noteLoss d).rk = s.rk := rfl
@[simp] theorem State.noteLoss_mem (d : Bool) : (s.noteLoss d).mem = s.mem := rfl
@[simp] theorem State.noteLoss_cfg (d : Bool) : (s.noteLoss d).cfg = s.cfg := rfl
@[simp] theorem State.noteLoss_schedule (d : Bool) : (s.noteLoss d).schedule = s.schedule := rfl
@[simp] theorem State.noteLoss_bus (d : Bool) : (s.noteLoss d).bus = s.bus := rfl
@[simp] theorem State.noteLoss_resets (d : Bool) : (s.noteLoss d).resets = s.resets := rfl
@[simp] theorem State.noteLoss_busyReads (d : Bool) : (s.noteLoss d).busyReads = s.busyReads := rfl

/-! `State.storeUnpacked` -/

@[simp] theorem State.storeUnpacked_key (bs : List Block) : (s.storeUnpacked bs).key = s.key := rfl
@[simp] theorem State.storeUnpacked_rounds (bs : List Block) : (s.storeUnpacked bs).rounds = s.rounds := rfl
@[simp] theorem State.storeUnpacked_arg0 (bs : List Block) : (s.storeUnpacked bs).arg0 = s.arg0 := rfl
@[simp] theorem State.storeUnpacked_arg1 (bs : List Block) : (s.storeUnpacked bs).arg1 = s.arg1 := rfl
@[simp] theorem State.storeUnpacked_res (bs : List Block) : (s.storeUnpacked bs).res = s.res := rfl
@[simp] theorem State.storeUnpacked_bin (bs : List Block) : (s.storeUnpacked bs).bin = s.bin := rfl
@[simp] theorem State.storeUnpacked_bout (bs : List Block) : (s.storeUnpacked bs).bout = s.bout := rfl
@[simp] theorem State.storeUnpacked_tlen (bs : List Block) : (s.storeUnpacked bs).tlen = BitVec.ofNat 32 (unpack bs bs.length).length := rfl
@[simp] theorem State.storeUnpacked_nblk (bs : List Block) : (s.storeUnpacked bs).nblk = s.nblk := rfl
@[simp] theorem State.storeUnpacked_hlen (bs : List Block) : (s.storeUnpacked bs).hlen = s.hlen := rfl
@[simp] theorem State.storeUnpacked_ctrl (bs : List Block) : (s.storeUnpacked bs).ctrl = s.ctrl := rfl
@[simp] theorem State.storeUnpacked_status (bs : List Block) : (s.storeUnpacked bs).status = s.status.noteLoss (dropsBytes bs) := rfl
@[simp] theorem State.storeUnpacked_errinfo (bs : List Block) : (s.storeUnpacked bs).errinfo = s.errinfo := rfl
@[simp] theorem State.storeUnpacked_cmd (bs : List Block) : (s.storeUnpacked bs).cmd = s.cmd := rfl
@[simp] theorem State.storeUnpacked_rk (bs : List Block) : (s.storeUnpacked bs).rk = s.rk := rfl
@[simp] theorem State.storeUnpacked_mem (bs : List Block) : (s.storeUnpacked bs).mem = s.mem.writeBytes txtBase (unpack bs bs.length) := rfl
@[simp] theorem State.storeUnpacked_cfg (bs : List Block) : (s.storeUnpacked bs).cfg = s.cfg := rfl
@[simp] theorem State.storeUnpacked_schedule (bs : List Block) : (s.storeUnpacked bs).schedule = s.schedule := rfl
@[simp] theorem State.storeUnpacked_bus (bs : List Block) : (s.storeUnpacked bs).bus = s.bus := rfl
@[simp] theorem State.storeUnpacked_resets (bs : List Block) : (s.storeUnpacked bs).resets = s.resets := rfl
@[simp] theorem State.storeUnpacked_busyReads (bs : List Block) : (s.storeUnpacked bs).busyReads = s.busyReads := rfl

/-! `State.storeRendered` -/

@[simp] theorem State.storeRendered_key (bs : List Block) : (s.storeRendered bs).key = s.key := rfl
@[simp] theorem State.storeRendered_rounds (bs : List Block) : (s.storeRendered bs).rounds = s.rounds := rfl
@[simp] theorem State.storeRendered_arg0 (bs : List Block) : (s.storeRendered bs).arg0 = s.arg0 := rfl
@[simp] theorem State.storeRendered_arg1 (bs : List Block) : (s.storeRendered bs).arg1 = s.arg1 := rfl
@[simp] theorem State.storeRendered_res (bs : List Block) : (s.storeRendered bs).res = s.res := rfl
@[simp] theorem State.storeRendered_bin (bs : List Block) : (s.storeRendered bs).bin = s.bin := rfl
@[simp] theorem State.storeRendered_bout (bs : List Block) : (s.storeRendered bs).bout = s.bout := rfl
@[simp] theorem State.storeRendered_tlen (bs : List Block) : (s.storeRendered bs).tlen = s.tlen := rfl
@[simp] theorem State.storeRendered_nblk (bs : List Block) : (s.storeRendered bs).nblk = s.nblk := rfl
@[simp] theorem State.storeRendered_hlen (bs : List Block) : (s.storeRendered bs).hlen = BitVec.ofNat 32 (16 * bs.length) := rfl
@[simp] theorem State.storeRendered_ctrl (bs : List Block) : (s.storeRendered bs).ctrl = s.ctrl := rfl
@[simp] theorem State.storeRendered_status (bs : List Block) : (s.storeRendered bs).status = s.status := rfl
@[simp] theorem State.storeRendered_errinfo (bs : List Block) : (s.storeRendered bs).errinfo = s.errinfo := rfl
@[simp] theorem State.storeRendered_cmd (bs : List Block) : (s.storeRendered bs).cmd = s.cmd := rfl
@[simp] theorem State.storeRendered_rk (bs : List Block) : (s.storeRendered bs).rk = s.rk := rfl
@[simp] theorem State.storeRendered_mem (bs : List Block) : (s.storeRendered bs).mem = s.mem.writeBytes hexBase (render bs bs.length) := rfl
@[simp] theorem State.storeRendered_cfg (bs : List Block) : (s.storeRendered bs).cfg = s.cfg := rfl
@[simp] theorem State.storeRendered_schedule (bs : List Block) : (s.storeRendered bs).schedule = s.schedule := rfl
@[simp] theorem State.storeRendered_bus (bs : List Block) : (s.storeRendered bs).bus = s.bus := rfl
@[simp] theorem State.storeRendered_resets (bs : List Block) : (s.storeRendered bs).resets = s.resets := rfl
@[simp] theorem State.storeRendered_busyReads (bs : List Block) : (s.storeRendered bs).busyReads = s.busyReads := rfl

/-! `State.ignoreWrite` -/

@[simp] theorem State.ignoreWrite_key : (s.ignoreWrite).key = s.key := rfl
@[simp] theorem State.ignoreWrite_rounds : (s.ignoreWrite).rounds = s.rounds := rfl
@[simp] theorem State.ignoreWrite_arg0 : (s.ignoreWrite).arg0 = s.arg0 := rfl
@[simp] theorem State.ignoreWrite_arg1 : (s.ignoreWrite).arg1 = s.arg1 := rfl
@[simp] theorem State.ignoreWrite_res : (s.ignoreWrite).res = s.res := rfl
@[simp] theorem State.ignoreWrite_bin : (s.ignoreWrite).bin = s.bin := rfl
@[simp] theorem State.ignoreWrite_bout : (s.ignoreWrite).bout = s.bout := rfl
@[simp] theorem State.ignoreWrite_tlen : (s.ignoreWrite).tlen = s.tlen := rfl
@[simp] theorem State.ignoreWrite_nblk : (s.ignoreWrite).nblk = s.nblk := rfl
@[simp] theorem State.ignoreWrite_hlen : (s.ignoreWrite).hlen = s.hlen := rfl
@[simp] theorem State.ignoreWrite_ctrl : (s.ignoreWrite).ctrl = s.ctrl := rfl
@[simp] theorem State.ignoreWrite_status : (s.ignoreWrite).status = s.status.setWign := rfl
@[simp] theorem State.ignoreWrite_errinfo : (s.ignoreWrite).errinfo = s.errinfo := rfl
@[simp] theorem State.ignoreWrite_cmd : (s.ignoreWrite).cmd = s.cmd := rfl
@[simp] theorem State.ignoreWrite_rk : (s.ignoreWrite).rk = s.rk := rfl
@[simp] theorem State.ignoreWrite_mem : (s.ignoreWrite).mem = s.mem := rfl
@[simp] theorem State.ignoreWrite_cfg : (s.ignoreWrite).cfg = s.cfg := rfl
@[simp] theorem State.ignoreWrite_schedule : (s.ignoreWrite).schedule = s.schedule := rfl
@[simp] theorem State.ignoreWrite_bus : (s.ignoreWrite).bus = s.bus := rfl
@[simp] theorem State.ignoreWrite_resets : (s.ignoreWrite).resets = s.resets := rfl
@[simp] theorem State.ignoreWrite_busyReads : (s.ignoreWrite).busyReads = s.busyReads := rfl

/-! `State.issue` -/

@[simp] theorem State.issue_key (v : Word) : (s.issue v).key = s.key := rfl
@[simp] theorem State.issue_rounds (v : Word) : (s.issue v).rounds = s.rounds := rfl
@[simp] theorem State.issue_arg0 (v : Word) : (s.issue v).arg0 = s.arg0 := rfl
@[simp] theorem State.issue_arg1 (v : Word) : (s.issue v).arg1 = s.arg1 := rfl
@[simp] theorem State.issue_res (v : Word) : (s.issue v).res = s.res := rfl
@[simp] theorem State.issue_bin (v : Word) : (s.issue v).bin = s.bin := rfl
@[simp] theorem State.issue_bout (v : Word) : (s.issue v).bout = s.bout := rfl
@[simp] theorem State.issue_tlen (v : Word) : (s.issue v).tlen = s.tlen := rfl
@[simp] theorem State.issue_nblk (v : Word) : (s.issue v).nblk = s.nblk := rfl
@[simp] theorem State.issue_hlen (v : Word) : (s.issue v).hlen = s.hlen := rfl
@[simp] theorem State.issue_ctrl (v : Word) : (s.issue v).ctrl = s.ctrl := rfl
@[simp] theorem State.issue_status (v : Word) : (s.issue v).status = s.status.issue := rfl
@[simp] theorem State.issue_errinfo (v : Word) : (s.issue v).errinfo = s.errinfo := rfl
@[simp] theorem State.issue_cmd (v : Word) : (s.issue v).cmd = v := rfl
@[simp] theorem State.issue_rk (v : Word) : (s.issue v).rk = s.rk := rfl
@[simp] theorem State.issue_mem (v : Word) : (s.issue v).mem = s.mem := rfl
@[simp] theorem State.issue_cfg (v : Word) : (s.issue v).cfg = s.cfg := rfl
@[simp] theorem State.issue_schedule (v : Word) : (s.issue v).schedule = s.schedule := rfl
@[simp] theorem State.issue_bus (v : Word) : (s.issue v).bus = s.bus := rfl
@[simp] theorem State.issue_resets (v : Word) : (s.issue v).resets = s.resets := rfl
@[simp] theorem State.issue_busyReads (v : Word) : (s.issue v).busyReads = s.busyReads := rfl

/-! `State.completeOk` -/

@[simp] theorem State.completeOk_key : (s.completeOk).key = s.key := rfl
@[simp] theorem State.completeOk_rounds : (s.completeOk).rounds = s.rounds := rfl
@[simp] theorem State.completeOk_arg0 : (s.completeOk).arg0 = s.arg0 := rfl
@[simp] theorem State.completeOk_arg1 : (s.completeOk).arg1 = s.arg1 := rfl
@[simp] theorem State.completeOk_res : (s.completeOk).res = s.res := rfl
@[simp] theorem State.completeOk_bin : (s.completeOk).bin = s.bin := rfl
@[simp] theorem State.completeOk_bout : (s.completeOk).bout = s.bout := rfl
@[simp] theorem State.completeOk_tlen : (s.completeOk).tlen = s.tlen := rfl
@[simp] theorem State.completeOk_nblk : (s.completeOk).nblk = s.nblk := rfl
@[simp] theorem State.completeOk_hlen : (s.completeOk).hlen = s.hlen := rfl
@[simp] theorem State.completeOk_ctrl : (s.completeOk).ctrl = s.ctrl := rfl
@[simp] theorem State.completeOk_status : (s.completeOk).status = s.status.completeOk := rfl
@[simp] theorem State.completeOk_errinfo : (s.completeOk).errinfo = s.errinfo := rfl
@[simp] theorem State.completeOk_cmd : (s.completeOk).cmd = s.cmd := rfl
@[simp] theorem State.completeOk_rk : (s.completeOk).rk = s.rk := rfl
@[simp] theorem State.completeOk_mem : (s.completeOk).mem = s.mem := rfl
@[simp] theorem State.completeOk_cfg : (s.completeOk).cfg = s.cfg := rfl
@[simp] theorem State.completeOk_schedule : (s.completeOk).schedule = s.schedule := rfl
@[simp] theorem State.completeOk_bus : (s.completeOk).bus = s.bus := rfl
@[simp] theorem State.completeOk_resets : (s.completeOk).resets = s.resets := rfl
@[simp] theorem State.completeOk_busyReads : (s.completeOk).busyReads = s.busyReads := rfl

/-! `State.completeError` -/

@[simp] theorem State.completeError_key (e : CmdError) : (s.completeError e).key = s.key := rfl
@[simp] theorem State.completeError_rounds (e : CmdError) : (s.completeError e).rounds = s.rounds := rfl
@[simp] theorem State.completeError_arg0 (e : CmdError) : (s.completeError e).arg0 = s.arg0 := rfl
@[simp] theorem State.completeError_arg1 (e : CmdError) : (s.completeError e).arg1 = s.arg1 := rfl
@[simp] theorem State.completeError_res (e : CmdError) : (s.completeError e).res = s.res := rfl
@[simp] theorem State.completeError_bin (e : CmdError) : (s.completeError e).bin = s.bin := rfl
@[simp] theorem State.completeError_bout (e : CmdError) : (s.completeError e).bout = s.bout := rfl
@[simp] theorem State.completeError_tlen (e : CmdError) : (s.completeError e).tlen = s.tlen := rfl
@[simp] theorem State.completeError_nblk (e : CmdError) : (s.completeError e).nblk = s.nblk := rfl
@[simp] theorem State.completeError_hlen (e : CmdError) : (s.completeError e).hlen = s.hlen := rfl
@[simp] theorem State.completeError_ctrl (e : CmdError) : (s.completeError e).ctrl = s.ctrl := rfl
@[simp] theorem State.completeError_status (e : CmdError) : (s.completeError e).status = s.status.completeError e.code := rfl
@[simp] theorem State.completeError_errinfo (e : CmdError) : (s.completeError e).errinfo = e.info := rfl
@[simp] theorem State.completeError_cmd (e : CmdError) : (s.completeError e).cmd = s.cmd := rfl
@[simp] theorem State.completeError_rk (e : CmdError) : (s.completeError e).rk = s.rk := rfl
@[simp] theorem State.completeError_mem (e : CmdError) : (s.completeError e).mem = s.mem := rfl
@[simp] theorem State.completeError_cfg (e : CmdError) : (s.completeError e).cfg = s.cfg := rfl
@[simp] theorem State.completeError_schedule (e : CmdError) : (s.completeError e).schedule = s.schedule := rfl
@[simp] theorem State.completeError_bus (e : CmdError) : (s.completeError e).bus = s.bus := rfl
@[simp] theorem State.completeError_resets (e : CmdError) : (s.completeError e).resets = s.resets := rfl
@[simp] theorem State.completeError_busyReads (e : CmdError) : (s.completeError e).busyReads = s.busyReads := rfl

/-! `State.issueNow` -/

@[simp] theorem State.issueNow_key (v : Word) : (s.issueNow v).key = s.key := rfl
@[simp] theorem State.issueNow_rounds (v : Word) : (s.issueNow v).rounds = s.rounds := rfl
@[simp] theorem State.issueNow_arg0 (v : Word) : (s.issueNow v).arg0 = s.arg0 := rfl
@[simp] theorem State.issueNow_arg1 (v : Word) : (s.issueNow v).arg1 = s.arg1 := rfl
@[simp] theorem State.issueNow_res (v : Word) : (s.issueNow v).res = s.res := rfl
@[simp] theorem State.issueNow_bin (v : Word) : (s.issueNow v).bin = s.bin := rfl
@[simp] theorem State.issueNow_bout (v : Word) : (s.issueNow v).bout = s.bout := rfl
@[simp] theorem State.issueNow_tlen (v : Word) : (s.issueNow v).tlen = s.tlen := rfl
@[simp] theorem State.issueNow_nblk (v : Word) : (s.issueNow v).nblk = s.nblk := rfl
@[simp] theorem State.issueNow_hlen (v : Word) : (s.issueNow v).hlen = s.hlen := rfl
@[simp] theorem State.issueNow_ctrl (v : Word) : (s.issueNow v).ctrl = s.ctrl := rfl
@[simp] theorem State.issueNow_status (v : Word) : (s.issueNow v).status = s.status.issue := rfl
@[simp] theorem State.issueNow_errinfo (v : Word) : (s.issueNow v).errinfo = s.errinfo := rfl
@[simp] theorem State.issueNow_cmd (v : Word) : (s.issueNow v).cmd = v := rfl
@[simp] theorem State.issueNow_rk (v : Word) : (s.issueNow v).rk = s.rk := rfl
@[simp] theorem State.issueNow_mem (v : Word) : (s.issueNow v).mem = s.mem := rfl
@[simp] theorem State.issueNow_cfg (v : Word) : (s.issueNow v).cfg = s.cfg := rfl
@[simp] theorem State.issueNow_schedule (v : Word) : (s.issueNow v).schedule = .engine :: s.schedule := rfl
@[simp] theorem State.issueNow_bus (v : Word) : (s.issueNow v).bus = s.bus := rfl
@[simp] theorem State.issueNow_resets (v : Word) : (s.issueNow v).resets = s.resets := rfl
@[simp] theorem State.issueNow_busyReads (v : Word) : (s.issueNow v).busyReads = s.busyReads := rfl

/-! `State.resetUnit` -/

@[simp] theorem State.resetUnit_key : s.resetUnit.key = State.reset.key := rfl
@[simp] theorem State.resetUnit_rounds : s.resetUnit.rounds = State.reset.rounds := rfl
@[simp] theorem State.resetUnit_arg0 : s.resetUnit.arg0 = State.reset.arg0 := rfl
@[simp] theorem State.resetUnit_arg1 : s.resetUnit.arg1 = State.reset.arg1 := rfl
@[simp] theorem State.resetUnit_res : s.resetUnit.res = State.reset.res := rfl
@[simp] theorem State.resetUnit_bin : s.resetUnit.bin = State.reset.bin := rfl
@[simp] theorem State.resetUnit_bout : s.resetUnit.bout = State.reset.bout := rfl
@[simp] theorem State.resetUnit_tlen : s.resetUnit.tlen = State.reset.tlen := rfl
@[simp] theorem State.resetUnit_nblk : s.resetUnit.nblk = State.reset.nblk := rfl
@[simp] theorem State.resetUnit_hlen : s.resetUnit.hlen = State.reset.hlen := rfl
@[simp] theorem State.resetUnit_ctrl : s.resetUnit.ctrl = State.reset.ctrl := rfl
@[simp] theorem State.resetUnit_status : s.resetUnit.status = State.reset.status := rfl
@[simp] theorem State.resetUnit_errinfo : s.resetUnit.errinfo = State.reset.errinfo := rfl
@[simp] theorem State.resetUnit_cmd : s.resetUnit.cmd = State.reset.cmd := rfl
@[simp] theorem State.resetUnit_rk : s.resetUnit.rk = State.reset.rk := rfl
@[simp] theorem State.resetUnit_mem : s.resetUnit.mem = State.reset.mem := rfl
@[simp] theorem State.resetUnit_cfg : s.resetUnit.cfg = s.cfg := rfl
@[simp] theorem State.resetUnit_schedule : s.resetUnit.schedule = s.schedule := rfl
@[simp] theorem State.resetUnit_bus : s.resetUnit.bus = State.reset.bus := rfl
@[simp] theorem State.resetUnit_resets : s.resetUnit.resets = s.resets + 1 := rfl
@[simp] theorem State.resetUnit_busyReads : s.resetUnit.busyReads = s.busyReads := rfl

/-! The updates of `Status` and `Ctrl`. -/

variable (t : Status)

@[simp] theorem Status.issue_busy : (t.issue).busy = true := rfl
@[simp] theorem Status.issue_done : (t.issue).done = false := rfl
@[simp] theorem Status.issue_err : (t.issue).err = t.err := rfl
@[simp] theorem Status.issue_wign : (t.issue).wign = t.wign := rfl
@[simp] theorem Status.issue_lossy : (t.issue).lossy = t.lossy := rfl
@[simp] theorem Status.issue_errcode : (t.issue).errcode = t.errcode := rfl

@[simp] theorem Status.completeOk_busy : (t.completeOk).busy = false := rfl
@[simp] theorem Status.completeOk_done : (t.completeOk).done = true := rfl
@[simp] theorem Status.completeOk_err : (t.completeOk).err = t.err := rfl
@[simp] theorem Status.completeOk_wign : (t.completeOk).wign = t.wign := rfl
@[simp] theorem Status.completeOk_lossy : (t.completeOk).lossy = t.lossy := rfl
@[simp] theorem Status.completeOk_errcode : (t.completeOk).errcode = 0#4 := rfl

@[simp] theorem Status.completeError_busy (c : ErrCode) : (t.completeError c).busy = false := rfl
@[simp] theorem Status.completeError_done (c : ErrCode) : (t.completeError c).done = true := rfl
@[simp] theorem Status.completeError_err (c : ErrCode) : (t.completeError c).err = true := rfl
@[simp] theorem Status.completeError_wign (c : ErrCode) : (t.completeError c).wign = t.wign := rfl
@[simp] theorem Status.completeError_lossy (c : ErrCode) : (t.completeError c).lossy = t.lossy := rfl
@[simp] theorem Status.completeError_errcode (c : ErrCode) : (t.completeError c).errcode = c.toBits := rfl

@[simp] theorem Status.setWign_busy : (t.setWign).busy = t.busy := rfl
@[simp] theorem Status.setWign_done : (t.setWign).done = t.done := rfl
@[simp] theorem Status.setWign_err : (t.setWign).err = t.err := rfl
@[simp] theorem Status.setWign_wign : (t.setWign).wign = true := rfl
@[simp] theorem Status.setWign_lossy : (t.setWign).lossy = t.lossy := rfl
@[simp] theorem Status.setWign_errcode : (t.setWign).errcode = t.errcode := rfl

@[simp] theorem Status.noteLoss_busy (d : Bool) : (t.noteLoss d).busy = t.busy := rfl
@[simp] theorem Status.noteLoss_done (d : Bool) : (t.noteLoss d).done = t.done := rfl
@[simp] theorem Status.noteLoss_err (d : Bool) : (t.noteLoss d).err = t.err := rfl
@[simp] theorem Status.noteLoss_wign (d : Bool) : (t.noteLoss d).wign = t.wign := rfl
@[simp] theorem Status.noteLoss_lossy (d : Bool) : (t.noteLoss d).lossy = (t.lossy || d) := rfl
@[simp] theorem Status.noteLoss_errcode (d : Bool) : (t.noteLoss d).errcode = t.errcode := rfl

@[simp] theorem Status.writeOneToClear_busy (v : Word) : (t.writeOneToClear v).busy = t.busy := rfl
@[simp] theorem Status.writeOneToClear_done (v : Word) : (t.writeOneToClear v).done = (t.done && !v.getLsbD 1) := rfl
@[simp] theorem Status.writeOneToClear_err (v : Word) : (t.writeOneToClear v).err = (t.err && !v.getLsbD 2) := rfl
@[simp] theorem Status.writeOneToClear_wign (v : Word) : (t.writeOneToClear v).wign = (t.wign && !v.getLsbD 3) := rfl
@[simp] theorem Status.writeOneToClear_lossy (v : Word) : (t.writeOneToClear v).lossy = (t.lossy && !v.getLsbD 4) := rfl
@[simp] theorem Status.writeOneToClear_errcode (v : Word) : (t.writeOneToClear v).errcode = t.errcode := rfl

@[simp] theorem Ctrl.write_ie (c : Ctrl) (busy : Bool) (v : Word) : (c.write busy v).ie = v.getLsbD 0 := rfl
@[simp] theorem Ctrl.write_strict (c : Ctrl) (busy : Bool) (v : Word) :
    (c.write busy v).strict = if busy then c.strict else v.getLsbD 1 := rfl

end Sys2Proof.Machine
end

