-- ==== Sys2Proof/Laws/Operands.lean ====
section
/-! SUPPORT. Lengths and entries of the commands' operands and results, and the round-key file's reads after writes. -/

namespace Sys2Proof.Machine

open Sys2Proof

/-! The round-key file. -/

/-- Entry j after keys are written from entry i on. -/
theorem writeKeys_getElem (keys : List Word) (i : Nat) (rk : Vector Word 64) (j : Nat) (hj : j < 64) :
    (writeKeys keys i rk)[j] = if i ≤ j then (keys[j - i]?).getD rk[j] else rk[j] := by
  induction keys generalizing i rk with
  | nil => simp [writeKeys]
  | cons k keys ih =>
    rw [writeKeys, ih]
    rcases Nat.lt_trichotomy i j with h | h | h
    · have h1 : i + 1 ≤ j := h
      have h2 : i ≤ j := by omega
      have h3 : j - i = (j - (i + 1)) + 1 := by omega
      have h4 : i ≠ j := by omega
      simp [h1, h2, h3, h4]
    · subst h
      simp
    · have h1 : ¬ i + 1 ≤ j := by omega
      have h2 : ¬ i ≤ j := by omega
      have h4 : i ≠ j := by omega
      simp [h1, h2, h4]

@[simp] theorem length_roundKeys (k : Block) (n : Nat) : (roundKeys k n).length = n := by simp [roundKeys]

theorem getElem?_roundKeys (k : Block) (n i : Nat) (h : i < n) : (roundKeys k n)[i]? = some (roundKey k i) := by
  simp [roundKeys, h]

/-- `RK[j]` after a key-consuming command's write. -/
theorem loadRoundKeys_getElem (s : State) (j : Nat) (hj : j < 64) :
    s.loadRoundKeys.rk[j] = if j < s.roundCount then roundKey s.key j else s.rk[j] := by
  simp only [State.loadRoundKeys_rk, writeKeys_getElem _ _ _ _ hj, Nat.zero_le, if_true, Nat.sub_zero]
  split
  · rw [getElem?_roundKeys _ _ _ ‹_›]; rfl
  · rename_i h
    rw [List.getElem?_eq_none (by simpa using h)]
    rfl

/-! Operands. -/

@[simp] theorem length_textBytes (s : State) : s.textBytes.length = s.tlen.toNat := by simp [State.textBytes]

@[simp] theorem length_hexBytes (s : State) : s.hexBytes.length = s.hlen.toNat := by simp [State.hexBytes]

@[simp] theorem length_blocks (s : State) : s.blocks.length = s.nblk.toNat := by simp [State.blocks]

/-! Results. -/

@[simp] theorem length_pack (bytes : List Byte) (n : Nat) : (pack bytes n).length = ceil8 n := by simp [pack]

theorem length_stripNuls_le (d : List Byte) : (stripNuls d).length ≤ d.length := by
  have := (List.dropWhile_sublist (· == 0x00#8) (l := d.reverse)).length_le
  simpa [stripNuls] using this

theorem length_blockText_le (b : Block) : (blockText b).length ≤ 8 := by
  refine Nat.le_trans (length_stripNuls_le _) (Nat.le_trans (List.length_filter_le _ _) ?_)
  simp

theorem length_flatMap_blockText_le (bs : List Block) : (bs.flatMap blockText).length ≤ 8 * bs.length := by
  induction bs with
  | nil => simp
  | cons b bs ih =>
    have := length_blockText_le b
    simp only [List.flatMap_cons, List.length_append, List.length_cons]
    omega

theorem length_unpack_le (bs : List Block) (nb : Nat) : (unpack bs nb).length ≤ 8 * nb := by
  refine Nat.le_trans (length_stripNuls_le _) (Nat.le_trans (length_flatMap_blockText_le _) ?_)
  have := List.length_take_le nb bs
  omega

@[simp] theorem length_hexOfBlock (b : Block) : (hexOfBlock b).length = 16 := by simp [hexOfBlock]

theorem length_flatMap_hexOfBlock (bs : List Block) : (bs.flatMap hexOfBlock).length = 16 * bs.length := by
  induction bs with
  | nil => rfl
  | cons b bs ih => simp only [List.flatMap_cons, List.length_append, List.length_cons, ih, length_hexOfBlock]; omega

/-- Character d of block j stands at index 16j + d of the rendered text. -/
theorem getElem?_flatMap_hexOfBlock (bs : List Block) (j d : Nat) (hd : d < 16) :
    (bs.flatMap hexOfBlock)[16 * j + d]? = bs[j]?.map fun b => hexChar (blockNibble b d) := by
  induction bs generalizing j with
  | nil => simp
  | cons b bs ih =>
    cases j with
    | zero => simp [List.getElem?_append, hd, hexOfBlock]
    | succ j =>
      have h1 : ¬ (16 * (j + 1) + d < 16) := by omega
      have h2 : 16 * (j + 1) + d - 16 = 16 * j + d := by omega
      simp [List.getElem?_append, h1, h2, ih]

@[simp] theorem length_render (bs : List Block) : (render bs bs.length).length = 16 * bs.length := by
  rw [render, List.take_length, length_flatMap_hexOfBlock]

@[simp] theorem length_parse (h : List Byte) (n : Nat) : (parse h n).length = n / 16 := by simp [parse]

/-! Capacities. -/

theorem txtCap_eq (c : Config) : c.txtCap = 8 * c.blkCap := rfl

theorem hexCap_eq (c : Config) : c.hexCap = 16 * c.blkCap := by
  simp only [Config.hexCap, Config.txtCap]; omega

theorem blkCap_pos (c : Config) : 1 ≤ c.blkCap := by simp [Config.blkCap]

theorem blkCap_le (c : Config) : c.blkCap ≤ 512 := by have := c.chunks.isLt; simp only [Config.blkCap]; omega

/-- R8: TXT_CAP is "a multiple of 8 with 8 ≤ TXT_CAP ≤ 4096", and every such number is one. -/
theorem txtCap_legal (n : Nat) : (∃ c : Config, c.txtCap = n) ↔ n % 8 = 0 ∧ 8 ≤ n ∧ n ≤ 4096 := by
  constructor
  · rintro ⟨c, rfl⟩
    have := blkCap_le c
    have := blkCap_pos c
    simp only [Config.txtCap]
    omega
  · rintro ⟨h1, h2, h3⟩
    refine ⟨⟨⟨n / 8 - 1, by omega⟩⟩, ?_⟩
    simp only [Config.txtCap, Config.blkCap]
    omega

end Sys2Proof.Machine
end

