-- ==== Sys2Proof/Laws/Exec.lean ====
section
/-! SUPPORT. What a command can do, said once: it answers a next state, either its writes and a completion with OK, or an
error for which nothing but STATUS and ERRINFO changes. -/

namespace Sys2Proof.Machine

open Sys2Proof

@[simp] theorem finish_ok (s w : State) : finish s (.ok w) = .next w.completeOk := rfl

@[simp] theorem finish_error (s : State) (e : CmdError) : finish s (.error e) = .next (s.completeError e) := rfl

@[simp] theorem unlessError_none (r : Except CmdError State) : unlessError none r = r := rfl

@[simp] theorem unlessError_some (e : CmdError) (r : Except CmdError State) : unlessError (some e) r = .error e := rfl

theorem rangeError_eq_none {len : Word} {cap : Nat} : rangeError len cap = none ↔ len.toNat ≤ cap := by
  simp only [rangeError]; split <;> simp_all

theorem lengthError_eq_none {len : Word} : lengthError len = none ↔ len.toNat % 16 = 0 := by
  simp only [lengthError]; split <;> simp_all

theorem strictError_eq_none {strict : Bool} {bytes : List Byte} :
    strictError strict bytes = none ↔ strict = false ∨ ∀ c ∈ bytes, undecodable c = false := by
  cases strict <;> simp [strictError, List.findIdx?_eq_none_iff]

theorem digitError_eq_none {h : List Byte} : digitError h = none ↔ ∀ c ∈ h, (hexVal c).isSome := by
  simp [digitError, List.findIdx?_eq_none_iff, Option.isSome_iff_ne_none]

/-- What the writes of every command have in common: `w` is a state with the writes of some command applied to `s`. -/
structure Writes (s w : State) : Prop where
  key : w.key = s.key
  rounds : w.rounds = s.rounds
  arg0 : w.arg0 = s.arg0
  arg1 : w.arg1 = s.arg1
  bin : w.bin = s.bin
  ctrl : w.ctrl = s.ctrl
  errinfo : w.errinfo = s.errinfo
  cmd : w.cmd = s.cmd
  cfg : w.cfg = s.cfg
  schedule : w.schedule = s.schedule
  bus : w.bus = s.bus
  resets : w.resets = s.resets
  busyReads : w.busyReads = s.busyReads
  status : ∃ d, w.status = s.status.noteLoss d
  memWf : s.mem.wf → w.mem.wf
  memWithin : ∀ c ∈ w.mem, c ∈ s.mem ∨ isBuffer s.cfg c.1 = true

theorem noteLoss_false (t : Status) : t.noteLoss false = t := by simp [Status.noteLoss]

theorem noteLoss_noteLoss (t : Status) (d e : Bool) : (t.noteLoss d).noteLoss e = t.noteLoss (d || e) := by
  simp [Status.noteLoss, Bool.or_assoc]

theorem writes_refl (s : State) : Writes s s := by
  constructor <;> try rfl
  · exact ⟨false, (noteLoss_false _).symm⟩
  · exact id
  · exact fun c hc => .inl hc

theorem isBuffer_txt (c : Config) (a n : Nat) (h : n ≤ c.txtCap) (h1 : txtBase ≤ a) (h2 : a < txtBase + n) :
    isBuffer c a = true := by
  have : a < txtBase + c.txtCap := by omega
  simp [isBuffer, within, h1, this]

theorem isBuffer_blk (c : Config) (a n : Nat) (h : n ≤ c.blkCap) (h1 : blkBase ≤ a) (h2 : a < blkBase + 8 * n) :
    isBuffer c a = true := by
  have : a < blkBase + 8 * c.blkCap := by omega
  simp [isBuffer, within, h1, this]

theorem isBuffer_hex (c : Config) (a n : Nat) (h : n ≤ c.hexCap) (h1 : hexBase ≤ a) (h2 : a < hexBase + n) :
    isBuffer c a = true := by
  have : a < hexBase + c.hexCap := by omega
  simp [isBuffer, within, h1, this]

theorem Writes.storeBlocks {s w : State} (h : Writes s w) (bs : List Block) (hb : bs.length ≤ s.cfg.blkCap) :
    Writes s (w.storeBlocks bs) := by
  obtain ⟨⟩ := h
  constructor <;> try assumption
  · exact fun hm => Memory.writeBytes_wf _ _ _ (by simp_all)
  · intro c hc
    rcases Memory.mem_writeBytes _ _ _ _ hc with hc | hc
    · rw [length_flatMap_blockBytes] at hc
      exact .inr (isBuffer_blk _ _ _ hb hc.1 hc.2)
    · simp_all

theorem Writes.storeText {s w : State} (h : Writes s w) (bs : List Byte) (hb : bs.length ≤ s.cfg.txtCap) :
    Writes s (w.storeText bs) := by
  obtain ⟨⟩ := h
  constructor <;> try assumption
  · exact fun hm => Memory.writeBytes_wf _ _ _ (by simp_all)
  · intro c hc
    rcases Memory.mem_writeBytes _ _ _ _ hc with hc | hc
    · exact .inr (isBuffer_txt _ _ _ hb hc.1 hc.2)
    · simp_all

theorem Writes.storeHex {s w : State} (h : Writes s w) (bs : List Byte) (hb : bs.length ≤ s.cfg.hexCap) :
    Writes s (w.storeHex bs) := by
  obtain ⟨⟩ := h
  constructor <;> try assumption
  · exact fun hm => Memory.writeBytes_wf _ _ _ (by simp_all)
  · intro c hc
    rcases Memory.mem_writeBytes _ _ _ _ hc with hc | hc
    · exact .inr (isBuffer_hex _ _ _ hb hc.1 hc.2)
    · simp_all

theorem Writes.setTlen {s w : State} (h : Writes s w) (n : Nat) : Writes s (w.setTlen n) := by
  obtain ⟨⟩ := h; constructor <;> assumption

theorem Writes.setNblk {s w : State} (h : Writes s w) (n : Nat) : Writes s (w.setNblk n) := by
  obtain ⟨⟩ := h; constructor <;> assumption

theorem Writes.setHlen {s w : State} (h : Writes s w) (n : Nat) : Writes s (w.setHlen n) := by
  obtain ⟨⟩ := h; constructor <;> assumption

theorem Writes.setRes {s w : State} (h : Writes s w) (v : Word) : Writes s { w with res := v } := by
  obtain ⟨⟩ := h; constructor <;> assumption

theorem Writes.setBout {s w : State} (h : Writes s w) (v : Block) : Writes s { w with bout := v } := by
  obtain ⟨⟩ := h; constructor <;> assumption

theorem Writes.loadRoundKeys {s w : State} (h : Writes s w) : Writes s w.loadRoundKeys := by
  obtain ⟨⟩ := h; constructor <;> assumption

theorem Writes.noteLoss {s w : State} (h : Writes s w) (d : Bool) : Writes s (w.noteLoss d) := by
  obtain ⟨⟩ := h
  constructor <;> try assumption
  rename_i hst _ _
  obtain ⟨e, he⟩ := hst
  exact ⟨e || d, by rw [State.noteLoss_status, he, noteLoss_noteLoss]⟩

theorem Writes.storeUnpacked {s w : State} (h : Writes s w) (bs : List Block) (hb : bs.length ≤ s.cfg.blkCap) :
    Writes s (w.storeUnpacked bs) := by
  refine ((h.storeText _ ?_).setTlen _).noteLoss _
  have := length_unpack_le bs bs.length
  simp only [Config.txtCap]
  omega

theorem Writes.storeRendered {s w : State} (h : Writes s w) (bs : List Block) (hb : bs.length ≤ s.cfg.blkCap) :
    Writes s (w.storeRendered bs) := by
  refine (h.storeHex _ ?_).setHlen _
  simp only [length_render, hexCap_eq]
  omega

theorem ceil8_le {n c : Nat} (h : n ≤ 8 * c) : ceil8 n ≤ c := by simp only [ceil8]; omega

/-- The answer of a command whose checks and writes are `r`. -/
def Answer (s : State) (o : Host.Outcome State Fault Refusal) : Prop :=
  (∃ w, o = .next w.completeOk ∧ Writes s w) ∨ (∃ e, o = .next (s.completeError e))

theorem answer_ok {s w : State} (h : Writes s w) : Answer s (finish s (.ok w)) := .inl ⟨w, rfl, h⟩

theorem answer_unless {s : State} {c : Option CmdError} {r : Except CmdError State}
    (h : c = none → Answer s (finish s r)) : Answer s (finish s (unlessError c r)) := by
  cases c with
  | none => exact h rfl
  | some e => exact .inr ⟨e, rfl⟩

/-- A completion with OK has passed its checks. -/
theorem unlessError_ok {s w : State} {c : Option CmdError} {r : Except CmdError State}
    (h : finish s (unlessError c r) = .next w) (hz : w.status.errcode = 0#4) : c = none ∧ finish s r = .next w := by
  rcases c with _ | ⟨c, i⟩
  · exact ⟨rfl, h⟩
  · cases h
    cases c <;> simp [ErrCode.toBits] at hz

/-- Every command completes: with OK and its writes, or with an error and nothing else. -/
theorem exec_answer (i : Instr) (s : State) : Answer s (exec i s) := by
  have w0 := writes_refl s
  cases i with
  | nop => exact answer_ok w0
  | sbox => exact answer_ok (w0.setRes _)
  | keygen => exact answer_ok w0.loadRoundKeys
  | roundf => exact answer_ok (w0.setRes _)
  | encb => exact answer_ok (w0.loadRoundKeys.setBout _)
  | decb => exact answer_ok (w0.loadRoundKeys.setBout _)
  | t2b =>
    exact answer_unless fun hr => answer_unless fun _ => answer_ok
      ((w0.storeBlocks _ (by simpa using ceil8_le (rangeError_eq_none.1 hr))).setNblk _)
  | b2t =>
    exact answer_unless fun hr => answer_unless fun _ => answer_ok
      (w0.storeUnpacked _ (by simpa using rangeError_eq_none.1 hr))
  | encecb =>
    exact answer_unless fun hr => answer_ok
      (w0.storeBlocks _ (by simpa using rangeError_eq_none.1 hr)).loadRoundKeys
  | dececb =>
    exact answer_unless fun hr => answer_ok
      (w0.storeBlocks _ (by simpa using rangeError_eq_none.1 hr)).loadRoundKeys
  | b2h => exact answer_unless fun hr => answer_ok (w0.storeRendered _ (by simpa using rangeError_eq_none.1 hr))
  | h2b =>
    refine answer_unless fun hr => answer_unless fun _ => answer_unless fun _ => answer_ok
      ((w0.storeBlocks _ ?_).setNblk _)
    have := rangeError_eq_none.1 hr
    rw [hexCap_eq] at this
    rw [length_parse]
    omega
  | enctxt =>
    refine answer_unless fun hr => answer_unless fun _ => answer_ok
      (((w0.storeBlocks _ ?_).setNblk _).storeRendered _ ?_).loadRoundKeys <;>
      simpa using ceil8_le (rangeError_eq_none.1 hr)
  | dectxt =>
    refine answer_unless fun hr => answer_unless fun _ => answer_unless fun _ => answer_unless fun _ => answer_ok
      (((w0.storeBlocks _ ?_).setNblk _).storeUnpacked _ ?_).loadRoundKeys <;>
    · have := rangeError_eq_none.1 hr
      rw [hexCap_eq] at this
      rw [List.length_map, length_parse]
      omega

end Sys2Proof.Machine
end

