-- ==== Sys2Proof/Laws/Buffers.lean ====
section
/-! SUPPORT. Buffer entries after the buffers' store operations, the operands' entries, and the checks at their first
failing index. -/

namespace Sys2Proof.Machine

open Sys2Proof

/-! Stores. -/

/-- A store of consecutive bytes leaves every byte outside them. -/
theorem bufByte_outside {s t : State} {base : Nat} {bs : List Byte} {a : Nat}
    (ht : t.mem = s.mem.writeBytes base bs) (hr : t.resets = s.resets) (h : a < base ∨ base + bs.length ≤ a) :
    t.bufByte a = s.bufByte a := by
  simp [State.bufByte, ht, hr, Memory.read_writeBytes_outside _ _ _ _ h]

/-- A store of consecutive bytes puts each in its place. -/
theorem bufByte_stored {s t : State} {base : Nat} {bs : List Byte} (ht : t.mem = s.mem.writeBytes base bs) {b : Nat}
    (hb : b < bs.length) : t.bufByte (base + b) = bs[b] := by
  simp [State.bufByte, ht, Memory.read_writeBytes_inside _ _ _ _ hb]

/-- A byte of a block entry. -/
theorem bufByte_blk (s : State) (j p : Nat) (hp : p < 8) :
    s.bufByte (blkBase + 8 * j + p) = blockByte (s.blk j) p := by
  rw [State.blk, blockByte_joinBlock _ _ hp]

/-- Two states with the same eight bytes of an entry have the same entry. -/
theorem blk_congr {s t : State} {j : Nat}
    (h : ∀ p < 8, t.bufByte (blkBase + 8 * j + p) = s.bufByte (blkBase + 8 * j + p)) : t.blk j = s.blk j :=
  joinBlock_congr h

/-- A store of blocks puts each in its entry. -/
theorem blk_stored {s t : State} {bs : List Block}
    (ht : t.mem = s.mem.writeBytes blkBase (bs.flatMap blockBytes)) {j : Nat} (hj : j < bs.length) :
    t.blk j = bs[j] := by
  have : ∀ p < 8, t.bufByte (blkBase + 8 * j + p) = blockByte bs[j] p := by
    intro p hp
    have hlen : 8 * j + p < (bs.flatMap blockBytes).length := by rw [length_flatMap_blockBytes]; omega
    have h2 := getElem?_flatMap_blockBytes bs j p hp
    rw [List.getElem?_eq_getElem hlen, List.getElem?_eq_getElem hj] at h2
    rw [Nat.add_assoc, bufByte_stored ht hlen]
    simpa using h2
  rw [State.blk, joinBlock_congr this, joinBlock_blockByte]

/-! Operands. -/

theorem textBytes_getElem (s : State) (b : Nat) (h : b < s.textBytes.length) : s.textBytes[b] = s.txt b := by
  simp [State.textBytes]

theorem hexBytes_getElem (s : State) (b : Nat) (h : b < s.hexBytes.length) : s.hexBytes[b] = s.hex b := by
  simp [State.hexBytes]

theorem blocks_getElem (s : State) (j : Nat) (h : j < s.blocks.length) : s.blocks[j] = s.blk j := by
  simp [State.blocks]

theorem mem_textBytes {s : State} {c : Byte} : c ∈ s.textBytes ↔ ∃ b < s.tlen.toNat, s.txt b = c := by
  simp [State.textBytes]

theorem mem_hexBytes {s : State} {c : Byte} : c ∈ s.hexBytes ↔ ∃ b < s.hlen.toNat, s.hex b = c := by
  simp [State.hexBytes]

theorem length_bytesOfBlocks (bs : List Block) : (bytesOfBlocks bs).length = 8 * bs.length :=
  length_flatMap_blockBytes bs

theorem bytesOfBlocks_getElem (bs : List Block) (j p : Nat) (hp : p < 8) (hj : j < bs.length)
    (h : 8 * j + p < (bytesOfBlocks bs).length) : (bytesOfBlocks bs)[8 * j + p] = blockByte bs[j] p := by
  have h2 : (bytesOfBlocks bs)[8 * j + p]? = _ := getElem?_flatMap_blockBytes bs j p hp
  rw [List.getElem?_eq_getElem h, List.getElem?_eq_getElem hj] at h2
  simpa using h2

theorem mem_bytesOfBlocks {bs : List Block} {c : Byte} :
    c ∈ bytesOfBlocks bs ↔ ∃ j, ∃ h : j < bs.length, ∃ p < 8, blockByte bs[j] p = c := by
  rw [List.mem_iff_getElem]
  constructor
  · rintro ⟨i, hi, rfl⟩
    have hi' := hi
    rw [length_bytesOfBlocks] at hi'
    refine ⟨i / 8, by omega, i % 8, by omega, ?_⟩
    rw [← bytesOfBlocks_getElem bs (i / 8) (i % 8) (by omega) (by omega) (by rw [length_bytesOfBlocks]; omega)]
    congr 1
    omega
  · rintro ⟨j, hj, p, hp, rfl⟩
    exact ⟨8 * j + p, by rw [length_bytesOfBlocks]; omega, bytesOfBlocks_getElem bs j p hp hj _⟩

/-! Checks. -/

theorem undecodable_iff {c : Byte} : undecodable c = true ↔ 0x80 ≤ c.toNat := by simp [undecodable]

theorem undecodable_false {c : Byte} : undecodable c = false ↔ c.toNat < 0x80 := by simp [undecodable]

theorem rangeError_eq_some {len : Word} {cap : Nat} (h : cap < len.toNat) :
    rangeError len cap = some { code := .range, info := len } := by simp [rangeError, h]

theorem lengthError_eq_some {len : Word} (h : len.toNat % 16 ≠ 0) :
    lengthError len = some { code := .badlen, info := len } := by simp [lengthError, h]

theorem findIdx?_first {α : Type} (p : α → Bool) (l : List α) (b : Nat) (hb : b < l.length) (h : p l[b] = true)
    (hlt : ∀ b' (h' : b' < b), p (l[b']'(by omega)) = false) : l.findIdx? p = some b := by
  rw [List.findIdx?_eq_some_iff_getElem]
  exact ⟨hb, h, fun j hj => by simp [hlt j hj]⟩

theorem strictError_eq_some (bytes : List Byte) (b : Nat) (hb : b < bytes.length) (h : 0x80 ≤ bytes[b].toNat)
    (hlt : ∀ b' (h' : b' < b), (bytes[b']'(by omega)).toNat < 0x80) :
    strictError true bytes = some { code := .encloss, info := BitVec.ofNat 32 b } := by
  rw [strictError, findIdx?_first undecodable bytes b hb (undecodable_iff.2 h) fun b' h' =>
    undecodable_false.2 (hlt b' h')]
  rfl

theorem strictError_none {strict : Bool} {bytes : List Byte} (h : strict = true → ∀ c ∈ bytes, c.toNat < 0x80) :
    strictError strict bytes = none := by
  rw [strictError_eq_none]
  cases strict
  · exact .inl rfl
  · exact .inr fun c hc => undecodable_false.2 (h rfl c hc)

/-- The ENCLOSS check on blocks, at byte p of block j. -/
theorem strictError_blocks (bs : List Block) (j p : Nat) (hj : j < bs.length) (hp : p < 8)
    (h : 0x80 ≤ (blockByte bs[j] p).toNat)
    (hlt : ∀ j' p', ∀ h : j' < bs.length, p' < 8 → 8 * j' + p' < 8 * j + p → (blockByte bs[j'] p').toNat < 0x80) :
    strictError true (bytesOfBlocks bs) = some { code := .encloss, info := BitVec.ofNat 32 (8 * j + p) } := by
  apply strictError_eq_some _ _ (by rw [length_bytesOfBlocks]; omega)
  · rw [bytesOfBlocks_getElem bs j p hp hj]; exact h
  · intro b' h'
    have := hlt (b' / 8) (b' % 8) (by omega) (by omega) (by omega)
    rw [← bytesOfBlocks_getElem bs _ _ (by omega) _ (by rw [length_bytesOfBlocks]; omega)] at this
    simpa only [show 8 * (b' / 8) + b' % 8 = b' by omega] using this

theorem digitError_eq_some (h : List Byte) (b : Nat) (hb : b < h.length) (hbad : hexVal h[b] = none)
    (hlt : ∀ b' (h' : b' < b), (hexVal (h[b']'(by omega))).isSome) :
    digitError h = some { code := .badhex, info := BitVec.ofNat 32 b } := by
  rw [digitError, findIdx?_first _ h b hb (by simp [hbad]) fun b' h' => by
    have := hlt b' h'
    simpa [Option.isSome_iff_ne_none] using this]
  rfl

theorem dropsBytes_iff (bs : List Block) :
    dropsBytes bs = true ↔ ∃ j, ∃ h : j < bs.length, ∃ p < 8, 0x80 ≤ (blockByte bs[j] p).toNat := by
  simp only [dropsBytes, List.any_eq_true, undecodable_iff]
  constructor
  · rintro ⟨c, hc, h⟩
    obtain ⟨j, hj, p, hp, rfl⟩ := mem_bytesOfBlocks.1 hc
    exact ⟨j, hj, p, hp, h⟩
  · rintro ⟨j, hj, p, hp, h⟩
    exact ⟨_, mem_bytesOfBlocks.2 ⟨j, hj, p, hp, rfl⟩, h⟩

/-- Stripping trailing NULs, as the library's operation. -/
theorem stripNuls_eq (d : List Byte) : stripNuls d = d.rdropWhile fun c => decide (c = 0#8) := rfl

end Sys2Proof.Machine
end

