-- ==== Sys2Proof/Laws/Feistel.lean ====
section
/-! SUPPORT. One round and its undoing, the key schedule entry by entry, and words nibble by nibble. -/

namespace Sys2Proof.Machine

open Sys2Proof

/-- Two words with the same nibbles are the same word. -/
theorem word_ext_nibbles {a b : Word} (h : ∀ j < 8, wordNibble a j = wordNibble b j) : a = b := by
  apply BitVec.eq_of_getLsbD_eq
  intro i hi
  have := congrArg (fun n => BitVec.getLsbD n (i % 4)) (h (i / 4) (by omega))
  simp only [wordNibble, BitVec.getLsbD_extractLsb'] at this
  have h4 : 4 * (i / 4) + i % 4 = i := by omega
  have h5 : i % 4 < 4 := by omega
  simpa [h4, h5] using this

/-- Two blocks with the same hex digits are the same block. -/
theorem block_ext_nibbles {a b : Block} (h : ∀ d < 16, blockNibble a d = blockNibble b d) : a = b := by
  rw [← joinNibbles_blockNibble a, ← joinNibbles_blockNibble b]
  exact joinNibbles_congr h

theorem sbox_injective : ∀ a b : Nibble, sbox a = sbox b → a = b := by decide

@[simp] theorem roundKeys_zero (k : Block) : roundKeys k 0 = [] := rfl

/-- The schedule for n + 1 rounds is that for n rounds and one more key. -/
theorem roundKeys_succ (k : Block) (n : Nat) : roundKeys k (n + 1) = roundKeys k n ++ [roundKey k n] := by
  simp [roundKeys, List.range_succ]

/-- A bit of a rotation written with two shifts. -/
theorem shifted_getLsbD (k : Block) (s b : Nat) (hs : s < 64) (hb : b < 64) :
    ((k >>> s) ^^^ wrappedBits k s).getLsbD b = k.getLsbD ((b + s) % 64) := by
  simp only [BitVec.getLsbD_xor, BitVec.getLsbD_ushiftRight, wrappedBits]
  split
  · subst s
    simp [Nat.mod_eq_of_lt hb]
  · rw [BitVec.getLsbD_shiftLeft]
    by_cases hlt : b + s < 64
    · have : b < 64 - s := by omega
      simp [this, hb, Nat.mod_eq_of_lt hlt, Nat.add_comm s b]
    · have h1 : ¬ b < 64 - s := by omega
      have h2 : (b + s) % 64 = b - (64 - s) := by omega
      have h3 : k.getLsbD (s + b) = false := BitVec.getLsbD_of_ge _ _ (by omega)
      simp [h1, hb, h2, h3]

@[simp] theorem decRound_encRound (p : Word × Word) (k : Word) : decRound (encRound p k) k = p := by
  obtain ⟨a, b⟩ := p
  simp [decRound, encRound]

@[simp] theorem encRound_decRound (p : Word × Word) (k : Word) : encRound (decRound p k) k = p := by
  obtain ⟨a, b⟩ := p
  simp [decRound, encRound]

@[simp] theorem halves_ofHalves (p : Word × Word) : halves (ofHalves p) = p := by simp [halves, ofHalves]

@[simp] theorem ofHalves_halves (b : Block) : ofHalves (halves b) = b := by simp [halves, ofHalves]

theorem encryptBlock_congr {s t : State} (h1 : t.key = s.key) (h2 : t.rounds = s.rounds) :
    t.encryptBlock = s.encryptBlock := by
  funext b
  simp [State.encryptBlock, State.roundCount, h1, h2]

theorem decryptBlock_congr {s t : State} (h1 : t.key = s.key) (h2 : t.rounds = s.rounds) :
    t.decryptBlock = s.decryptBlock := by
  funext b
  simp [State.decryptBlock, State.roundCount, h1, h2]

end Sys2Proof.Machine
end

