-- ==== Sys2Proof/Laws/Codec.lean ====
section
/-! SUPPORT. Packed blocks, stripped texts and hex texts, entry by entry, and the checks on a state's operands. -/

namespace Sys2Proof.Machine

open Sys2Proof

/-! The codec. -/

theorem getD_pack (bytes : List Byte) (n j : Nat) (hj : j < ceil8 n) :
    (pack bytes n).getD j 0#64 = joinBlock fun p => paddedByte bytes n (8 * j + p) := by
  simp [pack, hj]

theorem blockBytes_joinBlock (f : Nat → Byte) : blockBytes (joinBlock f) = (List.range 8).map f := by
  unfold blockBytes
  apply List.map_congr_left
  intro p hp
  exact blockByte_joinBlock f p (List.mem_range.1 hp)

/-- A text that does not end in a NUL loses nothing. -/
theorem stripNuls_of_last (d : List Byte) (h : ∀ hne : d ≠ [], d.getLast hne ≠ 0#8) : stripNuls d = d := by
  rw [stripNuls_eq, List.rdropWhile_eq_self_iff]
  intro hne
  simpa using h hne

/-- A stripped text does not end in a NUL. -/
theorem stripNuls_last (d : List Byte) (hne : stripNuls d ≠ []) : (stripNuls d).getLast hne ≠ 0#8 := by
  have := List.rdropWhile_last_not (p := fun c : Byte => decide (c = 0#8)) d (by rw [← stripNuls_eq]; exact hne)
  intro h
  exact this (decide_eq_true h)

/-- The decoded blocks' text does not end in a NUL. -/
theorem flatMap_blockText_last (l : List Block) (hne : l.flatMap blockText ≠ []) :
    (l.flatMap blockText).getLast hne ≠ 0#8 := by
  induction l with
  | nil => simp at hne
  | cons b l ih =>
    by_cases h : l.flatMap blockText = []
    · have h1 : (b :: l).flatMap blockText = blockText b := by simp [h]
      have h2 : blockText b ≠ [] := by rw [← h1]; exact hne
      simp only [h1]
      exact stripNuls_last _ h2
    · simp only [List.flatMap_cons, List.getLast_append_of_ne_nil _ h]
      exact ih h

/-! Hex texts. -/

theorem hexVal_hexChar : ∀ v : Nibble, hexVal (hexChar v) = some v := by decide

theorem getD_flatMap_hexOfBlock (bs : List Block) (j d : Nat) (hj : j < bs.length) (hd : d < 16) :
    (bs.flatMap hexOfBlock).getD (16 * j + d) 0#8 = hexChar (blockNibble (bs.getD j 0#64) d) := by
  rw [List.getD_eq_getElem?_getD, getElem?_flatMap_hexOfBlock _ _ _ hd, List.getElem?_eq_getElem hj]
  simp [hj]

theorem blockNibble_getD_parse (h : List Byte) (n j d : Nat) (hj : j < n / 16) (hd : d < 16) :
    blockNibble ((parse h n).getD j 0#64) d = digitAt h (16 * j + d) := by
  simp only [parse, List.getD_eq_getElem?_getD, List.getElem?_map, List.getElem?_range hj]
  simp [blockNibble_joinNibbles _ _ hd]

/-! A state's operands. -/

theorem digitAt_hexBytes {s : State} {b : Nat} (hb : b < s.hlen.toNat) :
    digitAt s.hexBytes b = (hexVal (s.hex b)).getD 0#4 := by
  rw [digitAt, List.getD_eq_getElem _ _ (by simpa using hb), hexBytes_getElem]

theorem paddedByte_textBytes (s : State) (b : Nat) :
    paddedByte s.textBytes s.tlen.toNat b = if b < s.tlen.toNat then s.txt b else 0x00#8 := by
  simp only [paddedByte]
  split
  · rename_i h
    rw [List.getD_eq_getElem _ _ (by simpa using h), textBytes_getElem]
  · rfl

theorem digitError_hexBytes_none {s : State} (h : ∀ b < s.hlen.toNat, (hexVal (s.hex b)).isSome) :
    digitError s.hexBytes = none := by
  rw [digitError_eq_none]
  intro c hc
  obtain ⟨b, hb, rfl⟩ := mem_hexBytes.1 hc
  exact h b hb

theorem digitError_hexBytes_some {s : State} {b : Nat} (hb : b < s.hlen.toNat) (h : hexVal (s.hex b) = none)
    (hlt : ∀ b' < b, (hexVal (s.hex b')).isSome) :
    digitError s.hexBytes = some { code := .badhex, info := BitVec.ofNat 32 b } :=
  digitError_eq_some _ b (by simpa using hb) (by rw [hexBytes_getElem]; exact h) fun b' h' => by
    rw [hexBytes_getElem]
    exact hlt b' h'

theorem strictError_textBytes_none {s : State}
    (h : s.ctrl.strict = true → ∀ b < s.tlen.toNat, (s.txt b).toNat < 0x80) :
    strictError s.ctrl.strict s.textBytes = none :=
  strictError_none fun hs c hc => by
    obtain ⟨b, hb, rfl⟩ := mem_textBytes.1 hc
    exact h hs b hb

theorem strictError_textBytes_some {s : State} (hs : s.ctrl.strict = true) {b : Nat} (hb : b < s.tlen.toNat)
    (h : 0x80 ≤ (s.txt b).toNat) (hlt : ∀ b' < b, (s.txt b').toNat < 0x80) :
    strictError s.ctrl.strict s.textBytes = some { code := .encloss, info := BitVec.ofNat 32 b } := by
  rw [hs]
  exact strictError_eq_some s.textBytes b (by simpa using hb) (by simpa [textBytes_getElem] using h) fun b' h' => by
    simpa [textBytes_getElem] using hlt b' h'

/-- The block operand after a store of blocks and its count. -/
theorem blocks_stored {s t : State} {bs : List Block} (ht : t.mem = s.mem.writeBytes blkBase (bs.flatMap blockBytes))
    (hn : t.nblk.toNat = bs.length) : t.blocks = bs := by
  apply List.ext_getElem
  · simp [hn]
  · intro j h1 h2
    rw [blocks_getElem, blk_stored ht h2]

theorem blkCap_of_hexCap {s : State} (h : s.hlen.toNat ≤ s.cfg.hexCap) : s.hlen.toNat / 16 ≤ s.cfg.blkCap := by
  rw [hexCap_eq] at h
  omega

end Sys2Proof.Machine
end

