-- ==== Sys2Proof/Laws/Decode.lean ====
section
/-! SUPPORT. The opcode map read both ways, and the two fields of a command word. -/

namespace Sys2Proof

theorem decodeOpc_eq_some {o : BitVec 8} {i : Instr} : decodeOpc o = some i ↔ o = opcodeOf i := by
  constructor
  · intro h
    unfold decodeOpc at h
    split at h <;> (try cases h) <;> (apply BitVec.eq_of_toNat_eq; assumption)
  · rintro rfl
    cases i <;> rfl

theorem decodeOpc_eq_none {o : BitVec 8} : decodeOpc o = none ↔ 0x0E ≤ o.toNat := by
  constructor
  · intro h
    by_contra hlt
    obtain ⟨n, hn⟩ : ∃ n, o.toNat = n := ⟨_, rfl⟩
    unfold decodeOpc at h
    rw [hn] at h hlt
    have hlt : n < 14 := by omega
    interval_cases n <;> cases h
  · intro h
    unfold decodeOpc
    split <;> first | omega | rfl

/-- A command word is its two fields (30_encoding.md R90). -/
theorem word_eq_fields (w : Word) : w = w.extractLsb' 8 24 ++ w.extractLsb' 0 8 := by
  apply BitVec.eq_of_getLsbD_eq
  intro i hi
  rw [BitVec.getLsbD_append]
  simp only [BitVec.getLsbD_extractLsb']
  split
  · simp [*]
  · have : 8 + (i - 8) = i := by omega
    have h2 : i - 8 < 24 := by omega
    simp [this, h2]

theorem rsvZero_ofWord {w : Word} : (Cmd32.ofWord w).rsvZero = true ↔ w.extractLsb' 8 24 = 0#24 := by
  simp [Cmd32.rsvZero, Cmd32.ofWord]

theorem decode_of_rsv {w : Word} (h : w.extractLsb' 8 24 ≠ 0#24) : decode w = .error .reservedBits := by
  have : ¬ (Cmd32.ofWord w).rsvZero = true := by rw [rsvZero_ofWord]; exact h
  simp [decode, this]

theorem decode_of_opc {w : Word} (h : w.extractLsb' 8 24 = 0#24) :
    decode w = match decodeOpc (w.extractLsb' 0 8) with
      | some i => .ok i
      | none => .error .reservedOpcode := by
  have : (Cmd32.ofWord w).rsvZero = true := rsvZero_ofWord.2 h
  simp only [decode, this, if_true]
  rfl

end Sys2Proof
end

