-- ==== Sys2Proof/Laws/PerInstr.lean ====
section
/-! SUPPORT. One statement about every instruction as syntax: its word is legal and stands for it alone. -/

namespace Sys2Proof.Laws

/-- The word of an instruction has the two fields of R90 as R92 gives them, is legal by R96, and decodes to the
instruction. -/
def LegalWord.Statement (i : Instr) : Prop :=
  (Cmd32.ofWord (encode i)).rsv = 0#24 ∧ (Cmd32.ofWord (encode i)).opc = opcodeOf i ∧
    (Cmd32.ofWord (encode i)).wellFormed = true ∧ decode (encode i) = .ok i

theorem LegalWord.nop : LegalWord.Statement .nop := by unfold Statement; decide

theorem LegalWord.sbox : LegalWord.Statement .sbox := by unfold Statement; decide

theorem LegalWord.keygen : LegalWord.Statement .keygen := by unfold Statement; decide

theorem LegalWord.roundf : LegalWord.Statement .roundf := by unfold Statement; decide

theorem LegalWord.encb : LegalWord.Statement .encb := by unfold Statement; decide

theorem LegalWord.decb : LegalWord.Statement .decb := by unfold Statement; decide

theorem LegalWord.t2b : LegalWord.Statement .t2b := by unfold Statement; decide

theorem LegalWord.b2t : LegalWord.Statement .b2t := by unfold Statement; decide

theorem LegalWord.encecb : LegalWord.Statement .encecb := by unfold Statement; decide

theorem LegalWord.dececb : LegalWord.Statement .dececb := by unfold Statement; decide

theorem LegalWord.b2h : LegalWord.Statement .b2h := by unfold Statement; decide

theorem LegalWord.h2b : LegalWord.Statement .h2b := by unfold Statement; decide

theorem LegalWord.enctxt : LegalWord.Statement .enctxt := by unfold Statement; decide

theorem LegalWord.dectxt : LegalWord.Statement .dectxt := by unfold Statement; decide

end Sys2Proof.Laws
end

