-- ==== Sys2Proof/Laws/Window.lean ====
section
/-! SUPPORT. The address map at each kind of offset, and what a host access of each kind does. -/

namespace Sys2Proof.Machine

open Sys2Proof

/-! The address map. -/

@[simp] theorem placeAt_reg (c : Config) (r : RegName) : placeAt c r.offset = .reg r := by cases r <;> rfl

theorem regAt_eq_some {off : Nat} {r : RegName} : regAt off = some r ↔ off = r.offset := by
  constructor
  · intro h
    have := List.find?_some h
    exact (beq_iff_eq.1 this).symm
  · rintro rfl
    cases r <;> rfl

theorem regAt_none {off : Nat} (h : 0x0048 ≤ off) : regAt off = none := by
  rw [Option.eq_none_iff_forall_ne_some]
  rintro r hr
  have hle : ∀ r : RegName, r.offset ≤ 0x0044 := by intro r; cases r <;> decide
  have := hle r
  rw [regAt_eq_some] at hr
  omega

theorem placeAt_eq_reg {c : Config} {off : Nat} {r : RegName} : placeAt c off = .reg r ↔ off = r.offset := by
  constructor
  · intro h
    unfold placeAt at h
    split at h
    · cases h
      exact regAt_eq_some.1 ‹_›
    · split at h
      · cases h
      · split at h <;> cases h
  · rintro rfl
    exact placeAt_reg c r

theorem placeAt_roundKey (c : Config) (i : Nat) (h : i < 64) : placeAt c (rkBase + 4 * i) = .roundKey ⟨i, h⟩ := by
  rw [placeAt, regAt_none (by simp only [rkBase]; omega)]
  simp only [within, decide_eq_true (show rkBase ≤ rkBase + 4 * i by omega),
    decide_eq_true (show rkBase + 4 * i < rkBase + 256 by omega), Bool.and_self, if_true,
    show (rkBase + 4 * i - rkBase) / 4 = i by omega]
  congr 1
  apply Fin.ext
  simp only [Fin.ofNat]
  omega

theorem within_eq_true {off base size : Nat} : within off base size = true ↔ base ≤ off ∧ off < base + size := by
  simp only [within, Bool.and_eq_true, decide_eq_true_eq]

theorem isBuffer_eq_true {c : Config} {off : Nat} : isBuffer c off = true ↔
    (0x1000 ≤ off ∧ off < 0x1000 + c.txtCap) ∨ (0x2000 ≤ off ∧ off < 0x2000 + 8 * c.blkCap) ∨
      (0x4000 ≤ off ∧ off < 0x4000 + c.hexCap) := by
  simp only [isBuffer, Bool.or_eq_true, within_eq_true, txtBase, blkBase, hexBase, or_assoc]

/-- From the end of the round-key file on there are buffers and reserved offsets. -/
theorem placeAt_high (c : Config) (off : Nat) (h : 0x0200 ≤ off) :
    placeAt c off = if isBuffer c off then .buffer else .reserved := by
  rw [placeAt, regAt_none (by omega)]
  simp only
  rw [if_neg (by rw [within_eq_true]; simp only [rkBase]; omega)]

theorem placeAt_buffer (c : Config) (off : Nat) (h : isBuffer c off = true) : placeAt c off = .buffer := by
  rw [placeAt_high _ _ (by rw [isBuffer_eq_true] at h; omega), if_pos h]

theorem placeAt_reserved (c : Config) (off : Nat) (h : 0x0048 ≤ off) (h1 : off < 0x0100 ∨ 0x0200 ≤ off)
    (h2 : isBuffer c off = false) : placeAt c off = .reserved := by
  rw [placeAt, regAt_none h]
  simp only
  rw [if_neg (by rw [within_eq_true]; simp only [rkBase]; omega), if_neg (by simp [h2])]

theorem placeAt_eq_roundKey {c : Config} {off : Nat} {i : Fin 64} (h : placeAt c off = .roundKey i) :
    0x0100 ≤ off ∧ off < 0x0200 := by
  unfold placeAt at h
  split at h
  · cases h
  · split at h
    · rename_i hw
      simpa [rkBase] using within_eq_true.1 hw
    · split at h <;> cases h

theorem placeAt_eq_buffer {c : Config} {off : Nat} (h : placeAt c off = .buffer) : isBuffer c off = true := by
  unfold placeAt at h
  split at h
  · cases h
  · split at h
    · cases h
    · split at h
      · assumption
      · cases h

/-! Accesses. -/

@[simp] theorem accepts_word {off : Offset} (h : off.toNat % 4 = 0) : accepts off .word = true := by
  simp [accepts, h]

theorem accepts_eq_false {off : Offset} {w : AccessWidth} (h : w ≠ .word ∨ off.toNat % 4 ≠ 0) :
    accepts off w = false := by
  rcases h with h | h <;> cases w <;> simp_all [accepts]

/-- A refused access. -/
theorem hostAccess_refused (s : State) {off : Offset} {w : AccessWidth} (v : Word) (h : accepts off w = false) :
    s.hostAccess (.read off w) = { s with bus := .busError } ∧
      s.hostAccess (.write off w v) = { s with bus := .busError } := by
  simp [State.hostAccess, h]

theorem hostAccess_read (s : State) {off : Offset} (h : off.toNat % 4 = 0) :
    s.hostAccess (.read off .word) = s.hostRead off.toNat := by
  simp [State.hostAccess, h]

theorem hostAccess_write (s : State) {off : Offset} (v : Word) (h : off.toNat % 4 = 0) :
    s.hostAccess (.write off .word v) = s.hostWrite off.toNat v := by
  simp [State.hostAccess, h]

/-- A read while idle, or of a place no command writes. -/
theorem hostRead_plain (s : State) (off : Nat)
    (h : s.status.busy = false ∨ (placeAt s.cfg off).isResult = false) :
    s.hostRead off = { s with bus := .readData (s.readPlace off) } := by
  rcases h with h | h <;> simp [State.hostRead, h]

/-- A read while busy of a place a command may write. -/
theorem hostRead_free (s : State) (off : Nat) (hb : s.status.busy = true)
    (h : (placeAt s.cfg off).isResult = true) :
    s.hostRead off =
      { s with bus := .readData (Config.busyReadWord s.busyReads), busyReads := s.busyReads + 1 } := by
  simp [State.hostRead, hb, h]

/-- A write while busy to any place but `CTRL` and `STATUS`. -/
theorem hostWrite_ignored (s : State) (off : Nat) (v : Word) (hb : s.status.busy = true)
    (h : (placeAt s.cfg off).writableWhileBusy = false) :
    s.hostWrite off v = { s.ignoreWrite with bus := .writeAck } := by
  simp [State.hostWrite, hb, h]

/-- A write while idle, or to `CTRL` or `STATUS`. -/
theorem hostWrite_taken (s : State) (off : Nat) (v : Word)
    (h : s.status.busy = false ∨ (placeAt s.cfg off).writableWhileBusy = true) :
    s.hostWrite off v = { s.writePlace off v with bus := .writeAck } := by
  rcases h with h | h <;> simp [State.hostWrite, h]

theorem readPlace_reg (s : State) (r : RegName) : s.readPlace r.offset = s.readReg r := by
  simp [State.readPlace]

theorem writePlace_reg (s : State) (r : RegName) (v : Word) : s.writePlace r.offset v = s.writeReg v r := by
  simp [State.writePlace]

theorem writePlace_buffer (s : State) {off : Nat} (v : Word) (h : isBuffer s.cfg off = true) :
    s.writePlace off v = s.storeWord off v := by
  simp [State.writePlace, placeAt_buffer _ _ h]

theorem readPlace_buffer (s : State) {off : Nat} (h : isBuffer s.cfg off = true) :
    s.readPlace off = s.bufWord off := by
  simp [State.readPlace, placeAt_buffer _ _ h]

/-- The offset of a register as a bus offset. -/
theorem toNat_offset (r : RegName) : (BitVec.ofNat 16 r.offset).toNat = r.offset := by cases r <;> rfl

theorem offset_aligned (r : RegName) : r.offset % 4 = 0 := by cases r <;> rfl

/-- A host read of a register while idle, or of one no command writes. -/
theorem hostAccess_read_reg (s : State) (r : RegName) (h : s.status.busy = false ∨ r.isResult = false) :
    s.hostAccess (.read (BitVec.ofNat 16 r.offset) .word) = { s with bus := .readData (s.readReg r) } := by
  rw [hostAccess_read _ (by rw [toNat_offset]; exact offset_aligned r), toNat_offset,
    hostRead_plain _ _ (h.imp_right fun h => by rw [placeAt_reg]; exact h), readPlace_reg]

/-- A host write of a register while idle, or of `CTRL` or `STATUS`. -/
theorem hostAccess_write_reg (s : State) (r : RegName) (v : Word)
    (h : s.status.busy = false ∨ (Place.reg r).writableWhileBusy = true) :
    s.hostAccess (.write (BitVec.ofNat 16 r.offset) .word v) = { s.writeReg v r with bus := .writeAck } := by
  rw [hostAccess_write _ _ (by rw [toNat_offset]; exact offset_aligned r), toNat_offset,
    hostWrite_taken _ _ _ (h.imp_right fun h => by rw [placeAt_reg]; exact h), writePlace_reg]

/-- A place that is writable while busy is `CTRL` or `STATUS`. -/
theorem writableWhileBusy_iff {p : Place} : p.writableWhileBusy = true ↔ p = .reg .ctrl ∨ p = .reg .status := by
  cases p with
  | reg r => cases r <;> simp [Place.writableWhileBusy]
  | roundKey i => simp [Place.writableWhileBusy]
  | buffer => simp [Place.writableWhileBusy]
  | reserved => simp [Place.writableWhileBusy]

/-- What a host access leaves: every field but the ones a write names, `bus` and `busyReads`. -/
theorem hostRead_frame (s : State) (off : Nat) :
    ∃ b n, s.hostRead off = { s with bus := b, busyReads := n } := by
  unfold State.hostRead
  split <;> exact ⟨_, _, rfl⟩

/-- While busy, a host access changes nothing but the interrupt enable, the sticky bits, DONE and the model's record of
the access. -/
theorem hostAccess_busy (s : State) (a : Access) (hb : s.status.busy = true) :
    ∃ ie done err wign lossy b n, s.hostAccess a =
      { s with
        ctrl := { s.ctrl with ie := ie },
        status := { s.status with done := done, err := err, wign := wign, lossy := lossy },
        bus := b, busyReads := n } := by
  cases a with
  | read off w =>
    simp only [State.hostAccess]
    split
    · obtain ⟨b, n, h⟩ := hostRead_frame s off.toNat
      exact ⟨s.ctrl.ie, s.status.done, s.status.err, s.status.wign, s.status.lossy, b, n, h⟩
    · exact ⟨s.ctrl.ie, s.status.done, s.status.err, s.status.wign, s.status.lossy, _, _, rfl⟩
  | write off w v =>
    simp only [State.hostAccess]
    split
    · cases hw : (placeAt s.cfg off.toNat).writableWhileBusy with
      | false =>
        rw [hostWrite_ignored _ _ _ hb hw]
        exact ⟨s.ctrl.ie, s.status.done, s.status.err, true, s.status.lossy, _, s.busyReads, rfl⟩
      | true =>
        rw [hostWrite_taken _ _ _ (.inr hw)]
        rcases writableWhileBusy_iff.1 hw with hp | hp <;>
          simp only [State.writePlace, hp, State.writeReg]
        · refine ⟨v.getLsbD 0, s.status.done, s.status.err, s.status.wign, s.status.lossy, .writeAck, s.busyReads, ?_⟩
          simp only [Ctrl.write, if_pos hb]
        · exact ⟨s.ctrl.ie, _, _, _, _, _, s.busyReads, rfl⟩
    · exact ⟨s.ctrl.ie, s.status.done, s.status.err, s.status.wign, s.status.lossy, _, s.busyReads, rfl⟩

end Sys2Proof.Machine
end

