-- ==== Sys2Proof/Laws/Step.lean ====
section
/-! SUPPORT. What a step can do, said once, and runs step by step. -/

namespace Sys2Proof.Machine

open Sys2Proof

/-- The engine's completion, of a legal word and of an illegal one. -/
theorem completeCommand_answer (s : State) : Answer s (completeCommand s) := by
  unfold completeCommand
  split
  · exact exec_answer _ s
  · exact .inr ⟨_, rfl⟩

theorem step_access {s : State} {a : Access} {r : List Turn} (h : s.schedule = .access a :: r) :
    step s = .next (State.hostAccess { s with schedule := r } a) := by
  simp [step, nextTurn, h, takeTurn]

theorem step_poll {s : State} {d : Nat} {r : List Turn} (h : s.schedule = .poll d :: r) :
    step s = .next (State.hostPoll { s with schedule := r } d) := by
  simp [step, nextTurn, h, takeTurn]

theorem step_engine {s : State} {r : List Turn} (h : s.schedule = .engine :: r) :
    step s = engineTurn { s with schedule := r } := by
  simp [step, nextTurn, h, takeTurn]

theorem step_reset {s : State} {r : List Turn} (h : s.schedule = .reset :: r) :
    step s = .next (State.resetUnit { s with schedule := r }) := by
  simp [step, nextTurn, h, takeTurn]

theorem step_nil {s : State} (h : s.schedule = []) : step s = engineTurn s := by
  simp [step, nextTurn, h, takeTurn]

/-- The engine's turn. -/
theorem engineTurn_next {s t : State} (h : engineTurn s = .next t) :
    (s.status.busy = false ∧ t = s) ∨ (s.status.busy = true ∧ completeCommand s = .next t) := by
  unfold engineTurn at h
  split at h
  · exact .inr ⟨‹_›, h⟩
  · cases h
    exact .inl ⟨Bool.eq_false_iff.2 ‹_›, rfl⟩

/-- Everything a step that answers a next state can have done. -/
theorem step_next {s t : State} (h : step s = .next t) :
    (∃ a r, s.schedule = .access a :: r ∧ t = State.hostAccess { s with schedule := r } a) ∨
    (∃ d r, s.schedule = .poll d :: r ∧ t = State.hostPoll { s with schedule := r } d) ∨
    (∃ r, s.schedule = .reset :: r ∧ t = State.resetUnit { s with schedule := r }) ∨
    (∃ r, s.schedule = .engine :: r ∧ engineTurn { s with schedule := r } = .next t) ∨
    (s.schedule = [] ∧ engineTurn s = .next t) := by
  rcases hs : s.schedule with _ | ⟨x, r⟩
  · rw [step_nil hs] at h
    exact .inr (.inr (.inr (.inr ⟨rfl, h⟩)))
  · cases x with
    | access a =>
      rw [step_access hs] at h
      cases h
      exact .inl ⟨_, _, rfl, rfl⟩
    | poll d =>
      rw [step_poll hs] at h
      cases h
      exact .inr (.inl ⟨_, _, rfl, rfl⟩)
    | reset =>
      rw [step_reset hs] at h
      cases h
      exact .inr (.inr (.inl ⟨_, rfl, rfl⟩))
    | engine =>
      rw [step_engine hs] at h
      exact .inr (.inr (.inr (.inl ⟨_, rfl, h⟩)))

/-- The first step of a run. -/
theorem run_step_first {k : Nat} {s t : State} (h : step s = .next t) : core.run (k + 1) s = core.run k t := by
  simp only [Host.Core.run]
  rw [show core.step s = _ from h]

/-- A run followed by one more step. -/
theorem run_step_last {n : Nat} {s t u : State} (h : core.run n s = .next t) (h' : step t = .next u) :
    core.run (n + 1) s = .next u := by
  induction n generalizing s with
  | zero =>
    cases h
    rw [run_step_first h']
    rfl
  | succ n ih =>
    cases hs : step s with
    | next s' =>
      rw [run_step_first hs] at h ⊢
      exact ih h
    | fault f => cases f
    | refused x =>
      have : core.run (n + 1) s = .refused x := by
        simp only [Host.Core.run]
        rw [show core.step s = _ from hs]
      rw [this] at h
      cases h

end Sys2Proof.Machine
end

