-- ==== Sys2Proof/Tests/Slice0.lean ====
section
/-! SUPPORT. Tests: expected values from 95_test_vectors.md (V…, E…, P…) or from the encodings of 30_encoding.md; and
for every statement with hypotheses a state and operands that meet them together (witness_…). -/

open Sys2Proof Sys2Proof.Machine Sys2Proof.Claims

namespace Sys2Proof.Tests

/-! ## Helpers -/

/-- The key of the spec's examples. -/
def K : Block := 0x133457799BBCDFF1#64

/-- The bytes of an ASCII string. -/
def ascii (s : String) : List Byte := s.toList.map fun c => BitVec.ofNat 8 c.toNat

/-- The unit after reset, with the examples' key. -/
def keyed : State := { State.reset with key := K }

/-- A unit with the smallest buffers (TXT_CAP = 8). -/
def small : State := { keyed with cfg := { chunks := 0 } }

def withText (s : State) (bytes : List Byte) : State := (s.storeText bytes).setTlen bytes.length

def withBlocks (s : State) (bs : List Block) : State := (s.storeBlocks bs).setNblk bs.length

def withHex (s : State) (h : List Byte) : State := (s.storeHex h).setHlen h.length

def strictly (s : State) : State := { s with ctrl := { s.ctrl with strict := true } }

def busy (s : State) : State := { s with status := { s.status with busy := true } }

def scheduled (s : State) (ts : List Turn) : State := { s with schedule := ts }

/-- The state a command's completion step answers. -/
def ran (i : Instr) (s : State) : State :=
  match exec i s with
  | .next t => t
  | .fault _ => s
  | .refused _ => s

theorem exec_ran (i : Instr) (s : State) : exec i s = .next (ran i s) := by
  rcases exec_answer i s with ⟨w, h, _⟩ | ⟨e, h⟩ <;> rw [ran, h]

/-- The state a step answers. -/
def stepped (s : State) : State :=
  match step s with
  | .next t => t
  | .fault _ => s
  | .refused _ => s

/-- The state after a number of steps. -/
def ranSteps : Nat → State → State
  | 0, s => s
  | n + 1, s => ranSteps n (stepped s)

/-! ## Well-formedness -/

theorem test_reserved_bit_ill_formed : Cmd32.wellFormed { rsv := 1#24, opc := 0x04#8 } = false := by decide

theorem test_reserved_opcode_ill_formed :
    Cmd32.wellFormed { rsv := 0#24, opc := 0x0E#8 } = false ∧
      Cmd32.wellFormed { rsv := 0#24, opc := 0x0D#8 } = true := by decide

theorem test_misaligned_target_ill_formed :
    (Target.txt 2).wellFormed = false ∧ (Target.blk 3).wellFormed = false ∧ (Target.hex 1).wellFormed = false ∧
      (Target.rk 6).wellFormed = false := by decide

theorem test_target_outside_window_ill_formed :
    (Target.txt 0xF000).wellFormed = false ∧ (Target.blk 0xE000).wellFormed = false ∧
      (Target.hex 0xC000).wellFormed = false ∧ (Target.rk 0xFF00).wellFormed = false := by decide

theorem test_line_beyond_capacity_ill_formed :
    (Line.puttxt (ascii "ABCDEFGHI")).wellFormed { chunks := 0 } = false ∧
      (Line.puthex (ascii "00000000000000000")).wellFormed { chunks := 0 } = false ∧
      (Line.stmt (.rd (.txt 1))).wellFormed Config.reference = false := by decide

/-! ## Decoding: words written out from R90 and R92 (RSV, then OPC) -/

theorem test_decode_control : decode 0b00000000000000000000000000000000#32 = .ok .nop := by decide

theorem test_decode_sbox : decode 0b00000000000000000000000000000001#32 = .ok .sbox := by decide

theorem test_decode_keyschedule : decode 0b00000000000000000000000000000010#32 = .ok .keygen := by decide

theorem test_decode_round : decode 0b00000000000000000000000000000011#32 = .ok .roundf := by decide

theorem test_decode_feistel :
    decode 0b00000000000000000000000000000100#32 = .ok .encb ∧
    decode 0b00000000000000000000000000000101#32 = .ok .decb ∧
    decode 0b00000000000000000000000000001000#32 = .ok .encecb ∧
    decode 0b00000000000000000000000000001001#32 = .ok .dececb := by decide

theorem test_decode_codec :
    decode 0b00000000000000000000000000000110#32 = .ok .t2b ∧
    decode 0b00000000000000000000000000000111#32 = .ok .b2t := by decide

theorem test_decode_pipeline :
    decode 0b00000000000000000000000000001010#32 = .ok .b2h ∧
    decode 0b00000000000000000000000000001011#32 = .ok .h2b ∧
    decode 0b00000000000000000000000000001100#32 = .ok .enctxt ∧
    decode 0b00000000000000000000000000001101#32 = .ok .dectxt := by decide

/-- V82, and the first and the last reserved opcode. -/
theorem test_decode_illegal :
    decode 0x0000000E#32 = .error .reservedOpcode ∧ decode 0x000000FF#32 = .error .reservedOpcode ∧
    decode 0x00000104#32 = .error .reservedBits ∧ decode 0x80000000#32 = .error .reservedBits := by decide

theorem test_decodeTableWord :
    decodeTableWord 32 0x0000000C = some .enctxt ∧ decodeTableWord 8 0x0A = some .b2h ∧
    decodeTableWord 32 0x0000010C = none ∧ decodeTableWord 32 0x0E = none := by decide

/-- The step after `withFetchWord` runs the command (here NOP and ENCB on the unit after reset). -/
theorem test_withFetchWord :
    (stepped (State.reset.withFetchWord 32 0x00)).status.toWord = 0x00000002#32 ∧
    (stepped (State.reset.withFetchWord 32 0x04)).bout = 0xEEEEEEEE00000000#64 := by decide

/-! ## Commands -/

/-- V80. -/
theorem test_nop : (ran .nop State.reset).status.toWord = 0x00000002#32 := by decide

/-- V81. -/
theorem test_nop_after_failure :
    (ran .nop { State.reset with
      status := { Status.reset with busy := true, err := true, errcode := 4#4 }, errinfo := 0xF#32 }).status.toWord =
        0x00000006#32 := by decide

/-- V2. -/
theorem test_sbox :
    (ran .sbox { State.reset with arg0 := 0x1234567E#32 }).res = 0x00000000#32 ∧
    (ran .sbox { State.reset with arg0 := 0x80000005#32 }).res = 0x0000000F#32 := by decide

/-- V10. -/
theorem test_keygen :
    (ran .keygen keyed).rk.toList.take 9 =
      [0x9BBCDFF1#32, 0xF33779BF#32, 0x5DE66EF3#32, 0xA2BBCCDD#32, 0x33457799#32, 0x22668AEF#32, 0xFC44CD15#32,
        0x6FF8899A#32, 0#32] := by decide

set_option maxRecDepth 8000 in
/-- V12. -/
theorem test_keygen_last :
    (ran .keygen { keyed with rounds := 64#7 }).rk[60] = 0x11334577#32 ∧
    (ran .keygen { keyed with rounds := 64#7 }).rk[63] = 0xDE6FF889#32 := by decide

/-- V20. -/
theorem test_roundf :
    (ran .roundf { State.reset with arg0 := 0x12345678#32 }).res = 0x4D12FB83#32 ∧
    (ran .roundf { State.reset with arg0 := 0xDEADBEEF#32, arg1 := 0x01234567#32 }).res = 0x97307C33#32 := by decide

/-- V30. -/
theorem test_encb : (ran .encb { keyed with bin := 0x0123456789ABCDEF#64 }).bout = 0xFC7DAA7E323346A1#64 := by decide

/-- V30, N = 1. -/
theorem test_encb_one_round :
    (ran .encb { keyed with bin := 0x0123456789ABCDEF#64, rounds := 1#7 }).bout = 0x89ABCDEF4C6B0827#64 := by decide

/-- V30. -/
theorem test_decb : (ran .decb { keyed with bin := 0x0123456789ABCDEF#64 }).bout = 0x96AA09E311A598A9#64 := by decide

/-- V30, N = 64. -/
theorem test_decb_all_rounds :
    (ran .decb { keyed with bin := 0x0123456789ABCDEF#64, rounds := 64#7 }).bout = 0x2C4F7AA5125CE5E7#64 := by decide

/-- V40. -/
theorem test_encecb :
    (ran .encecb (withBlocks keyed [0x4142434445464748#64, 0x4900000000000000#64])).blocks =
      [0xBC42570D09266246#64, 0x3E40E4BF859D6122#64] := by decide

/-- V43. -/
theorem test_encecb_range :
    (ran .encecb { keyed with nblk := 513#32 }).status.toWord = 0x00000206#32 ∧
    (ran .encecb { keyed with nblk := 513#32 }).errinfo = 0x201#32 := by decide

/-- V40. -/
theorem test_dececb :
    (ran .dececb (withBlocks keyed [0xBC42570D09266246#64, 0x3E40E4BF859D6122#64])).blocks =
      [0x4142434445464748#64, 0x4900000000000000#64] := by decide

/-- V50. -/
theorem test_t2b :
    (ran .t2b (withText keyed (ascii "Hello, World!"))).blocks = [0x48656C6C6F2C2057#64, 0x6F726C6421000000#64] := by
  decide

/-- V50. -/
theorem test_t2b_strict :
    (ran .t2b (strictly (withText keyed [0x41#8, 0x42#8, 0xC3#8, 0xA9#8]))).status.toWord = 0x00000506#32 ∧
    (ran .t2b (strictly (withText keyed [0x41#8, 0x42#8, 0xC3#8, 0xA9#8]))).errinfo = 2#32 := by decide

/-- V51: bytes are dropped before NULs are stripped, block by block. -/
theorem test_b2t :
    (ran .b2t (withBlocks keyed [0x80814142FF430000#64])).textBytes = ascii "ABC" ∧
    (ran .b2t (withBlocks keyed [0x80814142FF430000#64])).status.toWord = 0x00000012#32 := by decide

/-- V51: a NUL that ends a block is lost, NULs that open a later block are kept. -/
theorem test_b2t_nuls :
    (ran .b2t (withBlocks keyed [0x4142434445464700#64, 0x4800000000000000#64])).textBytes = ascii "ABCDEFGH" ∧
    (ran .b2t (withBlocks keyed [0x4100000000000000#64, 0x0000420000000000#64])).textBytes =
      [0x41#8, 0x00#8, 0x00#8, 0x42#8] := by decide

/-- V60. -/
theorem test_b2h :
    (ran .b2h (withBlocks keyed [0x3702E4BF88616122#64])).hexBytes = ascii "3702e4bf88616122" := by decide

/-- V60, by a host read of the window. -/
theorem test_b2h_window :
    ((ran .b2h (withBlocks keyed [0x3702E4BF88616122#64])).hostAccess (.read 0x4004#16 .word)).bus =
      .readData 0x65346266#32 := by decide

/-- V61. -/
theorem test_h2b :
    (ran .h2b (withHex keyed (ascii "0123456789ABCDEF"))).blocks = [0x0123456789ABCDEF#64] := by decide

/-- V61: the length is checked before the digits. -/
theorem test_h2b_errors :
    ((ran .h2b (withHex keyed (ascii "3702e4bf88616122 "))).status.toWord = 0x00000306#32 ∧
      (ran .h2b (withHex keyed (ascii "3702e4bf88616122 "))).errinfo = 0x11#32) ∧
    ((ran .h2b (withHex keyed (ascii "0x23456789abcdef"))).status.toWord = 0x00000406#32 ∧
      (ran .h2b (withHex keyed (ascii "0x23456789abcdef"))).errinfo = 1#32) := by decide

/-- V70. -/
theorem test_enctxt :
    (ran .enctxt (withText keyed (ascii "ABCDEFGHI"))).hexBytes = ascii "bc42570d092662463e40e4bf859d6122" := by decide

/-- V74. -/
theorem test_enctxt_range :
    (ran .enctxt { keyed with tlen := 4097#32 }).status.toWord = 0x00000206#32 ∧
    (ran .enctxt { keyed with tlen := 4097#32 }).errinfo = 0x1001#32 := by decide

/-- V71, uppercase. -/
theorem test_dectxt :
    (ran .dectxt (withHex keyed (ascii "3702E4BF88616122"))).textBytes = ascii "Hi" := by decide

/-- V72: the wrong key, in both policies. -/
theorem test_dectxt_wrong_key :
    (ran .dectxt (withHex { keyed with key := K ^^^ 1#64 } (ascii "3702e4bf88616122"))).textBytes =
      [0x79#8, 0x0A#8] ∧
    (ran .dectxt (withHex (strictly { keyed with key := K ^^^ 1#64 }) (ascii "3702e4bf88616122"))).status.toWord =
      0x00000506#32 := by decide

/-! ## Host accesses, turns and scripts -/

/-- V90. -/
theorem test_rounds_write :
    (keyed.hostAccess (.write 0x0014#16 .word 0x00000108#32)).rounds = 8#7 ∧
    (keyed.hostAccess (.write 0x0014#16 .word 0x00000108#32)).status.wign = true ∧
    (keyed.hostAccess (.write 0x0014#16 .word 64#32)).rounds = 64#7 := by decide

/-- V92. -/
theorem test_status_write :
    ({ keyed with
      status := { busy := false, done := true, err := true, wign := true, lossy := true, errcode := 4#4 } }.hostAccess
        (.write 0x0008#16 .word 0x0000001E#32)).status.toWord = 0x00000400#32 := by decide

/-- V94. -/
theorem test_block_word_write :
    ((withBlocks keyed [0x4869000000000000#64]).hostAccess (.write 0x2004#16 .word 0x11223344#32)).blk 0 =
      0x4869000011223344#64 := by decide

/-- V93. -/
theorem test_bus_error :
    (keyed.hostAccess (.write 0x0002#16 .word 1#32)).bus = .busError ∧
    (keyed.hostAccess (.read 0x0008#16 .byte)).bus = .busError := by decide

/-- P6 (a): the completion step first, then the write. -/
theorem test_engine_first :
    (stepped (stepped (scheduled (busy { keyed with cmd := 4#32, bin := 0x0123456789ABCDEF#64 })
      [.engine, .access (.write 0x0030#16 .word 0#32)]))).bin = 0x0123456700000000#64 := by decide

/-- P6 (b): the write first, which is ignored; then the completion step. -/
theorem test_write_first :
    (stepped (stepped (scheduled (busy { keyed with cmd := 4#32, bin := 0x0123456789ABCDEF#64 })
      [.access (.write 0x0030#16 .word 0#32), .engine]))).status.toWord = 0x0000000A#32 := by decide

/-- P2: lines of a script and their transactions. -/
theorem test_script :
    parseScript ["setkey 0x133457799BBCDFF1".toList, "puttxt \"Hi\"   ; wr TXT+0, 0x48690000".toList,
      "run ENCTXT".toList, "rd HEX+4".toList] =
      some [.setkey K, .puttxt (ascii "Hi"), .run .enctxt, .stmt (.rd (.hex 4))] ∧
    encodeScript [.setkey K, .puttxt (ascii "Hi"), .run .enctxt, .stmt (.rd (.hex 4))] =
      [.write 0x0018#16 0x13345779#32, .write 0x001C#16 0x9BBCDFF1#32, .write 0x1000#16 0x48690000#32,
        .write 0x003C#16 2#32, .write 0x000C#16 0x0000000C#32, .wait, .read 0x4004#16] := by decide

/-- P3 (`run H2B`): a `wait` without delay lets the engine complete before its first read of `STATUS`, which then sees
BUSY 0; with a delay that read sees BUSY 1 (LATENCY is open: R95). -/
theorem test_wait_delays :
    (ranSteps 3 (scheduled (withHex small (ascii "123")) (scheduleOf (encodeScript [.run .h2b]) []))).bus =
      .readData 0x00000306#32 ∧
    (ranSteps 2 (scheduled (withHex small (ascii "123")) (scheduleOf (encodeScript [.run .h2b]) [0, 1]))).bus =
      .readData 0x00000001#32 := by decide

/-- P4: a statement with two operands, an empty line, and lines that are no statement. -/
theorem test_script_errors :
    parseLine "wr ROUNDS, 0 ; ignored".toList = some [.stmt (.wr (.reg .rounds) 0#32)] ∧
    parseLine "   ; nothing".toList = some [] ∧ parseLine "cmd FOO".toList = none ∧
    parseLine "wr ROUNDS 0".toList = none ∧ parseLine "wr CMD, 0x100000000".toList = none := by decide

/-! ## Witnesses -/

theorem witness_ResetTurnRestoresRegisters :
    (scheduled keyed [.reset, .engine]).schedule = .reset :: [.engine] := by decide

theorem witness_StepRunsDecodedCommand :
    ((busy { keyed with cmd := 4#32 }).status.busy = true ∧ decode (busy { keyed with cmd := 4#32 }).cmd = .ok .encb ∧
      (busy { keyed with cmd := 4#32 }).schedule = []) ∧
    ((scheduled (busy { keyed with cmd := 4#32 }) [.engine]).status.busy = true ∧
      (scheduled (busy { keyed with cmd := 4#32 }) [.engine]).schedule = .engine :: []) ∧
    (scheduled keyed [.access (.read 0#16 .word)]).schedule = .access (.read 0#16 .word) :: [] ∧
    ((scheduled keyed [.engine]).status.busy = false ∧ (scheduled keyed [.engine]).schedule = .engine :: []) ∧
    (keyed.status.busy = false ∧ keyed.schedule = []) := by decide

/-- Both kinds of illegal word, at the boundaries; idle, and busy with each word. -/
theorem witness_IllegalWordCompletesWithIllcmd :
    (0x00000100#32).extractLsb' 8 24 ≠ 0#24 ∧ 0x0E ≤ ((0x0000000E#32).extractLsb' 0 8).toNat ∧
    0x0E ≤ ((0x000000FF#32).extractLsb' 0 8).toNat ∧ keyed.status.busy = false ∧
    ((scheduled (busy { keyed with cmd := 0x0000000E#32 }) [.engine]).status.busy = true ∧
      (scheduled (busy { keyed with cmd := 0x0000000E#32 }) [.engine]).cmd = 0x0000000E#32 ∧
      (scheduled (busy { keyed with cmd := 0x0000000E#32 }) [.engine]).schedule = .engine :: []) := by decide

theorem witness_IssueAcceptsAnyWord : keyed.status.busy = false ∧ (busy keyed).status.busy = true := by decide

/-- A reachable state and its step (a write of ROUNDS). -/
theorem witness_StepKeepsInvariant :
    (scheduled (withText keyed (ascii "Hi")) [.access (.write 0x0014#16 .word 64#32)]).Inv ∧
    step (scheduled (withText keyed (ascii "Hi")) [.access (.write 0x0014#16 .word 64#32)]) =
      .next (stepped (scheduled (withText keyed (ascii "Hi")) [.access (.write 0x0014#16 .word 64#32)])) :=
  ⟨⟨by decide, by decide, by decide, by decide, by decide⟩, rfl⟩

/-- One word of each kind. -/
theorem witness_DecodeInvertsEncode :
    decode 0x0000000D#32 = .ok .dectxt ∧ (0xFFFFFF00#32).extractLsb' 8 24 ≠ 0#24 ∧
    ((0x0000000E#32).extractLsb' 8 24 = 0#24 ∧ 0x0E ≤ ((0x0000000E#32).extractLsb' 0 8).toNat) := by decide

/-- Shifts and entries at both ends of the period, and the last key of the longest schedule. -/
theorem witness_RoundKeysFollowFormula :
    (0 < 64 ∧ 63 < 64) ∧ (63 < 64 ∧ shiftAmount 63 = shiftAmount 63) ∧ (∀ n ∈ [1, 64], n - 1 < n) := by decide

theorem witness_RoundKeyIsRotation : (0 < 1 ∧ 1 < 64) ∧ (0 < 63 ∧ 63 < 64) ∧ 0 < 32 ∧ 31 < 32 := by decide

theorem witness_KeygenResult :
    (0 < 64 ∧ 0 < keyed.rounds.toNat) ∧ (63 < 64 ∧ ¬ 63 < keyed.rounds.toNat) := by decide

theorem witness_RoundFunctionNibbles : 0 < 8 ∧ 7 < 8 := by decide

/-- V32, the left halves of the trace. -/
def traceL (i : Nat) : Word :=
  [0x01234567#32, 0x89ABCDEF#32, 0x4C6B0827#32, 0x4E5E494C#32, 0x0DA8D0E0#32, 0x291F0C55#32, 0x4B5E5CB5#32,
    0x930C97A3#32, 0xFC7DAA7E#32].getD i 0#32

/-- V32, the right halves of the trace. -/
def traceR (i : Nat) : Word :=
  [0x89ABCDEF#32, 0x4C6B0827#32, 0x4E5E494C#32, 0x0DA8D0E0#32, 0x291F0C55#32, 0x4B5E5CB5#32, 0x930C97A3#32,
    0xFC7DAA7E#32, 0x323346A1#32].getD i 0#32

theorem witness_EncryptFollowsRounds :
    traceL 0 = (0x0123456789ABCDEF#64).extractLsb' 32 32 ∧ traceR 0 = (0x0123456789ABCDEF#64).extractLsb' 0 32 ∧
    ∀ i < 8, traceL (i + 1) = traceR i ∧ traceR (i + 1) = traceL i ^^^ roundFunction (traceR i) (roundKey K i) := by
  decide

theorem witness_DecryptFollowsRounds :
    traceL 8 = (0xFC7DAA7E323346A1#64).extractLsb' 32 32 ∧ traceR 8 = (0xFC7DAA7E323346A1#64).extractLsb' 0 32 ∧
    ∀ i < 8, traceL i = traceR (i + 1) ^^^ roundFunction (traceL (i + 1)) (roundKey K i) ∧
      traceR i = traceL (i + 1) := by
  decide

/-- The largest count that runs, the least that does not, and a count of 0. -/
theorem witness_EncecbResult :
    keyed.cfg.blkCap < { keyed with nblk := 513#32 }.nblk.toNat ∧
    { keyed with nblk := 512#32 }.nblk.toNat ≤ keyed.cfg.blkCap ∧ keyed.nblk.toNat ≤ keyed.cfg.blkCap ∧
    511 < { keyed with nblk := 512#32 }.nblk.toNat := by decide

theorem witness_DececbResult :
    small.cfg.blkCap < { small with nblk := 2#32 }.nblk.toNat ∧
    { small with nblk := 1#32 }.nblk.toNat ≤ small.cfg.blkCap ∧ 0 < { small with nblk := 1#32 }.nblk.toNat := by decide

theorem witness_EcbRestoresBuffers :
    (withBlocks keyed [0x4142434445464748#64, 0x4900000000000000#64]).nblk.toNat ≤
      (withBlocks keyed [0x4142434445464748#64, 0x4900000000000000#64]).cfg.blkCap := by decide

/-- Nine bytes: the first byte, the last one, and the first padding byte. -/
theorem witness_PackPadsBigEndian :
    9 ≤ (ascii "ABCDEFGHI").length ∧ 0 < (9 + 7) / 8 ∧ 1 < (9 + 7) / 8 ∧ 0 < 8 ∧ 7 < 8 ∧ 8 * 1 + 0 < 9 ∧
    ¬ 8 * 1 + 1 < 9 := by decide

/-- V51: the decoded text of two blocks. -/
theorem witness_UnpackStripsEachBlock :
    2 ≤ [0x4142434445464700#64, 0x4800000000000000#64].length ∧
    ascii "ABCDEFGH" = (([0x4142434445464700#64, 0x4800000000000000#64].take 2).flatMap fun b =>
      (((List.range 8).map fun p => b.extractLsb' (56 - 8 * p) 8).filter fun c : Byte =>
        decide (c.toNat < 0x80)).rdropWhile fun c => decide (c = 0#8)) := by decide

theorem witness_TextToBlocksResult :
    (small.cfg.txtCap < { small with tlen := 9#32 }.tlen.toNat) ∧
    ((strictly (withText small [0x41#8, 0xC3#8])).tlen.toNat ≤ (strictly (withText small [0x41#8, 0xC3#8])).cfg.txtCap ∧
      (strictly (withText small [0x41#8, 0xC3#8])).ctrl.strict = true ∧
      1 < (strictly (withText small [0x41#8, 0xC3#8])).tlen.toNat ∧
      0x80 ≤ ((strictly (withText small [0x41#8, 0xC3#8])).txt 1).toNat ∧
      ∀ b' < 1, ((strictly (withText small [0x41#8, 0xC3#8])).txt b').toNat < 0x80) ∧
    ((strictly (withText small (ascii "ABCDEFGH"))).tlen.toNat ≤ small.cfg.txtCap ∧
      ∀ b < (strictly (withText small (ascii "ABCDEFGH"))).tlen.toNat,
        ((strictly (withText small (ascii "ABCDEFGH"))).txt b).toNat < 0x80) ∧
    0 < ceil8 (withText small (ascii "ABCDEFGH")).tlen.toNat := by decide

/-- The strict clause at byte 2 of block 0; the last clause with and without STRICT. -/
theorem witness_BlocksToTextResult :
    (small.cfg.blkCap < { small with nblk := 2#32 }.nblk.toNat) ∧
    ((strictly (withBlocks small [0x4142C3A900000000#64])).nblk.toNat ≤ small.cfg.blkCap ∧
      (strictly (withBlocks small [0x4142C3A900000000#64])).ctrl.strict = true ∧
      0 < (strictly (withBlocks small [0x4142C3A900000000#64])).nblk.toNat ∧
      0x80 ≤ (blockByte ((strictly (withBlocks small [0x4142C3A900000000#64])).blk 0) 2).toNat ∧
      ∀ p' < 2, (blockByte ((strictly (withBlocks small [0x4142C3A900000000#64])).blk 0) p').toNat < 0x80) ∧
    ((withBlocks small [0x4142C3A900000000#64]).nblk.toNat ≤ small.cfg.blkCap ∧
      (withBlocks small [0x4142C3A900000000#64]).ctrl.strict = false) ∧
    (∀ j < (strictly (withBlocks small [0x4869000000000000#64])).nblk.toNat, ∀ p < 8,
      (blockByte ((strictly (withBlocks small [0x4869000000000000#64])).blk j) p).toNat < 0x80) := by decide

/-- A text that meets the conditions of R165 and three that fail one each (V52). -/
theorem witness_CodecRoundTrip :
    unpack (pack (ascii "ABCDEFGHI") 9) 2 = ascii "ABCDEFGHI" ∧
    unpack (pack [0x48#8, 0x69#8, 0x00#8] 3) 1 = ascii "Hi" ∧
    unpack (pack (ascii "ABCDEFG" ++ [0x00#8, 0x48#8]) 9) 2 = ascii "ABCDEFGH" ∧
    unpack (pack [0x41#8, 0x42#8, 0xC3#8, 0xA9#8] 4) 1 = ascii "AB" := by decide

theorem witness_RenderWritesSixteenDigits :
    1 ≤ [0x3702E4BF88616122#64].length ∧ 0 < 1 ∧ 0 < 16 ∧ 15 < 16 := by decide

theorem witness_ParseUndoesRender :
    16 ≤ (ascii "3702E4BF88616122").length ∧ 16 % 16 = 0 ∧
    (∀ b < 16, (hexVal ((ascii "3702E4BF88616122").getD b 0#8)).isSome) ∧ 0 < 16 / 16 ∧ 15 < 16 := by decide

theorem witness_BlocksToHexResult :
    keyed.cfg.blkCap < { keyed with nblk := 513#32 }.nblk.toNat ∧
    { keyed with nblk := 512#32 }.nblk.toNat ≤ keyed.cfg.blkCap ∧
    (511 < { keyed with nblk := 512#32 }.nblk.toNat ∧ 15 < 16) := by decide

/-- Each clause: beyond the capacity, a wrong length, a bad digit at index 15, and sixteen digits. -/
theorem witness_HexToBlocksResult :
    (small.cfg.hexCap < { small with hlen := 17#32 }.hlen.toNat) ∧
    ((withHex small (ascii "123")).hlen.toNat ≤ small.cfg.hexCap ∧ (withHex small (ascii "123")).hlen.toNat % 16 ≠ 0) ∧
    ((withHex small (ascii "000000000000000g")).hlen.toNat ≤ small.cfg.hexCap ∧
      (withHex small (ascii "000000000000000g")).hlen.toNat % 16 = 0 ∧
      15 < (withHex small (ascii "000000000000000g")).hlen.toNat ∧
      hexVal ((withHex small (ascii "000000000000000g")).hex 15) = none ∧
      ∀ b' < 15, (hexVal ((withHex small (ascii "000000000000000g")).hex b')).isSome) ∧
    ((withHex small (ascii "0123456789ABCDEF")).hlen.toNat ≤ small.cfg.hexCap ∧
      (withHex small (ascii "0123456789ABCDEF")).hlen.toNat % 16 = 0 ∧
      ∀ b < (withHex small (ascii "0123456789ABCDEF")).hlen.toNat,
        (hexVal ((withHex small (ascii "0123456789ABCDEF")).hex b)).isSome) := by decide

theorem witness_EncryptTextResult :
    (keyed.cfg.txtCap < { keyed with tlen := 4097#32 }.tlen.toNat ∧
      { keyed with tlen := 4096#32 }.tlen.toNat ≤ keyed.cfg.txtCap) ∧
    ((strictly (withText small [0xFF#8])).tlen.toNat ≤ small.cfg.txtCap ∧
      (strictly (withText small [0xFF#8])).ctrl.strict = true ∧
      0 < (strictly (withText small [0xFF#8])).tlen.toNat ∧
      0x80 ≤ ((strictly (withText small [0xFF#8])).txt 0).toNat) ∧
    ((strictly (withText small (ascii "Hi"))).tlen.toNat ≤ small.cfg.txtCap ∧
      ∀ b < (strictly (withText small (ascii "Hi"))).tlen.toNat,
        ((strictly (withText small (ascii "Hi"))).txt b).toNat < 0x80) := by decide

/-- "Hi" encrypted, and the same under the wrong key of V72. -/
def cipherHi : State := withHex small (ascii "3702e4bf88616122")

def wrongKey : State := strictly { cipherHi with key := K ^^^ 1#64 }

/-- A unit that differs from the one that encrypted "Hi" in capacity and in policy. -/
def otherUnit : State := strictly (withHex keyed (ascii "3702e4bf88616122"))

/-- The clauses of H2B's checks. -/
theorem witness_DecryptTextResult :
    (small.cfg.hexCap < { small with hlen := 17#32 }.hlen.toNat) ∧
    ((withHex small (ascii "123")).hlen.toNat ≤ small.cfg.hexCap ∧ (withHex small (ascii "123")).hlen.toNat % 16 ≠ 0) ∧
    ((withHex small (ascii "z000000000000000")).hlen.toNat ≤ small.cfg.hexCap ∧
      (withHex small (ascii "z000000000000000")).hlen.toNat % 16 = 0 ∧
      0 < (withHex small (ascii "z000000000000000")).hlen.toNat ∧
      hexVal ((withHex small (ascii "z000000000000000")).hex 0) = none) := by
  decide

/-- The strict clause (V72: byte 0 of block 0 is 0xE8) and the last clause in both policies. -/
theorem witness_DecryptTextResult_digits :
    (wrongKey.hlen.toNat ≤ wrongKey.cfg.hexCap ∧ wrongKey.hlen.toNat % 16 = 0 ∧
      (∀ b < wrongKey.hlen.toNat, (hexVal (wrongKey.hex b)).isSome) ∧ wrongKey.ctrl.strict = true ∧
      0 < wrongKey.hlen.toNat / 16 ∧
      0x80 ≤ (blockByte (decrypt (parsedBlock wrongKey 0) wrongKey.key wrongKey.rounds.toNat) 0).toNat) ∧
    (cipherHi.hlen.toNat ≤ cipherHi.cfg.hexCap ∧ cipherHi.hlen.toNat % 16 = 0 ∧
      (∀ b < cipherHi.hlen.toNat, (hexVal (cipherHi.hex b)).isSome) ∧ cipherHi.ctrl.strict = false) ∧
    ((strictly cipherHi).ctrl.strict = true ∧ (strictly cipherHi).hlen.toNat / 16 = 1 ∧
      ∀ q < 8, (blockByte (decrypt (parsedBlock (strictly cipherHi) 0) (strictly cipherHi).key
        (strictly cipherHi).rounds.toNat) q).toNat < 0x80) := by
  decide

theorem witness_EncryptTextIsThreeCommands :
    (strictly (withText small (ascii "Hi"))).mem.wf ∧
    (strictly (withText small (ascii "Hi"))).tlen.toNat ≤ (strictly (withText small (ascii "Hi"))).cfg.txtCap ∧
    ((strictly (withText small (ascii "Hi"))).ctrl.strict = true →
      ∀ b < (strictly (withText small (ascii "Hi"))).tlen.toNat,
        ((strictly (withText small (ascii "Hi"))).txt b).toNat < 0x80) := by decide

theorem witness_DecryptTextIsThreeCommands :
    (withHex small (ascii "3702e4bf88616122")).mem.wf ∧
    exec .dectxt (withHex small (ascii "3702e4bf88616122")) =
      .next (ran .dectxt (withHex small (ascii "3702e4bf88616122"))) ∧
    (ran .dectxt (withHex small (ascii "3702e4bf88616122"))).status.errcode = 0#4 :=
  ⟨by decide, exec_ran _ _, by decide⟩

/-- "ABCDEFGHI", and the empty text. -/
theorem witness_CiphertextLength :
    (exec .enctxt (withText keyed (ascii "ABCDEFGHI")) = .next (ran .enctxt (withText keyed (ascii "ABCDEFGHI"))) ∧
      (ran .enctxt (withText keyed (ascii "ABCDEFGHI"))).status.errcode = 0#4) ∧
    (exec .enctxt keyed = .next (ran .enctxt keyed) ∧ (ran .enctxt keyed).status.errcode = 0#4 ∧
      keyed.tlen = 0#32) :=
  ⟨⟨exec_ran _ _, by decide⟩, exec_ran _ _, by decide, by decide⟩

/-- "Hi" encrypted by the smallest unit in the lossy policy, and moved to a strict unit of the reference capacity. -/
theorem witness_TextRoundTrip :
    ((withText small (ascii "Hi")).tlen.toNat ≤ (withText small (ascii "Hi")).cfg.txtCap ∧
      (withText small (ascii "Hi")).ctrl.strict = false ∧
      exec .enctxt (withText small (ascii "Hi")) = .next (ran .enctxt (withText small (ascii "Hi")))) ∧
    (otherUnit.key = (withText small (ascii "Hi")).key ∧ otherUnit.rounds = (withText small (ascii "Hi")).rounds ∧
      otherUnit.hlen = (ran .enctxt (withText small (ascii "Hi"))).hlen ∧
      otherUnit.hlen.toNat ≤ otherUnit.cfg.hexCap ∧ otherUnit.ctrl.strict = true ∧
      (∀ b < (withText small (ascii "Hi")).tlen.toNat, ((withText small (ascii "Hi")).txt b).toNat < 0x80) ∧
      ∀ b < 16, otherUnit.hex b = (ran .enctxt (withText small (ascii "Hi"))).hex b) :=
  ⟨⟨by decide, by decide, exec_ran _ _⟩, by decide⟩

theorem witness_FailureChangesNothing :
    exec .b2h { keyed with nblk := 513#32 } = .next (ran .b2h { keyed with nblk := 513#32 }) ∧
    (ran .b2h { keyed with nblk := 513#32 }).status.errcode ≠ 0#4 :=
  ⟨exec_ran _ _, by decide⟩

theorem witness_CommandsKeepInputRegisters :
    exec .sbox { keyed with status := { Status.reset with busy := true, err := true, lossy := true } } =
      .next (ran .sbox { keyed with status := { Status.reset with busy := true, err := true, lossy := true } }) ∧
    (ran .sbox { keyed with status := { Status.reset with busy := true, err := true, lossy := true } }).status.errcode =
      0#4 :=
  ⟨exec_ran _ _, by decide⟩

/-- NOP on an idle unit; the engine's turn on a busy one, with a legal and with an illegal word; an idle unit that has
completed a command; and a reset. -/
theorem witness_CompletionRaisesIrq :
    exec .nop { keyed with ctrl := { ie := true, strict := false } } =
      .next (ran .nop { keyed with ctrl := { ie := true, strict := false } }) ∧
    (∀ c ∈ [0x00000000#32, 0x0000000E#32],
      (scheduled (busy { keyed with cmd := c }) [.engine]).status.busy = true ∧
      (scheduled (busy { keyed with cmd := c }) [.engine]).schedule = .engine :: [] ∧
      step (scheduled (busy { keyed with cmd := c }) [.engine]) =
        .next (stepped (scheduled (busy { keyed with cmd := c }) [.engine]))) ∧
    { keyed with status := { Status.reset with done := true } }.status.busy = false ∧
    ((scheduled keyed [.reset]).schedule = .reset :: [] ∧
      step (scheduled keyed [.reset]) = .next (stepped (scheduled keyed [.reset]))) := by
  refine ⟨exec_ran _ _, fun c hc => ?_, rfl, rfl, rfl⟩
  fin_cases hc <;> exact ⟨rfl, rfl, rfl⟩

theorem witness_ResultsIgnoreRoundKeyFile :
    exec .encb keyed = .next (ran .encb keyed) ∧
    exec .encb { keyed with rk := Vector.replicate 64 1#32 } =
      .next (ran .encb { keyed with rk := Vector.replicate 64 1#32 }) ∧ 63 < 64 :=
  ⟨exec_ran _ _, exec_ran _ _, by decide⟩

/-- P6: a write of `BIN_LO`, one of `CTRL`, one of `STATUS` and a read, all while ENCB runs. -/
theorem witness_InputsFrozenWhileBusy :
    (busy keyed).status.busy = true ∧ exec .encb (busy keyed) = .next (ran .encb (busy keyed)) ∧
    exec .encb ([.write 0x0030#16 .word 0#32, .write 0x0004#16 .word 3#32, .write 0x0008#16 .word 0x1E#32,
        .read 0x0028#16 .word].foldl State.hostAccess (busy keyed)) =
      .next (ran .encb ([.write 0x0030#16 .word 0#32, .write 0x0004#16 .word 3#32, .write 0x0008#16 .word 0x1E#32,
        .read 0x0028#16 .word].foldl State.hostAccess (busy keyed))) :=
  ⟨by decide, exec_ran _ _, exec_ran _ _⟩

theorem witness_RefusedAccessChangesNothing :
    AccessWidth.byte ≠ .word ∧ AccessWidth.half ≠ .word ∧ AccessWidth.partialWord ≠ .word ∧
    (0x0001#16).toNat % 4 ≠ 0 ∧ (0xFFFF#16).toNat % 4 ≠ 0 := by decide

theorem witness_WriteWhileBusyIgnored :
    ∀ off ∈ [0x0000#16, 0x000C#16, 0xFFFC#16], (busy keyed).status.busy = true ∧ off.toNat % 4 = 0 ∧
      off ≠ 0x0004#16 ∧ off ≠ 0x0008#16 := by
  intro off h
  fin_cases h <;> decide

theorem witness_StatusAndControlWrites : keyed.status.busy = false ∧ (busy keyed).status.busy = true := by decide

theorem witness_RoundsWriteTakesLegalValues :
    keyed.status.busy = false ∧ (1 ≤ (1#32).toNat ∧ (1#32).toNat ≤ 64) ∧ (1 ≤ (64#32).toNat ∧ (64#32).toNat ≤ 64) ∧
    ¬ (1 ≤ (0#32).toNat ∧ (0#32).toNat ≤ 64) ∧ ¬ (1 ≤ (65#32).toNat ∧ (65#32).toNat ≤ 64) := by decide

/-- A read-only register, and the first and the last entry of `RK`. -/
theorem witness_IdleRegisterWrites :
    keyed.status.busy = false ∧ 0x0038#16 ∈ [0x0034#16, 0x0038#16] ∧ 0 < 64 ∧ 63 < 64 := by decide

theorem witness_ReadsReturnRegisters :
    keyed.status.busy = false ∧
    (0x0008#16, keyed.status.toWord) ∈ [(0x0004#16, keyed.ctrl.toWord), (0x0008#16, keyed.status.toWord)] := by decide

/-- The first and the last word of each reserved range, at TXT_CAP = 8 and at 4096 (where `TXT`'s window is full). -/
theorem witness_ReservedOffsetsReadZero :
    (∀ off ∈ [0x0048#16, 0x00FC#16], off.toNat % 4 = 0 ∧ 0x0048 ≤ off.toNat ∧ off.toNat < 0x0100) ∧
    (∀ off ∈ [0x0200#16, 0x0FFC#16], off.toNat % 4 = 0 ∧ 0x0200 ≤ off.toNat ∧ off.toNat < 0x1000) ∧
    (∀ off ∈ [0x1008#16, 0x1FFC#16], off.toNat % 4 = 0 ∧ 0x1000 + small.cfg.txtCap ≤ off.toNat ∧ off.toNat < 0x2000) ∧
    (∀ off ∈ [0x2008#16, 0x3FFC#16], 0x2000 + 8 * small.cfg.blkCap ≤ off.toNat ∧ off.toNat < 0x4000) ∧
    (∀ off ∈ [0x3000#16, 0x3FFC#16], 0x2000 + 8 * keyed.cfg.blkCap ≤ off.toNat ∧ off.toNat < 0x4000) ∧
    (∀ off ∈ [0x4010#16, 0xFFFC#16], 0x4000 + small.cfg.hexCap ≤ off.toNat) ∧
    (∀ off ∈ [0x6000#16, 0xFFFC#16], 0x4000 + keyed.cfg.hexCap ≤ off.toNat) := by
  refine ⟨?_, ?_, ?_, ?_, ?_, ?_, ?_⟩ <;> intro off h <;> fin_cases h <;> decide

/-- The last word of each buffer. -/
theorem witness_BufferWordsBigEndian :
    keyed.status.busy = false ∧ 4 * 1023 < keyed.cfg.txtCap ∧ 4 * 2047 < keyed.cfg.hexCap ∧ 511 < keyed.cfg.blkCap ∧
    4 * 1 < small.cfg.txtCap ∧ 4 * 3 < small.cfg.hexCap ∧ 0 < small.cfg.blkCap := by decide

/-- A result register, and the first and the last word of RK, TXT, BLK and HEX. -/
theorem witness_BusyReadsAreFree :
    (busy keyed).status.busy = true ∧ (0x0028#16).toNat % 4 = 0 ∧
    (∀ off ∈ [0x0100#16, 0x01FC#16], off.toNat % 4 = 0 ∧ 0x0100 ≤ off.toNat ∧ off.toNat < 0x0200) ∧
    (∀ off ∈ [0x1000#16, 0x1FFC#16], off.toNat % 4 = 0 ∧ 0x1000 ≤ off.toNat ∧ off.toNat < 0x1000 + keyed.cfg.txtCap) ∧
    (∀ off ∈ [0x2000#16, 0x2FFC#16], 0x2000 ≤ off.toNat ∧ off.toNat < 0x2000 + 8 * keyed.cfg.blkCap) ∧
    (∀ off ∈ [0x4000#16, 0x5FFC#16], 0x4000 ≤ off.toNat ∧ off.toNat < 0x4000 + keyed.cfg.hexCap) := by
  refine ⟨by decide, by decide, ?_, ?_, ?_, ?_⟩ <;> intro off h <;> fin_cases h <;> decide

theorem witness_WaitEnds :
    (scheduled (busy keyed) [.poll 0]).schedule = .poll 0 :: [] ∧
    (scheduled (busy keyed) [.poll 7, .engine]).schedule = .poll 7 :: [.engine] := by decide

/-- A text that fills `TXT`, one that does not fill its last word, and the empty text; the first and the last byte
beyond "Hi" in its word, and the bytes on either side of that word. -/
theorem witness_PuttxtLeavesText :
    (∀ b ∈ [2, 3], (ascii "Hi").length ≤ b ∧ b < 4 * (((ascii "Hi").length + 3) / 4)) ∧
    (¬ (0x1000 ≤ 0x0FFF ∧ 0x0FFF < 0x1000 + 4 * (((ascii "Hi").length + 3) / 4)) ∧
      ¬ (0x1000 ≤ 0x1004 ∧ 0x1004 < 0x1000 + 4 * (((ascii "Hi").length + 3) / 4))) ∧
    ∀ text ∈ [ascii "ABCDEFGH", ascii "Hi", []],
      (scheduled small (scheduleOf (encodeScript [.puttxt text]) [])).status.busy = false ∧
      (scheduled small (scheduleOf (encodeScript [.puttxt text]) [])).schedule =
        scheduleOf (encodeScript [.puttxt text]) [] ∧
      text.length ≤ (scheduled small (scheduleOf (encodeScript [.puttxt text]) [])).cfg.txtCap := by decide

end Sys2Proof.Tests
end

section
/-! PROOFS. The host's words of the buffer windows, and how a block entry is made of two of them. -/

namespace Sys2Proof.Machine

open Sys2Proof

/-! Words and blocks. -/

/-- The eight bytes of a block, taken as two words. -/
theorem joinBlock_eq_joinHalves (f : Nat → Byte) :
    joinBlock f = joinHalves (joinWord f) (joinWord fun p => f (4 + p)) := by
  apply BitVec.eq_of_getLsbD_eq
  intro i hi
  simp only [joinBlock, joinHalves, joinWord, BitVec.getLsbD_append]
  interval_cases i <;> rfl

/-- The two words of a block entry (20_memory.md R71). -/
theorem blk_eq_joinHalves (s : State) (j : Nat) :
    s.blk j = joinHalves (s.bufWord (blkBase + 8 * j)) (s.bufWord (blkBase + 8 * j + 4)) := by
  rw [State.blk, joinBlock_eq_joinHalves]
  simp only [State.bufWord, Nat.add_assoc]

theorem highHalf_blk (s : State) (j : Nat) : highHalf (s.blk j) = s.bufWord (blkBase + 8 * j) := by
  rw [blk_eq_joinHalves, highHalf_joinHalves]

theorem lowHalf_blk (s : State) (j : Nat) : lowHalf (s.blk j) = s.bufWord (blkBase + 8 * j + 4) := by
  rw [blk_eq_joinHalves, lowHalf_joinHalves]

/-- Two states with the same four bytes of a window word have the same word. -/
theorem bufWord_congr {s t : State} {off : Nat} (h : ∀ p < 4, t.bufByte (off + p) = s.bufByte (off + p)) :
    t.bufWord off = s.bufWord off :=
  joinWord_congr h

/-- A window word whose four bytes are those of v is v. -/
theorem bufWord_eq_of_bytes {t : State} {off : Nat} {v : Word} (h : ∀ p < 4, t.bufByte (off + p) = wordByte v p) :
    t.bufWord off = v := by
  rw [State.bufWord, joinWord_congr h, joinWord_wordByte]

/-! The offsets of the buffer words. -/

/-- The buffers lie within the 64 KiB window, so the bus offset of one of their words is its place. -/
theorem toNat_bufferOffset {c : Config} {off : Nat} (h : isBuffer c off = true) :
    (BitVec.ofNat 16 off).toNat = off := by
  have hcap := blkCap_le c
  rw [isBuffer_eq_true, hexCap_eq, txtCap_eq] at h
  rw [BitVec.toNat_ofNat]
  omega

theorem isBuffer_txtWord {c : Config} {w : Nat} (h : 4 * w < c.txtCap) : isBuffer c (txtBase + 4 * w) = true :=
  isBuffer_txt c _ _ le_rfl (by omega) (by omega)

theorem isBuffer_hexWord {c : Config} {w : Nat} (h : 4 * w < c.hexCap) : isBuffer c (hexBase + 4 * w) = true :=
  isBuffer_hex c _ _ le_rfl (by omega) (by omega)

theorem isBuffer_blkHigh {c : Config} {j : Nat} (h : j < c.blkCap) : isBuffer c (blkBase + 8 * j) = true :=
  isBuffer_blk c _ _ le_rfl (by omega) (by omega)

theorem isBuffer_blkLow {c : Config} {j : Nat} (h : j < c.blkCap) : isBuffer c (blkBase + 8 * j + 4) = true :=
  isBuffer_blk c _ _ le_rfl (by omega) (by omega)

/-! Accesses of a buffer word while idle. -/

theorem hostAccess_read_buffer (s : State) {off : Nat} (hidle : s.status.busy = false)
    (hbuf : isBuffer s.cfg off = true) (halign : off % 4 = 0) :
    s.hostAccess (.read (BitVec.ofNat 16 off) .word) = { s with bus := .readData (s.bufWord off) } := by
  have hoff := toNat_bufferOffset hbuf
  rw [hostAccess_read _ (by rwa [hoff]), hoff, hostRead_plain _ _ (.inl hidle), readPlace_buffer _ hbuf]

theorem hostAccess_write_buffer (s : State) {off : Nat} (v : Word) (hidle : s.status.busy = false)
    (hbuf : isBuffer s.cfg off = true) (halign : off % 4 = 0) :
    s.hostAccess (.write (BitVec.ofNat 16 off) .word v) = { s.storeWord off v with bus := .writeAck } := by
  have hoff := toNat_bufferOffset hbuf
  rw [hostAccess_write _ _ (by rwa [hoff]), hoff, hostWrite_taken _ _ _ (.inl hidle), writePlace_buffer _ _ hbuf]

/-- `t` is `s` after an acknowledged write of v to the buffer word at `off`: its four bytes are those of v, and no
other byte and no other field has changed. -/
structure WroteWord (s : State) (off : Nat) (v : Word) (t : State) : Prop where
  fields : t = { s with mem := t.mem, bus := .writeAck }
  bytes : ∀ p < 4, t.bufByte (off + p) = wordByte v p
  others : ∀ a, ¬ (off ≤ a ∧ a < off + 4) → t.bufByte a = s.bufByte a

theorem wroteWord_storeWord (s : State) (off : Nat) (v : Word) :
    WroteWord s off v { s.storeWord off v with bus := .writeAck } where
  fields := rfl
  bytes p hp := by
    rw [bufByte_stored rfl (by rwa [length_wordBytes])]
    simp [wordBytes]
  others a ha := bufByte_outside rfl rfl (by rw [length_wordBytes]; omega)

theorem hostAccess_wroteWord (s : State) {off : Nat} (v : Word) (hidle : s.status.busy = false)
    (hbuf : isBuffer s.cfg off = true) (halign : off % 4 = 0) :
    WroteWord s off v (s.hostAccess (.write (BitVec.ofNat 16 off) .word v)) := by
  rw [hostAccess_write_buffer s v hidle hbuf halign]
  exact wroteWord_storeWord s off v

/-- An idle write and an idle read of a buffer word, byte by byte (20_memory.md R69, R70). -/
theorem hostAccess_bufferWord (s : State) {off : Nat} (v : Word) (hidle : s.status.busy = false)
    (hbuf : isBuffer s.cfg off = true) (halign : off % 4 = 0) :
    (∃ t : State, s.hostAccess (.write (BitVec.ofNat 16 off) .word v) = t ∧
      t = { s with mem := t.mem, bus := .writeAck } ∧
      t.bufByte off = v.extractLsb' 24 8 ∧ t.bufByte (off + 1) = v.extractLsb' 16 8 ∧
      t.bufByte (off + 2) = v.extractLsb' 8 8 ∧ t.bufByte (off + 3) = v.extractLsb' 0 8 ∧
      ∀ a, ¬ (off ≤ a ∧ a < off + 4) → t.bufByte a = s.bufByte a) ∧
    s.hostAccess (.read (BitVec.ofNat 16 off) .word) =
      { s with
        bus := .readData (s.bufByte off ++ s.bufByte (off + 1) ++ s.bufByte (off + 2) ++ s.bufByte (off + 3)) } := by
  obtain ⟨hfields, hbytes, hothers⟩ := hostAccess_wroteWord s v hidle hbuf halign
  exact ⟨⟨_, rfl, hfields, hbytes 0 (by decide), hbytes 1 (by decide), hbytes 2 (by decide), hbytes 3 (by decide),
    hothers⟩, hostAccess_read_buffer s hidle hbuf halign⟩

namespace WroteWord

variable {s t : State} {off : Nat} {v : Word}

theorem bufWord_same (h : WroteWord s off v t) : t.bufWord off = v := bufWord_eq_of_bytes h.bytes

theorem bufWord_other (h : WroteWord s off v t) {off' : Nat} (hne : off' + 4 ≤ off ∨ off + 4 ≤ off') :
    t.bufWord off' = s.bufWord off' :=
  bufWord_congr fun p hp => h.others _ (by omega)

/-- A write of an entry's first word replaces its high half alone (20_memory.md R71). -/
theorem blk_high {j : Nat} (h : WroteWord s (blkBase + 8 * j) v t) : t.blk j = setHigh (s.blk j) v := by
  rw [setHigh, lowHalf_blk, blk_eq_joinHalves, h.bufWord_same, h.bufWord_other (.inr le_rfl)]

/-- A write of an entry's second word replaces its low half alone (20_memory.md R71). -/
theorem blk_low {j : Nat} (h : WroteWord s (blkBase + 8 * j + 4) v t) : t.blk j = setLow (s.blk j) v := by
  rw [setLow, highHalf_blk, blk_eq_joinHalves, h.bufWord_same, h.bufWord_other (.inl le_rfl)]

end WroteWord

end Sys2Proof.Machine
end

section
/-! PROOFS. The statements of 20_memory.md. -/

namespace Sys2Proof.Claims

open Sys2Proof Sys2Proof.Machine

/-- Settles O56: an idle access of a buffer word is a load or a store of its four bytes, and a block entry is the two
words at its offset. -/
theorem bufferWordsBigEndian : Obligations.BufferWordsBigEndian := by
  intro s v w hidle
  refine ⟨fun hw => ?txt, fun hw => ?hex, fun hw => ?blk⟩
  case txt => exact hostAccess_bufferWord s v hidle (isBuffer_txtWord hw) (by omega)
  case hex => exact hostAccess_bufferWord s v hidle (isBuffer_hexWord hw) (by omega)
  case blk =>
    have halignHigh : (blkBase + 8 * w) % 4 = 0 := by simp only [blkBase]; omega
    have halignLow : (blkBase + 8 * w + 4) % 4 = 0 := by omega
    have hhigh := hostAccess_wroteWord s v hidle (isBuffer_blkHigh hw) halignHigh
    have hlow := hostAccess_wroteWord s v hidle (isBuffer_blkLow hw) halignLow
    have hreadHigh := hostAccess_read_buffer s hidle (isBuffer_blkHigh hw) halignHigh
    have hreadLow := hostAccess_read_buffer s hidle (isBuffer_blkLow hw) halignLow
    rw [← highHalf_blk] at hreadHigh
    rw [← lowHalf_blk] at hreadLow
    exact ⟨⟨_, rfl, hhigh.fields, hhigh.blk_high, hhigh.others⟩,
      ⟨_, rfl, hlow.fields, hlow.blk_low, hlow.others⟩, hreadHigh, hreadLow⟩

/-- Settles O49: the unit does not accept such an access. -/
theorem refusedAccessChangesNothing : Obligations.RefusedAccessChangesNothing :=
  fun s _ _ v h => hostAccess_refused s v (accepts_eq_false h)

end Sys2Proof.Claims
end

section
/-! PROOFS. The acceptance and the completion of a command word. -/

namespace Sys2Proof

/-- A reserved bit set, or an opcode without a row in R92: the word is rejected (30_encoding.md R96). -/
theorem exists_decode_eq_error {w : Word} (h : w.extractLsb' 8 24 ≠ 0#24 ∨ 0x0E ≤ (w.extractLsb' 0 8).toNat) :
    ∃ e, decode w = .error e := by
  by_cases hrsv : w.extractLsb' 8 24 = 0#24
  · have hopc : decodeOpc (w.extractLsb' 0 8) = none := decodeOpc_eq_none.2 (h.resolve_left (not_not_intro hrsv))
    exact ⟨.reservedOpcode, by rw [decode_of_opc hrsv, hopc]⟩
  · exact ⟨.reservedBits, decode_of_rsv hrsv⟩

end Sys2Proof

namespace Sys2Proof.Machine

open Sys2Proof

/-- A host write while busy of a register other than `CTRL` and `STATUS` (20_memory.md R66). -/
theorem hostAccess_write_reg_ignored (s : State) (r : RegName) (v : Word) (hbusy : s.status.busy = true)
    (hr : (Place.reg r).writableWhileBusy = false) :
    s.hostAccess (.write (BitVec.ofNat 16 r.offset) .word v) = { s.ignoreWrite with bus := .writeAck } := by
  rw [hostAccess_write _ _ (by rw [toNat_offset]; exact offset_aligned r), toNat_offset,
    hostWrite_ignored _ _ _ hbusy (by rw [placeAt_reg]; exact hr)]

/-- The acceptance of a command word, whatever the word (30_encoding.md R94). -/
theorem hostAccess_write_cmd_idle (s : State) (v : Word) (hidle : s.status.busy = false) :
    s.hostAccess (.write 0x000C#16 .word v) =
      { s with cmd := v, status := { s.status with busy := true, done := false }, bus := .writeAck } :=
  hostAccess_write_reg s .cmd v (.inl hidle)

/-- A command word written while busy is lost (30_encoding.md R94, 20_memory.md R66). -/
theorem hostAccess_write_cmd_busy (s : State) (v : Word) (hbusy : s.status.busy = true) :
    s.hostAccess (.write 0x000C#16 .word v) =
      { s with status := { s.status with wign := true }, bus := .writeAck } :=
  hostAccess_write_reg_ignored s .cmd v hbusy rfl

theorem engineTurn_busy {s : State} (hbusy : s.status.busy = true) : engineTurn s = completeCommand s :=
  if_pos hbusy

/-- The completion step of a rejected word (30_encoding.md R95, R96). -/
theorem completeCommand_of_error {s : State} {e : DecodeError} (h : decode s.cmd = .error e) :
    completeCommand s = .next (Claims.failed s 1#4 s.cmd) := by
  rw [completeCommand, h]
  rfl

end Sys2Proof.Machine
end

section
/-! PROOFS. The statements of 30_encoding.md on the issue of a word. -/

namespace Sys2Proof.Claims

open Sys2Proof Sys2Proof.Machine

/-- Settles O5: acceptance does not look at the word, and the decoder rejects it in the completion step. -/
theorem illegalWordCompletesWithIllcmd : Obligations.IllegalWordCompletesWithIllcmd := by
  intro s v hillegal
  refine ⟨hostAccess_write_cmd_idle s v, fun r hbusy hcmd hschedule => ?_⟩
  subst hcmd
  obtain ⟨e, hdecode⟩ := exists_decode_eq_error hillegal
  calc step s
      = engineTurn { s with schedule := r } := step_engine hschedule
    _ = completeCommand { s with schedule := r } := engineTurn_busy hbusy
    _ = .next (failed { s with schedule := r } 1#4 s.cmd) := completeCommand_of_error hdecode

/-- Settles O6: an idle unit takes the write as the issue of a command, a busy one ignores it. -/
theorem issueAcceptsAnyWord : Obligations.IssueAcceptsAnyWord :=
  fun s v => ⟨hostAccess_write_cmd_idle s v, hostAccess_write_cmd_busy s v⟩

end Sys2Proof.Claims
end

section
/-! PROOFS. The completion with outcome OK in the words of the statements, and SBOX (40_sbox.md). -/

namespace Sys2Proof.Machine

open Sys2Proof

/-- A completion with outcome OK writes STATUS alone (30_encoding.md R95). -/
theorem completeOk_eq_okStatus (w : State) : w.completeOk = { w with status := Claims.okStatus w.status } := rfl

theorem exec_sbox (s : State) : exec .sbox s = finish s (.ok { s with res := (sbox s.sboxInput).setWidth 32 }) := rfl

end Sys2Proof.Machine

namespace Sys2Proof.Claims

open Sys2Proof Sys2Proof.Machine

/-- Settles O13: SBOX's one write is RES, from the low nibble of ARG0, and it always completes with OK. -/
theorem sboxResult : Obligations.SboxResult := by
  intro s
  rw [exec_sbox, finish_ok, completeOk_eq_okStatus, State.sboxInput]

end Sys2Proof.Claims
end

section
/-! PROOFS. The round-key formula and KEYGEN (41_keyschedule.md). -/

namespace Sys2Proof.Machine

open Sys2Proof

/-- 41_keyschedule.md R121, with the shift of R120 written out. -/
theorem roundKey_eq_formula (k : Block) (i : Nat) :
    roundKey k i = ((k >>> ((i * 7) % 64)) ^^^
      (if (i * 7) % 64 = 0 then 0#64 else k <<< (64 - (i * 7) % 64))).extractLsb' 0 32 := rfl

theorem exec_keygen (s : State) : exec .keygen s = finish s (.ok s.loadRoundKeys) := rfl

/-- A key-consuming command's write of the round keys touches the round-key file alone (10_state.md R38). -/
theorem loadRoundKeys_frame (s : State) : s.loadRoundKeys = { s with rk := s.loadRoundKeys.rk } := rfl

/-- Every entry of the round-key file after that write, in the words of the statements (10_state.md R38). -/
theorem rkLoaded_loadRoundKeys (s : State) : Claims.rkLoaded s s.loadRoundKeys := loadRoundKeys_getElem s

end Sys2Proof.Machine

namespace Sys2Proof.Claims

open Sys2Proof Sys2Proof.Machine

/-- Settles O16: KEYGEN's one write is the load of the round keys, and it always completes with OK. -/
theorem keygenResult : Obligations.KeygenResult := by
  intro s
  refine ⟨s.loadRoundKeys.completeOk, ?step, ?frame, fun i hi => ?entry⟩
  case step => rw [exec_keygen, finish_ok]
  case frame => rw [completeOk_eq_okStatus, loadRoundKeys_frame]
  case entry => rw [State.completeOk_rk, rkLoaded_loadRoundKeys s i hi, roundKey_eq_formula]

end Sys2Proof.Claims
end

section
/-! PROOFS. The round function nibble by nibble, and ROUNDF (42_round.md). -/

namespace Sys2Proof.Machine

open Sys2Proof

/-- Appending a nibble moves every nibble up by one place. -/
theorem nibble_succ_append {w : Nat} (x : BitVec w) (n : Nibble) (j : Nat) :
    (x ++ n).extractLsb' (4 * (j + 1)) 4 = x.extractLsb' (4 * j) 4 := by
  rw [BitVec.extractLsb'_append_eq_of_le (by omega), Nat.mul_succ, Nat.add_sub_cancel]

/-- The substitution works on each nibble in place (42_round.md R130). -/
theorem wordNibble_substitute (t : Word) : ∀ j < 8, wordNibble (substitute t) j = sbox (wordNibble t j) := by
  intro j hj
  rw [wordNibble, substitute]
  -- Nibble j is reached by dropping the j nibbles appended after it.
  interval_cases j <;>
    simp only [nibble_succ_append, Nat.mul_zero, BitVec.extractLsb'_append_eq_right, BitVec.extractLsb'_eq_self]

theorem exec_roundf (s : State) : exec .roundf s = finish s (.ok { s with res := roundFunction s.arg0 s.arg1 }) := rfl

end Sys2Proof.Machine

namespace Sys2Proof.Claims

open Sys2Proof Sys2Proof.Machine

/-- Settles O17: F substitutes r XOR k nibble by nibble. -/
theorem roundFunctionNibbles : Obligations.RoundFunctionNibbles :=
  fun r k j hj => wordNibble_substitute (r ^^^ k) j hj

/-- Settles O19: ROUNDF's one write is RES, from both arguments, and it always completes with OK. -/
theorem roundfResult : Obligations.RoundfResult := by
  intro s
  rw [exec_roundf, finish_ok, completeOk_eq_okStatus]

end Sys2Proof.Claims
end

section
/-! PROOFS. The block functions as runs of their rounds (43_feistel.md R140, R141). -/

namespace Sys2Proof.Machine

open Sys2Proof

/-- The keys in order take a sequence that follows the rounds from its entry 0 to its entry n. -/
theorem foldl_roundKeys {α : Type} {f : α → Word → α} {k : Block} {n : Nat} {p : Nat → α}
    (h : ∀ i < n, p (i + 1) = f (p i) (roundKey k i)) : (roundKeys k n).foldl f (p 0) = p n := by
  induction n with
  | zero => rfl
  | succ n ih =>
    rw [roundKeys_succ, List.foldl_concat, ih fun i hi => h i (Nat.lt_succ_of_lt hi), h n (Nat.lt_succ_self n)]

/-- The keys in reverse order take a sequence that follows the rounds downwards from its entry n to its entry 0. -/
theorem foldl_reverse_roundKeys {α : Type} {f : α → Word → α} {k : Block} {n : Nat} {p : Nat → α}
    (h : ∀ i < n, p i = f (p (i + 1)) (roundKey k i)) : (roundKeys k n).reverse.foldl f (p n) = p 0 := by
  induction n with
  | zero => rfl
  | succ n ih =>
    rw [roundKeys_succ, List.reverse_concat, List.foldl_cons, ← h n (Nat.lt_succ_self n),
      ih fun i hi => h i (Nat.lt_succ_of_lt hi)]

theorem halves_eq {b : Block} {l r : Word} (hl : l = b.extractLsb' 32 32) (hr : r = b.extractLsb' 0 32) :
    halves b = (l, r) := by
  rw [hl, hr, halves, highHalf, lowHalf]

end Sys2Proof.Machine

namespace Sys2Proof.Claims

open Sys2Proof Sys2Proof.Machine

/-- Settles O20: the pairs (L, R) follow the encryption rounds, so the keys in order take the first to the last. -/
theorem encryptFollowsRounds : Obligations.EncryptFollowsRounds := by
  intro b k n L R hL hR hround
  have hrun : (roundKeys k n).foldl encRound (L 0, R 0) = (L n, R n) :=
    foldl_roundKeys (p := fun i => (L i, R i)) fun i hi => Prod.ext_iff.2 (hround i hi)
  rw [encrypt, halves_eq hL hR, hrun, ofHalves, joinHalves]

/-- Settles O21: the pairs (L, R) follow the decryption rounds downwards, so the keys in reverse order take the last to
the first. -/
theorem decryptFollowsRounds : Obligations.DecryptFollowsRounds := by
  intro c k n L R hL hR hround
  have hrun : (roundKeys k n).reverse.foldl decRound (L n, R n) = (L 0, R 0) :=
    foldl_reverse_roundKeys (p := fun i => (L i, R i)) fun i hi => Prod.ext_iff.2 (hround i hi)
  rw [decrypt, halves_eq hL hR, hrun, ofHalves, joinHalves]

end Sys2Proof.Claims
end

section
/-! PROOFS. The single-block commands (43_feistel.md R142, R143). -/

namespace Sys2Proof.Machine

open Sys2Proof

theorem encryptBlock_eq (s : State) (b : Block) : s.encryptBlock b = encrypt b s.key s.rounds.toNat := rfl

theorem decryptBlock_eq (s : State) (c : Block) : s.decryptBlock c = decrypt c s.key s.rounds.toNat := rfl

theorem exec_encb (s : State) :
    exec .encb s = finish s (.ok { s.loadRoundKeys with bout := s.encryptBlock s.bin }) := rfl

theorem exec_decb (s : State) :
    exec .decb s = finish s (.ok { s.loadRoundKeys with bout := s.decryptBlock s.bin }) := rfl

/-- What ENCB and DECB share: a completion whose writes are the round keys and a block v in `BOUT`. -/
theorem finish_loadRoundKeys_bout (s : State) (v : Block) :
    ∃ t, finish s (.ok { s.loadRoundKeys with bout := v }) = .next t ∧ Claims.rkLoaded s t ∧
      t = { s with bout := v, rk := t.rk, status := Claims.okStatus s.status } := by
  refine ⟨State.completeOk { s.loadRoundKeys with bout := v }, finish_ok _ _, ?keys, ?frame⟩
  case keys => exact rkLoaded_loadRoundKeys s
  case frame => rw [completeOk_eq_okStatus, loadRoundKeys_frame]

end Sys2Proof.Machine

namespace Sys2Proof.Claims

open Sys2Proof Sys2Proof.Machine

/-- Settles O23: ENCB has no check, and its writes are the round keys and the encrypted `BIN`. -/
theorem encbResult : Obligations.EncbResult := by
  intro s
  rw [exec_encb, encryptBlock_eq]
  exact finish_loadRoundKeys_bout s _

/-- Settles O24: DECB has no check, and its writes are the round keys and the decrypted `BIN`. -/
theorem decbResult : Obligations.DecbResult := by
  intro s
  rw [exec_decb, decryptBlock_eq]
  exact finish_loadRoundKeys_bout s _

end Sys2Proof.Claims
end

section
/-! PROOFS. The ECB commands (43_feistel.md R144, R145): one command over a block function f, ENCECB and DECECB being
its two instances. -/

namespace Sys2Proof.Machine

open Sys2Proof

/-- A completion with another outcome, in the words of the statements (30_encoding.md R95). -/
theorem completeError_eq_failed (s : State) (e : CmdError) :
    s.completeError e = Claims.failed s e.code.toBits e.info := rfl

/-- The writes of an ECB command: f of each block of the block operand in its place, and the round keys. -/
def State.writeEcb (s : State) (f : Block → Block) : State := (s.storeBlocks (s.blocks.map f)).loadRoundKeys

/-- An ECB command: the RANGE check, then the writes. -/
def runEcb (s : State) (f : Block → Block) : Host.Outcome State Fault Refusal :=
  finish s (unlessError (rangeError s.nblk s.cfg.blkCap) (.ok (s.writeEcb f)))

theorem exec_encecb (s : State) : exec .encecb s = runEcb s s.encryptBlock := rfl

theorem exec_dececb (s : State) : exec .dececb s = runEcb s s.decryptBlock := rfl

section
variable (s : State) (f : Block → Block)

theorem writeEcb_frame : s.writeEcb f = { s with mem := (s.writeEcb f).mem, rk := (s.writeEcb f).rk } := rfl

theorem rkLoaded_writeEcb : Claims.rkLoaded s (s.writeEcb f) :=
  rkLoaded_loadRoundKeys (s.storeBlocks (s.blocks.map f))

theorem writeEcb_mem : (s.writeEcb f).mem = s.mem.writeBytes blkBase ((s.blocks.map f).flatMap blockBytes) := rfl

theorem blk_writeEcb {j : Nat} (hj : j < s.nblk.toNat) : (s.writeEcb f).blk j = f (s.blk j) := by
  rw [blk_stored (writeEcb_mem s f) (by simpa using hj), List.getElem_map, blocks_getElem]

theorem bufByte_writeEcb_outside {a : Nat} (ha : ¬ Claims.inBlocks s.nblk.toNat a) :
    (s.writeEcb f).bufByte a = s.bufByte a := by
  refine bufByte_outside (writeEcb_mem s f) rfl ?_
  rw [length_flatMap_blockBytes, List.length_map, length_blocks]
  simp only [Claims.inBlocks] at ha
  simp only [blkBase]
  omega

theorem runEcb_range (h : s.cfg.blkCap < s.nblk.toNat) : runEcb s f = .next (Claims.failed s 2#4 s.nblk) := by
  rw [runEcb, rangeError_eq_some h, unlessError_some, finish_error, completeError_eq_failed, ErrCode.toBits]

theorem runEcb_ok (h : s.nblk.toNat ≤ s.cfg.blkCap) : runEcb s f = .next (s.writeEcb f).completeOk := by
  rw [runEcb, rangeError_eq_none.2 h, unlessError_none, finish_ok]

/-- What ENCECB and DECECB share, on success. -/
theorem runEcb_result (h : s.nblk.toNat ≤ s.cfg.blkCap) :
    ∃ t, runEcb s f = .next t ∧ Claims.rkLoaded s t ∧
      t = { s with mem := t.mem, rk := t.rk, status := Claims.okStatus s.status } ∧
      (∀ j < s.nblk.toNat, t.blk j = f (s.blk j)) ∧
      ∀ a, ¬ Claims.inBlocks s.nblk.toNat a → t.bufByte a = s.bufByte a := by
  refine ⟨(s.writeEcb f).completeOk, runEcb_ok s f h, ?keys, ?frame, fun j hj => ?block, fun a ha => ?outside⟩
  case keys => exact rkLoaded_writeEcb s f
  case frame => rw [completeOk_eq_okStatus, writeEcb_frame]
  case block => exact blk_writeEcb s f hj
  case outside => exact bufByte_writeEcb_outside s f ha

end

end Sys2Proof.Machine

namespace Sys2Proof.Claims

open Sys2Proof Sys2Proof.Machine

/-- Settles O25: ENCECB is the ECB command over the encryption of a block. -/
theorem encecbResult : Obligations.EncecbResult := by
  intro s
  simp only [exec_encecb, ← encryptBlock_eq]
  exact ⟨runEcb_range s s.encryptBlock, runEcb_result s s.encryptBlock⟩

/-- Settles O26: DECECB is the ECB command over the decryption of a block. -/
theorem dececbResult : Obligations.DececbResult := by
  intro s
  simp only [exec_dececb, ← decryptBlock_eq]
  exact ⟨runEcb_range s s.decryptBlock, runEcb_result s s.decryptBlock⟩

end Sys2Proof.Claims
end

section
/-! PROOFS. Packing (44_codec.md R160). -/

namespace Sys2Proof.Machine

open Sys2Proof

/-- A packed block, byte by byte: the padded text in order (44_codec.md R160). -/
theorem blockByte_getD_pack (bytes : List Byte) {n j p : Nat} (hj : j < ceil8 n) (hp : p < 8) :
    blockByte ((pack bytes n).getD j 0#64) p = paddedByte bytes n (8 * j + p) := by
  rw [getD_pack _ _ _ hj, blockByte_joinBlock _ _ hp]

end Sys2Proof.Machine

namespace Sys2Proof.Claims

open Sys2Proof Sys2Proof.Machine

/-- Settles O28: the blocks are the padded text cut into eights, and a block's bytes are those it was joined from. -/
theorem packPadsBigEndian : Obligations.PackPadsBigEndian :=
  fun bytes n _ => ⟨length_pack bytes n, fun _ hj _ hp => blockByte_getD_pack bytes hj hp⟩

end Sys2Proof.Claims
end

section
/-! PROOFS. What a check does to the completion step (60_exceptions.md R210, R212), and the buffers after a store of
blocks or of a text, in the words of the statements. -/

namespace Sys2Proof.Machine

open Sys2Proof

/-! Checks. -/

section
variable (s : State) (r : Except CmdError State)

/-- A check that fails is the command's outcome, and nothing is written. -/
theorem finish_unlessError_some {check : Option CmdError} {e : CmdError} (h : check = some e) :
    finish s (unlessError check r) = .next (Claims.failed s e.code.toBits e.info) := by
  rw [h, unlessError_some, finish_error, completeError_eq_failed]

/-- A check that passes leaves the outcome to the rest of the command. -/
theorem finish_unlessError_none {check : Option CmdError} (h : check = none) :
    finish s (unlessError check r) = finish s r := by
  rw [h, unlessError_none]

theorem finish_beyond_capacity {len : Word} {cap : Nat} (h : cap < len.toNat) :
    finish s (unlessError (rangeError len cap) r) = .next (Claims.failed s 2#4 len) :=
  finish_unlessError_some s r (rangeError_eq_some h)

theorem finish_within_capacity {len : Word} {cap : Nat} (h : len.toNat ≤ cap) :
    finish s (unlessError (rangeError len cap) r) = finish s r :=
  finish_unlessError_none s r (rangeError_eq_none.2 h)

end

/-- The ENCLOSS check passes on the block operand (60_exceptions.md R210). -/
theorem strictError_blocks_none {s : State}
    (h : s.ctrl.strict = true → ∀ j < s.nblk.toNat, ∀ p < 8, (blockByte (s.blk j) p).toNat < 0x80) :
    strictError s.ctrl.strict (bytesOfBlocks s.blocks) = none :=
  strictError_none fun hs c hc => by
    obtain ⟨j, hj, p, hp, rfl⟩ := mem_bytesOfBlocks.1 hc
    rw [blocks_getElem]
    exact h hs j (by simpa using hj) p hp

/-- The ENCLOSS check fails on the block operand at its first byte ≥ 0x80, byte p of block j. -/
theorem strictError_blocks_some {s : State} (hs : s.ctrl.strict = true) {j p : Nat} (hj : j < s.nblk.toNat)
    (hp : p < 8) (h : 0x80 ≤ (blockByte (s.blk j) p).toNat)
    (hlt : ∀ j' p', p' < 8 → 8 * j' + p' < 8 * j + p → (blockByte (s.blk j') p').toNat < 0x80) :
    strictError s.ctrl.strict (bytesOfBlocks s.blocks) =
      some { code := .encloss, info := BitVec.ofNat 32 (8 * j + p) } := by
  rw [hs]
  refine strictError_blocks s.blocks j p (by simpa using hj) hp ?_ fun j' p' hj' => ?_
  · rwa [blocks_getElem]
  · rw [blocks_getElem]
    exact hlt j' p'

/-- An unpacking of the block operand drops a byte exactly when one of its bytes is undecodable (44_codec.md R163). -/
theorem dropsBytes_blocks (s : State) :
    dropsBytes s.blocks = true ↔ ∃ j < s.nblk.toNat, ∃ p < 8, 0x80 ≤ (blockByte (s.blk j) p).toNat := by
  simp only [dropsBytes_iff, blocks_getElem, length_blocks, exists_prop]

/-! Stores. -/

section
variable {s t : State} {a : Nat}

theorem bufByte_outside_blocks {bs : List Block} (ht : t.mem = s.mem.writeBytes blkBase (bs.flatMap blockBytes))
    (hr : t.resets = s.resets) (ha : ¬ Claims.inBlocks bs.length a) : t.bufByte a = s.bufByte a := by
  refine bufByte_outside ht hr ?_
  rw [length_flatMap_blockBytes]
  simp only [Claims.inBlocks] at ha
  simp only [blkBase]
  omega

theorem bufByte_outside_text {bs : List Byte} (ht : t.mem = s.mem.writeBytes txtBase bs)
    (hr : t.resets = s.resets) (ha : ¬ Claims.inText bs.length a) : t.bufByte a = s.bufByte a := by
  refine bufByte_outside ht hr ?_
  simp only [Claims.inText] at ha
  simp only [txtBase]
  omega

theorem txt_stored {bs : List Byte} (ht : t.mem = s.mem.writeBytes txtBase bs) {b : Nat} (hb : b < bs.length) :
    t.txt b = bs.getD b 0#8 := by
  rw [State.txt, bufByte_stored ht hb, List.getD_eq_getElem _ _ hb]

end

end Sys2Proof.Machine
end

section
/-! PROOFS. The codec commands (44_codec.md R162, R163). -/

namespace Sys2Proof.Machine

open Sys2Proof

/-! T2B. -/

/-- The writes of T2B: the packed text operand, and the count of its blocks (44_codec.md R162). -/
def State.storePacked (s : State) : State :=
  (s.storeBlocks (pack s.textBytes s.tlen.toNat)).setNblk (ceil8 s.tlen.toNat)

theorem exec_t2b (s : State) :
    exec .t2b s = finish s (unlessError (rangeError s.tlen s.cfg.txtCap)
      (unlessError (strictError s.ctrl.strict s.textBytes) (.ok s.storePacked))) := rfl

theorem storePacked_frame (s : State) :
    s.storePacked = { s with mem := s.storePacked.mem, nblk := BitVec.ofNat 32 (ceil8 s.tlen.toNat) } := rfl

theorem storePacked_mem (s : State) :
    s.storePacked.mem = s.mem.writeBytes blkBase ((pack s.textBytes s.tlen.toNat).flatMap blockBytes) := rfl

/-- A block of the packed text operand is its padded bytes, joined. -/
theorem blk_storePacked (s : State) {j : Nat} (hj : j < ceil8 s.tlen.toNat) :
    s.storePacked.blk j = joinBlock fun p => Claims.paddedText s (8 * j + p) := by
  have hj' : j < (pack s.textBytes s.tlen.toNat).length := by rwa [length_pack]
  rw [blk_stored (storePacked_mem s) hj', ← List.getD_eq_getElem _ 0#64 hj', getD_pack _ _ _ hj]
  simp only [paddedByte_textBytes, Claims.paddedText]

theorem bufByte_storePacked_outside (s : State) {a : Nat} (ha : ¬ Claims.inBlocks (ceil8 s.tlen.toNat) a) :
    s.storePacked.bufByte a = s.bufByte a :=
  bufByte_outside_blocks (storePacked_mem s) rfl (by rwa [length_pack])

/-! B2T. -/

theorem exec_b2t (s : State) :
    exec .b2t s = finish s (unlessError (rangeError s.nblk s.cfg.blkCap)
      (unlessError (strictError s.ctrl.strict (bytesOfBlocks s.blocks)) (.ok (s.storeUnpacked s.blocks)))) := rfl

/-- The writes of an unpacking are the text, its length and LOSSY (44_codec.md R163). -/
theorem storeUnpacked_frame (s : State) (bs : List Block) :
    s.storeUnpacked bs = { s with
      mem := (s.storeUnpacked bs).mem, tlen := BitVec.ofNat 32 (unpack bs bs.length).length,
      status := { s.status with lossy := (s.storeUnpacked bs).status.lossy } } := rfl

/-- An unpacking keeps every buffer byte outside the text (44_codec.md R163). -/
theorem bufByte_storeUnpacked_outside (s : State) (bs : List Block) {a : Nat}
    (ha : ¬ Claims.inText (unpack bs bs.length).length a) : (s.storeUnpacked bs).bufByte a = s.bufByte a :=
  bufByte_outside_text (s.storeUnpacked_mem bs) (s.storeUnpacked_resets bs) ha

/-- An unpacking stores the text (44_codec.md R163). -/
theorem txt_storeUnpacked (s : State) (bs : List Block) {b : Nat} (hb : b < (unpack bs bs.length).length) :
    (s.storeUnpacked bs).txt b = (unpack bs bs.length).getD b 0#8 :=
  txt_stored (s.storeUnpacked_mem bs) hb

/-- LOSSY after an unpacking of the block operand (44_codec.md R163). -/
theorem lossy_storeUnpacked_blocks (s : State) :
    (s.storeUnpacked s.blocks).status.lossy = true ↔
      s.status.lossy = true ∨ ∃ j < s.nblk.toNat, ∃ p < 8, 0x80 ≤ (blockByte (s.blk j) p).toNat := by
  rw [← dropsBytes_blocks, State.storeUnpacked_status, Status.noteLoss, Bool.or_eq_true]

end Sys2Proof.Machine

namespace Sys2Proof.Claims

open Sys2Proof Sys2Proof.Machine

/-- Settles O30: the two checks of T2B in order, then its writes. -/
theorem textToBlocksResult : Obligations.TextToBlocksResult := by
  intro s
  rw [exec_t2b]
  refine ⟨fun hcap => ?range, fun hcap hstrict b hb hbad hfirst => ?encloss, fun hcap hclean => ?success⟩
  case range => exact finish_beyond_capacity s _ hcap
  case encloss =>
    rw [finish_within_capacity s _ hcap]
    exact finish_unlessError_some s _ (strictError_textBytes_some hstrict hb hbad hfirst)
  case success =>
    rw [finish_within_capacity s _ hcap, finish_unlessError_none s _ (strictError_textBytes_none hclean)]
    refine ⟨s.storePacked.completeOk, finish_ok _ _, ?frame, fun j hj => ?block, fun a ha => ?outside⟩
    case frame => rw [completeOk_eq_okStatus, storePacked_frame]
    case block => exact blk_storePacked s hj
    case outside => exact bufByte_storePacked_outside s ha

/-- Settles O31: the two checks of B2T in order, then the writes of an unpacking of the block operand. -/
theorem blocksToTextResult : Obligations.BlocksToTextResult := by
  intro s
  rw [exec_b2t]
  refine ⟨fun hcap => ?range, fun hcap hstrict j hj p hp hbad hfirst => ?encloss, fun hcap hclean => ?success⟩
  case range => exact finish_beyond_capacity s _ hcap
  case encloss =>
    rw [finish_within_capacity s _ hcap]
    exact finish_unlessError_some s _ (strictError_blocks_some hstrict hj hp hbad hfirst)
  case success =>
    rw [finish_within_capacity s _ hcap, finish_unlessError_none s _ (strictError_blocks_none hclean)]
    refine ⟨(s.storeUnpacked s.blocks).completeOk, unpack s.blocks s.blocks.length, ?text, finish_ok _ _, ?frame,
      ?lossy, fun b hb => ?stored, fun a ha => ?outside⟩
    case text => rw [length_blocks, State.blocks]
    case frame => rw [completeOk_eq_okStatus, storeUnpacked_frame]; rfl
    case lossy => exact lossy_storeUnpacked_blocks s
    case stored => exact txt_storeUnpacked s s.blocks hb
    case outside => exact bufByte_storeUnpacked_outside s s.blocks ha

end Sys2Proof.Claims
end

section
/-! PROOFS. Hex digits, rendered texts and parsed texts, character by character (45_pipeline.md section 1). -/

namespace Sys2Proof.Machine

open Sys2Proof

theorem toNat_hexChar (v : Nibble) :
    (hexChar v).toNat = if v.toNat ≤ 9 then 0x30 + v.toNat else 0x61 + (v.toNat - 10) := by
  rw [hexChar]
  split
  · bv_omega
  · bv_omega

/-- In each of the three ranges of digits the value is a difference of bytes that does not wrap. -/
theorem toNat_hexVal (c : Byte) :
    (hexVal c).map BitVec.toNat =
      if 0x30 ≤ c.toNat ∧ c.toNat ≤ 0x39 then some (c.toNat - 0x30)
      else if 0x61 ≤ c.toNat ∧ c.toNat ≤ 0x66 then some (c.toNat - 0x61 + 10)
      else if 0x41 ≤ c.toNat ∧ c.toNat ≤ 0x46 then some (c.toNat - 0x41 + 10)
      else none := by
  rw [hexVal]
  split_ifs
  · exact congrArg some (by bv_omega)
  · exact congrArg some (by bv_omega)
  · exact congrArg some (by bv_omega)
  · rfl

/-- A text rendered from the first nb blocks has sixteen characters for each (45_pipeline.md R182). -/
theorem length_render_take {bs : List Block} {nb : Nat} (h : nb ≤ bs.length) : (render bs nb).length = 16 * nb := by
  rw [render, length_flatMap_hexOfBlock, List.length_take_of_le h]

/-- Character d of block j of a rendered text (45_pipeline.md R182). -/
theorem getD_render {bs : List Block} {nb j d : Nat} (h : nb ≤ bs.length) (hj : j < nb) (hd : d < 16) :
    (render bs nb).getD (16 * j + d) 0#8 = hexChar (blockNibble (bs.getD j 0#64) d) := by
  have hj' : j < (bs.take nb).length := by rwa [List.length_take_of_le h]
  rw [render, getD_flatMap_hexOfBlock _ _ _ hj' hd, List.getD_eq_getElem _ _ hj', List.getElem_take,
    List.getD_eq_getElem _ _ (hj.trans_le h)]

/-- The blocks parsed from the hex operand (45_pipeline.md R183). -/
theorem parse_hexBytes (s : State) :
    parse s.hexBytes s.hlen.toNat = (List.range (s.hlen.toNat / 16)).map (Claims.parsedBlock s) := by
  refine List.map_congr_left fun j hj => joinNibbles_congr fun d hd => digitAt_hexBytes ?_
  have := List.mem_range.1 hj
  omega

/-- A digit of a block of the hex operand is the value of its character (45_pipeline.md R183). -/
theorem hexVal_eq_blockNibble_parsedBlock {s : State} {j d : Nat} (hd : d < 16)
    (h : (hexVal (s.hex (16 * j + d))).isSome) :
    hexVal (s.hex (16 * j + d)) = some (blockNibble (Claims.parsedBlock s j) d) := by
  obtain ⟨v, hv⟩ := Option.isSome_iff_exists.1 h
  rw [Claims.parsedBlock, blockNibble_joinNibbles _ _ hd, hv, Option.getD_some]

end Sys2Proof.Machine

namespace Sys2Proof.Claims

open Sys2Proof Sys2Proof.Machine

/-- Settles O33: the digits are consecutive characters from '0', 'a' and 'A' on. -/
theorem hexDigitCharacters : Obligations.HexDigitCharacters := ⟨toNat_hexChar, toNat_hexVal⟩

/-- Settles O34: a rendered text is the sixteen digits of each block, one block after the other. -/
theorem renderWritesSixteenDigits : Obligations.RenderWritesSixteenDigits :=
  fun _ _ h => ⟨length_render_take h, fun _ hj _ hd => getD_render h hj hd⟩

end Sys2Proof.Claims
end

section
/-! PROOFS. The hex commands (45_pipeline.md R184, R185): the writes of a rendering of the block operand, the checks on
the hex operand, and the writes of a new block operand. -/

namespace Sys2Proof.Machine

open Sys2Proof

/-! A completion touches no buffer. -/

theorem bufByte_completeOk (s : State) (a : Nat) : s.completeOk.bufByte a = s.bufByte a := rfl

theorem txt_completeOk (s : State) (b : Nat) : s.completeOk.txt b = s.txt b := rfl

theorem hex_completeOk (s : State) (b : Nat) : s.completeOk.hex b = s.hex b := rfl

theorem blk_completeOk (s : State) (j : Nat) : s.completeOk.blk j = s.blk j := rfl

/-! B2H. -/

theorem exec_b2h (s : State) :
    exec .b2h s = finish s (unlessError (rangeError s.nblk s.cfg.blkCap) (.ok (s.storeRendered s.blocks))) := rfl

section
variable (s : State)

/-- The writes of a rendering are the hex text and its length (45_pipeline.md R184). -/
theorem storeRendered_blocks_frame :
    s.storeRendered s.blocks = { s with
      mem := (s.storeRendered s.blocks).mem, hlen := BitVec.ofNat 32 (16 * s.nblk.toNat) } := by
  rw [← length_blocks]
  rfl

/-- A rendering of the block operand stores the sixteen digits of each of its blocks (45_pipeline.md R184). -/
theorem hex_storeRendered_blocks {j d : Nat} (hj : j < s.nblk.toNat) (hd : d < 16) :
    (s.storeRendered s.blocks).hex (16 * j + d) = hexChar (blockNibble (s.blk j) d) := by
  have hj' : j < s.blocks.length := by rwa [length_blocks]
  have hlen : 16 * j + d < (render s.blocks s.blocks.length).length := by rw [length_render]; omega
  rw [State.hex, bufByte_stored (s.storeRendered_mem s.blocks) hlen, ← List.getD_eq_getElem _ 0#8 hlen,
    getD_render le_rfl hj' hd, List.getD_eq_getElem _ _ hj', blocks_getElem]

/-- A rendering of the block operand keeps every buffer byte outside the hex text (45_pipeline.md R184). -/
theorem bufByte_storeRendered_blocks_outside {a : Nat} (ha : ¬ Claims.inHex (16 * s.nblk.toNat) a) :
    (s.storeRendered s.blocks).bufByte a = s.bufByte a := by
  refine bufByte_outside (s.storeRendered_mem s.blocks) rfl ?_
  rw [length_render, length_blocks]
  simp only [Claims.inHex] at ha
  simp only [hexBase]
  omega

end

/-! The checks on the hex operand, which H2B and DECTXT share. -/

/-- The checks on the hex operand, in their order, before the rest of a command (45_pipeline.md R185). -/
def State.checkHex (s : State) (r : Except CmdError State) : Except CmdError State :=
  unlessError (rangeError s.hlen s.cfg.hexCap) <|
    unlessError (lengthError s.hlen) <|
    unlessError (digitError s.hexBytes) r

section
variable (s : State) (r : Except CmdError State)

theorem finish_checkHex_range (hcap : s.cfg.hexCap < s.hlen.toNat) :
    finish s (s.checkHex r) = .next (Claims.failed s 2#4 s.hlen) :=
  finish_beyond_capacity s _ hcap

theorem finish_checkHex_badlen (hcap : s.hlen.toNat ≤ s.cfg.hexCap) (hlen : s.hlen.toNat % 16 ≠ 0) :
    finish s (s.checkHex r) = .next (Claims.failed s 3#4 s.hlen) := by
  rw [State.checkHex, finish_within_capacity s _ hcap]
  exact finish_unlessError_some s _ (lengthError_eq_some hlen)

theorem finish_checkHex_badhex (hcap : s.hlen.toNat ≤ s.cfg.hexCap) (hlen : s.hlen.toNat % 16 = 0) {b : Nat}
    (hb : b < s.hlen.toNat) (hbad : hexVal (s.hex b) = none) (hfirst : ∀ b' < b, (hexVal (s.hex b')).isSome) :
    finish s (s.checkHex r) = .next (Claims.failed s 4#4 (BitVec.ofNat 32 b)) := by
  rw [State.checkHex, finish_within_capacity s _ hcap, finish_unlessError_none s _ (lengthError_eq_none.2 hlen)]
  exact finish_unlessError_some s _ (digitError_hexBytes_some hb hbad hfirst)

theorem finish_checkHex_valid (hcap : s.hlen.toNat ≤ s.cfg.hexCap) (hlen : s.hlen.toNat % 16 = 0)
    (hdigits : ∀ b < s.hlen.toNat, (hexVal (s.hex b)).isSome) : finish s (s.checkHex r) = finish s r := by
  rw [State.checkHex, finish_within_capacity s _ hcap, finish_unlessError_none s _ (lengthError_eq_none.2 hlen),
    finish_unlessError_none s _ (digitError_hexBytes_none hdigits)]

end

/-! A new block operand. -/

/-- The block operand becomes the n blocks p 0, p 1, …: the writes of H2B, and the first writes of ENCTXT and DECTXT
(45_pipeline.md R185 to R187). -/
def State.putBlocks (s : State) (n : Nat) (p : Nat → Block) : State :=
  (s.storeBlocks ((List.range n).map p)).setNblk n

section
variable (s : State) (n : Nat) (p : Nat → Block)

theorem putBlocks_mem :
    (s.putBlocks n p).mem = s.mem.writeBytes blkBase (((List.range n).map p).flatMap blockBytes) := rfl

theorem putBlocks_frame : s.putBlocks n p = { s with mem := (s.putBlocks n p).mem, nblk := BitVec.ofNat 32 n } := rfl

theorem blk_putBlocks {j : Nat} (hj : j < n) : (s.putBlocks n p).blk j = p j := by
  rw [blk_stored (putBlocks_mem s n p) (by simpa using hj), List.getElem_map, List.getElem_range]

theorem bufByte_putBlocks_outside {a : Nat} (ha : ¬ Claims.inBlocks n a) :
    (s.putBlocks n p).bufByte a = s.bufByte a :=
  bufByte_outside_blocks (putBlocks_mem s n p) rfl (by simpa using ha)

end

theorem exec_h2b (s : State) :
    exec .h2b s = finish s (s.checkHex (.ok (s.putBlocks (s.hlen.toNat / 16) (Claims.parsedBlock s)))) := by
  rw [State.putBlocks, ← parse_hexBytes]
  rfl

end Sys2Proof.Machine

namespace Sys2Proof.Claims

open Sys2Proof Sys2Proof.Machine

/-- Settles O36: the one check of B2H, then the writes of a rendering of the block operand. -/
theorem blocksToHexResult : Obligations.BlocksToHexResult := by
  intro s
  rw [exec_b2h]
  refine ⟨fun hcap => ?range, fun hcap => ?success⟩
  case range => exact finish_beyond_capacity s _ hcap
  case success =>
    rw [finish_within_capacity s _ hcap]
    refine ⟨(s.storeRendered s.blocks).completeOk, finish_ok _ _, ?frame, fun j hj d hd => ?digit,
      fun a ha => ?outside⟩
    case frame => rw [completeOk_eq_okStatus, storeRendered_blocks_frame]
    case digit => rw [hex_completeOk, hex_storeRendered_blocks s hj hd]
    case outside => rw [bufByte_completeOk, bufByte_storeRendered_blocks_outside s ha]

/-- Settles O37: the three checks of H2B in order, then the parsed blocks become the block operand. -/
theorem hexToBlocksResult : Obligations.HexToBlocksResult := by
  intro s
  rw [exec_h2b]
  refine ⟨finish_checkHex_range s _, finish_checkHex_badlen s _, fun hcap hlen b hb hbad hfirst => ?badhex,
    fun hcap hlen hdigits => ?success⟩
  case badhex => exact finish_checkHex_badhex s _ hcap hlen hb hbad hfirst
  case success =>
    rw [finish_checkHex_valid s _ hcap hlen hdigits]
    refine ⟨State.completeOk _, finish_ok _ _, ?frame, fun j hj d hd => ?digit, fun a ha => ?outside⟩
    case frame => rw [completeOk_eq_okStatus, putBlocks_frame]
    case digit =>
      rw [blk_completeOk, blk_putBlocks s _ _ hj, hexVal_eq_blockNibble_parsedBlock hd (hdigits _ (by omega))]
    case outside => rw [bufByte_completeOk, bufByte_putBlocks_outside s _ _ ha]

end Sys2Proof.Claims
end

section
/-! PROOFS. The text commands (45_pipeline.md R186, R187). Each puts a new block operand first; its other writes are
those of B2H or of B2T, and of the round keys, in the state with that operand. -/

namespace Sys2Proof.Machine

open Sys2Proof

/-! The new block operand, and the writes that follow it. -/

/-- A count of blocks that fits a 32-bit register is read back from it, and the block operand is the new blocks. -/
theorem blocks_putBlocks (s : State) {n : Nat} (p : Nat → Block) (hn : n < 2 ^ 32) :
    (s.putBlocks n p).nblk.toNat = n ∧ (s.putBlocks n p).blocks = (List.range n).map p := by
  have hnblk : (s.putBlocks n p).nblk.toNat = n := Nat.mod_eq_of_lt hn
  exact ⟨hnblk, blocks_stored (putBlocks_mem s n p) (by simpa using hnblk)⟩

/-- The text buffer ends where the blocks begin, so an unpacking of at most BLK_CAP blocks keeps them. -/
theorem blk_storeUnpacked {s : State} {bs : List Block} (h : bs.length ≤ s.cfg.blkCap) (j : Nat) :
    (s.storeUnpacked bs).blk j = s.blk j := by
  refine blk_congr fun p _ => bufByte_storeUnpacked_outside s bs ?_
  have hout := length_unpack_le bs bs.length
  have hcap := blkCap_le s.cfg
  simp only [Claims.inText, blkBase]
  omega

/-- The blocks end below the hex text, so a rendering keeps the block operand. -/
theorem blk_storeRendered_blocks {s : State} {j : Nat} (hj : j < s.cfg.blkCap) :
    (s.storeRendered s.blocks).blk j = s.blk j := by
  refine blk_congr fun p hp => bufByte_storeRendered_blocks_outside s ?_
  have hcap := blkCap_le s.cfg
  simp only [Claims.inHex, blkBase]
  omega

/-! The round keys are loaded last, and that load touches no buffer. -/

theorem bufByte_loadRoundKeys (s : State) (a : Nat) : s.loadRoundKeys.bufByte a = s.bufByte a :=
  bufByte_of_read s s.loadRoundKeys a rfl rfl

theorem txt_loadRoundKeys (s : State) (b : Nat) : s.loadRoundKeys.txt b = s.txt b := bufByte_loadRoundKeys s _

theorem hex_loadRoundKeys (s : State) (b : Nat) : s.loadRoundKeys.hex b = s.hex b := bufByte_loadRoundKeys s _

theorem blk_loadRoundKeys (s : State) (j : Nat) : s.loadRoundKeys.blk j = s.blk j :=
  blk_congr fun _ _ => bufByte_loadRoundKeys s _

theorem rkLoaded_completeOk (s t : State) : Claims.rkLoaded s t.completeOk ↔ Claims.rkLoaded s t := Iff.rfl

/-- Loaded round keys are those of any state with the same inputs of the key schedule (10_state.md R38). -/
theorem rkLoaded_of_sameKeys {s u t : State} (h : Claims.rkLoaded u t) (hkey : u.key = s.key)
    (hrounds : u.rounds = s.rounds) (hrk : u.rk = s.rk) : Claims.rkLoaded s t := by
  intro i hi
  simp only [h i hi, hkey, hrounds, hrk]

/-! ENCTXT. -/

/-- Block j of the ciphertext of the text operand (45_pipeline.md R186). -/
def State.cipherBlock (s : State) (j : Nat) : Block :=
  s.encryptBlock (joinBlock fun p => Claims.paddedText s (8 * j + p))

/-- The state with the ciphertext of the text operand as its block operand. -/
def State.putCipher (s : State) : State := s.putBlocks (ceil8 s.tlen.toNat) s.cipherBlock

theorem map_encryptBlock_pack (s : State) :
    (pack s.textBytes s.tlen.toNat).map s.encryptBlock = (List.range (ceil8 s.tlen.toNat)).map s.cipherBlock := by
  rw [pack, List.map_map]
  refine List.map_congr_left fun j _ => ?_
  simp only [Function.comp_apply, paddedByte_textBytes, State.cipherBlock, Claims.paddedText]

theorem nblk_putCipher (s : State) : s.putCipher.nblk.toNat = ceil8 s.tlen.toNat :=
  (blocks_putBlocks s _ (by simp only [ceil8]; omega)).1

theorem blocks_putCipher (s : State) :
    s.putCipher.blocks = (List.range (ceil8 s.tlen.toNat)).map s.cipherBlock :=
  (blocks_putBlocks s _ (by simp only [ceil8]; omega)).2

theorem blk_putCipher (s : State) {j : Nat} (hj : j < ceil8 s.tlen.toNat) : s.putCipher.blk j = s.cipherBlock j :=
  blk_putBlocks s _ _ hj

/-- The writes of ENCTXT: the ciphertext, its rendering and the round keys (45_pipeline.md R186). -/
def State.writeEnctxt (s : State) : State := (s.putCipher.storeRendered s.putCipher.blocks).loadRoundKeys

theorem exec_enctxt (s : State) :
    exec .enctxt s = finish s (unlessError (rangeError s.tlen s.cfg.txtCap)
      (unlessError (strictError s.ctrl.strict s.textBytes) (.ok s.writeEnctxt))) := by
  rw [State.writeEnctxt, blocks_putCipher, State.putCipher, State.putBlocks, ← map_encryptBlock_pack]
  rfl

section
variable (s : State)

theorem rkLoaded_writeEnctxt : Claims.rkLoaded s s.writeEnctxt :=
  rkLoaded_of_sameKeys (rkLoaded_loadRoundKeys (s.putCipher.storeRendered s.putCipher.blocks))
    (State.storeRendered_key _ _) (State.storeRendered_rounds _ _) (State.storeRendered_rk _ _)

theorem writeEnctxt_frame :
    s.writeEnctxt = { s with
      mem := s.writeEnctxt.mem, rk := s.writeEnctxt.rk, nblk := BitVec.ofNat 32 (ceil8 s.tlen.toNat),
      hlen := BitVec.ofNat 32 (16 * ceil8 s.tlen.toNat) } := by
  rw [State.writeEnctxt, storeRendered_blocks_frame, nblk_putCipher]
  rfl

theorem blk_writeEnctxt {j : Nat} (hcap : s.tlen.toNat ≤ s.cfg.txtCap) (hj : j < ceil8 s.tlen.toNat) :
    s.writeEnctxt.blk j = s.cipherBlock j := by
  have hentry : j < s.putCipher.cfg.blkCap := hj.trans_le (ceil8_le hcap)
  rw [State.writeEnctxt, blk_loadRoundKeys, blk_storeRendered_blocks hentry, blk_putCipher s hj]

theorem hex_writeEnctxt {j d : Nat} (hj : j < ceil8 s.tlen.toNat) (hd : d < 16) :
    s.writeEnctxt.hex (16 * j + d) = hexChar (blockNibble (s.cipherBlock j) d) := by
  rw [State.writeEnctxt, hex_loadRoundKeys, hex_storeRendered_blocks _ (by rwa [nblk_putCipher]) hd, blk_putCipher s hj]

theorem bufByte_writeEnctxt_outside {a : Nat} (hblocks : ¬ Claims.inBlocks (ceil8 s.tlen.toNat) a)
    (hhex : ¬ Claims.inHex (16 * ceil8 s.tlen.toNat) a) : s.writeEnctxt.bufByte a = s.bufByte a := by
  rw [State.writeEnctxt, bufByte_loadRoundKeys, bufByte_storeRendered_blocks_outside _ (by rwa [nblk_putCipher]),
    State.putCipher, bufByte_putBlocks_outside s _ _ hblocks]

end

/-! DECTXT. -/

/-- Block j of the plaintext of the hex operand (45_pipeline.md R187). -/
def State.plainBlock (s : State) (j : Nat) : Block := s.decryptBlock (Claims.parsedBlock s j)

/-- The text of the plaintext of the hex operand (45_pipeline.md R187). -/
def State.plainText (s : State) : List Byte :=
  unpack ((List.range (s.hlen.toNat / 16)).map s.plainBlock) (s.hlen.toNat / 16)

/-- The state with the plaintext of the hex operand as its block operand. -/
def State.putPlain (s : State) : State := s.putBlocks (s.hlen.toNat / 16) s.plainBlock

theorem map_decryptBlock_parse (s : State) :
    (parse s.hexBytes s.hlen.toNat).map s.decryptBlock = (List.range (s.hlen.toNat / 16)).map s.plainBlock := by
  rw [parse_hexBytes, List.map_map]
  rfl

theorem nblk_putPlain (s : State) : s.putPlain.nblk.toNat = s.hlen.toNat / 16 :=
  (blocks_putBlocks s _ (by omega)).1

theorem blocks_putPlain (s : State) : s.putPlain.blocks = (List.range (s.hlen.toNat / 16)).map s.plainBlock :=
  (blocks_putBlocks s _ (by omega)).2

theorem blk_putPlain (s : State) {j : Nat} (hj : j < s.hlen.toNat / 16) : s.putPlain.blk j = s.plainBlock j :=
  blk_putBlocks s _ _ hj

theorem unpack_blocks_putPlain (s : State) : unpack s.putPlain.blocks s.putPlain.blocks.length = s.plainText := by
  rw [length_blocks, nblk_putPlain, blocks_putPlain, State.plainText]

/-- The writes of DECTXT: the plaintext, its text, LOSSY and the round keys (45_pipeline.md R187). -/
def State.writeDectxt (s : State) : State := (s.putPlain.storeUnpacked s.putPlain.blocks).loadRoundKeys

theorem exec_dectxt (s : State) :
    exec .dectxt s = finish s (s.checkHex
      (unlessError (strictError s.putPlain.ctrl.strict (bytesOfBlocks s.putPlain.blocks)) (.ok s.writeDectxt))) := by
  rw [State.writeDectxt, blocks_putPlain, State.putPlain, State.putBlocks, ← map_decryptBlock_parse]
  rfl

section
variable {s : State}

/-- The ENCLOSS check passes on the plaintext (60_exceptions.md R210). -/
theorem strictError_putPlain_none
    (h : s.ctrl.strict = true → ∀ j < s.hlen.toNat / 16, ∀ q < 8, (blockByte (s.plainBlock j) q).toNat < 0x80) :
    strictError s.putPlain.ctrl.strict (bytesOfBlocks s.putPlain.blocks) = none := by
  refine strictError_blocks_none fun hstrict j hj => ?_
  rw [nblk_putPlain] at hj
  rw [blk_putPlain s hj]
  exact h hstrict j hj

/-- The ENCLOSS check fails on the plaintext at its first byte ≥ 0x80, byte q of block j. -/
theorem strictError_putPlain_some (hstrict : s.ctrl.strict = true) {j q : Nat} (hj : j < s.hlen.toNat / 16)
    (hq : q < 8) (h : 0x80 ≤ (blockByte (s.plainBlock j) q).toNat)
    (hlt : ∀ j' q', q' < 8 → 8 * j' + q' < 8 * j + q → (blockByte (s.plainBlock j') q').toNat < 0x80) :
    strictError s.putPlain.ctrl.strict (bytesOfBlocks s.putPlain.blocks) =
      some { code := .encloss, info := BitVec.ofNat 32 (8 * j + q) } := by
  refine strictError_blocks_some (s := s.putPlain) hstrict (by rwa [nblk_putPlain]) hq ?_ fun j' q' hq' hbefore => ?_
  · rwa [blk_putPlain s hj]
  · rw [blk_putPlain s (by omega)]
    exact hlt j' q' hq' hbefore

end

section
variable (s : State)

theorem rkLoaded_writeDectxt : Claims.rkLoaded s s.writeDectxt :=
  rkLoaded_of_sameKeys (rkLoaded_loadRoundKeys (s.putPlain.storeUnpacked s.putPlain.blocks))
    (State.storeUnpacked_key _ _) (State.storeUnpacked_rounds _ _) (State.storeUnpacked_rk _ _)

theorem writeDectxt_frame :
    s.writeDectxt = { s with
      mem := s.writeDectxt.mem, rk := s.writeDectxt.rk, nblk := BitVec.ofNat 32 (s.hlen.toNat / 16),
      tlen := BitVec.ofNat 32 s.plainText.length,
      status := { s.status with lossy := s.writeDectxt.status.lossy } } := by
  rw [State.writeDectxt, storeUnpacked_frame, unpack_blocks_putPlain]
  rfl

theorem lossy_writeDectxt :
    s.writeDectxt.status.lossy = true ↔ s.status.lossy = true ∨
      ∃ j < s.hlen.toNat / 16, ∃ q < 8, 0x80 ≤ (blockByte (s.plainBlock j) q).toNat := by
  refine (lossy_storeUnpacked_blocks s.putPlain).trans (or_congr_right ?_)
  rw [nblk_putPlain]
  exact exists_congr fun j => and_congr_right fun hj => by rw [blk_putPlain s hj]

theorem blk_writeDectxt {j : Nat} (hcap : s.hlen.toNat ≤ s.cfg.hexCap) (hj : j < s.hlen.toNat / 16) :
    s.writeDectxt.blk j = s.plainBlock j := by
  have hlen : s.putPlain.blocks.length ≤ s.putPlain.cfg.blkCap := by
    rw [length_blocks, nblk_putPlain]
    exact blkCap_of_hexCap hcap
  rw [State.writeDectxt, blk_loadRoundKeys, blk_storeUnpacked hlen, blk_putPlain s hj]

theorem txt_writeDectxt {b : Nat} (hb : b < s.plainText.length) : s.writeDectxt.txt b = s.plainText.getD b 0#8 := by
  rw [State.writeDectxt, txt_loadRoundKeys, txt_storeUnpacked _ _ (by rwa [unpack_blocks_putPlain]),
    unpack_blocks_putPlain]

theorem bufByte_writeDectxt_outside {a : Nat} (hblocks : ¬ Claims.inBlocks (s.hlen.toNat / 16) a)
    (htext : ¬ Claims.inText s.plainText.length a) : s.writeDectxt.bufByte a = s.bufByte a := by
  rw [State.writeDectxt, bufByte_loadRoundKeys, bufByte_storeUnpacked_outside _ _ (by rwa [unpack_blocks_putPlain]),
    State.putPlain, bufByte_putBlocks_outside s _ _ hblocks]

end

end Sys2Proof.Machine

namespace Sys2Proof.Claims

open Sys2Proof Sys2Proof.Machine

/-- Settles O38: the two checks of ENCTXT in order, then the ciphertext becomes the block operand and is rendered. -/
theorem encryptTextResult : Obligations.EncryptTextResult := by
  intro s
  rw [exec_enctxt]
  refine ⟨fun hcap => ?range, fun hcap hstrict b hb hbad hfirst => ?encloss, fun hcap hclean => ?success⟩
  case range => exact finish_beyond_capacity s _ hcap
  case encloss =>
    rw [finish_within_capacity s _ hcap]
    exact finish_unlessError_some s _ (strictError_textBytes_some hstrict hb hbad hfirst)
  case success =>
    rw [finish_within_capacity s _ hcap, finish_unlessError_none s _ (strictError_textBytes_none hclean)]
    refine ⟨s.writeEnctxt.completeOk, finish_ok _ _, ?keys, ?frame, fun j hj => ?block,
      fun a hblocks hhex => ?outside⟩
    case keys => exact (rkLoaded_completeOk s _).2 <| rkLoaded_writeEnctxt s
    case frame => rw [completeOk_eq_okStatus, writeEnctxt_frame]
    case block =>
      rw [blk_completeOk, blk_writeEnctxt s hcap hj]
      exact ⟨rfl, fun d hd => by rw [hex_completeOk, hex_writeEnctxt s hj hd]⟩
    case outside => rw [bufByte_completeOk, bufByte_writeEnctxt_outside s hblocks hhex]

/-- Settles O39: the three checks on the hex operand and the strict one on its plaintext in order, then the plaintext
becomes the block operand and is unpacked. -/
theorem decryptTextResult : Obligations.DecryptTextResult := by
  intro s
  rw [exec_dectxt]
  refine ⟨finish_checkHex_range s _, finish_checkHex_badlen s _, fun hcap hlen b hb hbad hfirst => ?badhex,
    fun hcap hlen hdigits p hp => ?digits⟩
  case badhex => exact finish_checkHex_badhex s _ hcap hlen hb hbad hfirst
  case digits =>
    obtain rfl : p = s.plainBlock := funext hp
    rw [finish_checkHex_valid s _ hcap hlen hdigits]
    refine ⟨fun hstrict j hj q hq hbad hfirst => ?encloss, fun hclean => ?success⟩
    case encloss => exact finish_unlessError_some s _ (strictError_putPlain_some hstrict hj hq hbad hfirst)
    case success =>
      rw [finish_unlessError_none s _ (strictError_putPlain_none hclean)]
      refine ⟨s.writeDectxt.completeOk, s.plainText, rfl, finish_ok _ _, ?keys, ?frame, ?lossy, fun j hj => ?block,
        fun b hb => ?text, fun a hblocks htext => ?outside⟩
      case keys => exact (rkLoaded_completeOk s _).2 <| rkLoaded_writeDectxt s
      case frame => rw [completeOk_eq_okStatus, writeDectxt_frame]; rfl
      case lossy => rw [State.completeOk_status, Status.completeOk_lossy, lossy_writeDectxt]
      case block => rw [blk_completeOk, blk_writeDectxt s hcap hj]
      case text => rw [txt_completeOk, txt_writeDectxt s hb]
      case outside => rw [bufByte_completeOk, bufByte_writeDectxt_outside s hblocks htext]

end Sys2Proof.Claims
end

section
/-! PROOFS. NOP (46_control.md R200). -/

namespace Sys2Proof.Machine

open Sys2Proof

theorem exec_nop (s : State) : exec .nop s = finish s (.ok s) := rfl

end Sys2Proof.Machine

namespace Sys2Proof.Claims

open Sys2Proof Sys2Proof.Machine

/-- Settles O11: NOP has no check and no write, so its completion with OK is all it does. -/
theorem nopCompletes : Obligations.NopCompletes := by
  intro s
  rw [exec_nop, finish_ok, completeOk_eq_okStatus]

end Sys2Proof.Claims
end

section
/-! PROOFS. Outcomes (60_exceptions.md R213). -/

namespace Sys2Proof.Machine

open Sys2Proof

/-- A command completes in one of two ways (30_encoding.md R95): with OK and its writes, or by writing
STATUS and ERRINFO alone. -/
theorem exec_eq_next_cases {i : Instr} {s t : State} (h : exec i s = .next t) :
    (∃ w : State, Writes s w ∧ t = w.completeOk) ∨ ∃ e : CmdError, t = s.completeError e := by
  obtain ⟨w, hw, hwrites⟩ | ⟨e, he⟩ := exec_answer i s
  · exact .inl ⟨w, hwrites, Host.Outcome.next.inj (h.symm.trans hw)⟩
  · exact .inr ⟨e, Host.Outcome.next.inj (h.symm.trans he)⟩

end Sys2Proof.Machine

namespace Sys2Proof.Claims

open Sys2Proof Sys2Proof.Machine

/-- Settles O44: a completion with OK leaves ERRCODE 0, so a command that reports another outcome has completed with an
error, which writes STATUS and ERRINFO alone. -/
theorem failureChangesNothing : Obligations.FailureChangesNothing := by
  intro i s t hexec hfail
  obtain ⟨w, -, rfl⟩ | ⟨e, rfl⟩ := exec_eq_next_cases hexec
  case inl => exact absurd (Status.completeOk_errcode w.status) hfail
  case inr => exact completeError_eq_failed s e

end Sys2Proof.Claims
end

section
/-! PROOFS. The reset table (70_reset_and_hazards.md R241). -/

namespace Sys2Proof.Machine

open Sys2Proof

/-- Every entry of the round-key file is 0 after reset. -/
theorem State.reset_rk_getElem {i : Nat} (hi : i < 64) : State.reset.rk[i] = 0#32 :=
  Vector.getElem_replicate hi

/-- No interrupt is raised while DONE is 0 (10_state.md R44). -/
theorem State.irq_eq_false_of_not_done {s : State} (h : s.status.done = false) : s.irq = false := by
  rw [State.irq, h, Bool.and_false]

end Sys2Proof.Machine

namespace Sys2Proof.Claims

open Sys2Proof Sys2Proof.Machine

/-- Settles O1: a named register holds the reset record's own value, an RK entry that of the zero-filled file, and IRQ
is 0 because DONE is. -/
theorem resetRegisterValues : Obligations.ResetRegisterValues :=
  have hdone : State.reset.status.done = false := rfl
  ⟨rfl, rfl, rfl,
    rfl, hdone, rfl, rfl, rfl, rfl,
    rfl, rfl, rfl, rfl, rfl, rfl, rfl, rfl, rfl, rfl, rfl, rfl,
    fun _ hi => State.reset_rk_getElem hi, State.irq_eq_false_of_not_done hdone⟩

end Sys2Proof.Claims
end

section
/-! PROOFS. The invariant of Safety.lean, operation by operation (10_state.md R23, 20_memory.md R61, 30_encoding.md R94,
R95, 60_exceptions.md R210). -/

namespace Sys2Proof.Machine

open Sys2Proof

/-- The invariant reads ROUNDS, ERRCODE, BUSY, DONE, the buffers and the parameter alone. -/
theorem State.Inv.of_sameFields {s t : State} (h : s.Inv) (hrounds : t.rounds = s.rounds)
    (herrcode : t.status.errcode = s.status.errcode) (hbusyDone : t.busyExcludesDone) (hmem : t.mem = s.mem)
    (hcfg : t.cfg = s.cfg) : t.Inv where
  rounds := by rw [State.roundsLegal, hrounds]; exact h.rounds
  errcode := by rw [State.errcodeProduced, herrcode]; exact h.errcode
  busyDone := hbusyDone
  memWf := by rw [hmem]; exact h.memWf
  memWithin := by rw [State.memWithinBuffers, hmem, hcfg]; exact h.memWithin

/-- The reset table meets the invariant, whatever the model's own fields hold. -/
theorem State.reset_inv : State.reset.Inv where
  rounds := by decide
  errcode := by decide
  busyDone := fun _ => rfl
  memWf := List.Pairwise.nil
  memWithin := fun _ hc => absurd hc List.not_mem_nil

theorem State.resetUnit_inv (s : State) : s.resetUnit.Inv :=
  { State.reset_inv with memWithin := fun _ hc => absurd hc List.not_mem_nil }

/-- The model's own fields are not in the invariant. -/
theorem State.Inv.setSchedule {s : State} (h : s.Inv) (r : List Turn) : State.Inv { s with schedule := r } :=
  h.of_sameFields rfl rfl h.busyDone rfl rfl

theorem State.Inv.setBus {s : State} (h : s.Inv) (b : BusResponse) : State.Inv { s with bus := b } :=
  h.of_sameFields rfl rfl h.busyDone rfl rfl

/-! Host accesses. -/

theorem State.Inv.hostRead {s : State} (h : s.Inv) (off : Nat) : (s.hostRead off).Inv := by
  obtain ⟨b, n, hread⟩ := hostRead_frame s off
  rw [hread]
  exact h.of_sameFields rfl rfl h.busyDone rfl rfl

theorem State.Inv.ignoreWrite {s : State} (h : s.Inv) : s.ignoreWrite.Inv :=
  h.of_sameFields rfl rfl h.busyDone rfl rfl

/-- An issue sets BUSY and clears DONE (30_encoding.md R94). -/
theorem State.Inv.issue {s : State} (h : s.Inv) (v : Word) : (s.issue v).Inv :=
  h.of_sameFields rfl rfl (fun _ => rfl) rfl rfl

/-- A write of ROUNDS takes legal values alone (10_state.md R23). -/
theorem State.Inv.writeRounds {s : State} (h : s.Inv) (v : Word) : (s.writeRounds v).Inv := by
  unfold State.writeRounds
  split
  · rename_i hv
    have hlegal : 1 ≤ (v.setWidth 7).toNat ∧ (v.setWidth 7).toNat ≤ 64 := by
      rw [BitVec.toNat_setWidth]
      omega
    exact { h with rounds := hlegal }
  · exact h.ignoreWrite

/-- A write of STATUS clears bits, DONE among them, and keeps ERRCODE and BUSY (10_state.md R33). -/
theorem State.Inv.writeOneToClear {s : State} (h : s.Inv) (v : Word) :
    State.Inv { s with status := s.status.writeOneToClear v } := by
  refine h.of_sameFields rfl rfl (fun hbusy => ?_) rfl rfl
  rw [Status.writeOneToClear_done, h.busyDone hbusy, Bool.false_and]

theorem State.Inv.writeReg {s : State} (h : s.Inv) (v : Word) (r : RegName) : (s.writeReg v r).Inv := by
  cases r with
  | id | errinfo | res | boutHi | boutLo => exact h.ignoreWrite
  | status => exact h.writeOneToClear v
  | cmd => exact h.issue v
  | rounds => exact h.writeRounds v
  | ctrl | keyHi | keyLo | arg0 | arg1 | binHi | binLo | tlen | nblk | hlen =>
    exact h.of_sameFields rfl rfl h.busyDone rfl rfl

/-- The four bytes of an aligned buffer word are all in the buffer, as its base and capacity are multiples of 4. -/
theorem isBuffer_of_word {c : Config} {off a : Nat} (h : isBuffer c off = true) (halign : off % 4 = 0) (hle : off ≤ a)
    (hlt : a < off + 4) : isBuffer c a = true := by
  rw [isBuffer_eq_true, hexCap_eq, txtCap_eq] at h ⊢
  omega

theorem State.Inv.storeWord {s : State} (h : s.Inv) {off : Nat} (v : Word) (hbuf : isBuffer s.cfg off = true)
    (halign : off % 4 = 0) : (s.storeWord off v).Inv :=
  { h with
    memWf := Memory.writeBytes_wf _ _ _ h.memWf
    memWithin := fun c hc => by
      obtain ⟨hle, hlt⟩ | hold := Memory.mem_writeBytes _ _ _ _ hc
      · exact isBuffer_of_word hbuf halign hle (by rwa [length_wordBytes] at hlt)
      · exact h.memWithin c hold }

theorem State.Inv.writePlace {s : State} (h : s.Inv) {off : Nat} (v : Word) (halign : off % 4 = 0) :
    (s.writePlace off v).Inv := by
  unfold State.writePlace
  split
  case h_1 r _ => exact h.writeReg v r
  case h_2 => exact h.ignoreWrite
  case h_3 hplace => exact h.storeWord v (placeAt_eq_buffer hplace) halign
  case h_4 => exact h.ignoreWrite

theorem State.Inv.hostWrite {s : State} (h : s.Inv) {off : Nat} (v : Word) (halign : off % 4 = 0) :
    (s.hostWrite off v).Inv := by
  unfold State.hostWrite
  split
  · exact h.ignoreWrite.setBus _
  · exact (h.writePlace v halign).setBus _

theorem accepts_aligned {off : Offset} {w : AccessWidth} (h : accepts off w = true) : off.toNat % 4 = 0 := by
  simp only [accepts, Bool.and_eq_true, beq_iff_eq] at h
  exact h.2

theorem State.Inv.hostAccess {s : State} (h : s.Inv) (a : Access) : (s.hostAccess a).Inv := by
  cases a with
  | read off w =>
    simp only [State.hostAccess]
    split
    · exact h.hostRead _
    · exact h.setBus _
  | write off w v =>
    simp only [State.hostAccess]
    split
    · rename_i haccepts
      exact h.hostWrite v (accepts_aligned haccepts)
    · exact h.setBus _

theorem State.Inv.hostPoll {s : State} (h : s.Inv) (d : Nat) : (s.hostPoll d).Inv := by
  have hpolled := h.hostRead RegName.status.offset
  unfold State.hostPoll
  split
  · split
    · exact hpolled.setSchedule _
    · exact hpolled.setSchedule _
  · exact hpolled

/-! The engine's step. -/

theorem Answer.next_cases {s t : State} (h : Answer s (.next t)) :
    (∃ w : State, Writes s w ∧ t = w.completeOk) ∨ ∃ e : CmdError, t = s.completeError e := by
  obtain ⟨w, hw, hwrites⟩ | ⟨e, he⟩ := h
  · exact .inl ⟨w, hwrites, Host.Outcome.next.inj hw⟩
  · exact .inr ⟨e, Host.Outcome.next.inj he⟩

/-- A completion clears BUSY and gives a produced code; its writes are within the buffers. -/
theorem State.Inv.of_answer {s t : State} (h : s.Inv) (ht : Answer s (.next t)) : t.Inv := by
  obtain ⟨w, hw, rfl⟩ | ⟨e, rfl⟩ := ht.next_cases
  · exact {
      rounds := by rw [State.roundsLegal, State.completeOk_rounds, hw.rounds]; exact h.rounds
      errcode := Nat.zero_le _
      busyDone := fun hbusy => absurd hbusy Bool.false_ne_true
      memWf := hw.memWf h.memWf
      memWithin := fun c hc => by
        rw [State.completeOk_cfg, hw.cfg]
        exact (hw.memWithin c hc).elim (h.memWithin c) id }
  · have hcode : e.code.toBits.toNat ≤ 5 := by cases e.code <;> decide
    exact { h with errcode := hcode, busyDone := fun hbusy => absurd hbusy Bool.false_ne_true }

theorem State.Inv.engineTurn {s t : State} (h : s.Inv) (ht : engineTurn s = .next t) : t.Inv := by
  obtain ⟨-, rfl⟩ | ⟨-, hcomplete⟩ := engineTurn_next ht
  · exact h
  · exact h.of_answer (hcomplete ▸ completeCommand_answer s)

theorem engineTurn_idle {s : State} (hidle : s.status.busy = false) : engineTurn s = .next s :=
  if_neg (by rw [hidle]; exact Bool.false_ne_true)

/-- While busy the engine runs the command `CMD` decodes to (30_encoding.md R95, R97). -/
theorem engineTurn_of_decode {s : State} {i : Instr} (hbusy : s.status.busy = true) (h : decode s.cmd = .ok i) :
    engineTurn s = exec i s := by
  rw [engineTurn_busy hbusy, completeCommand, h]

/-- The engine's turn answers a next state. -/
theorem exists_engineTurn (s : State) : ∃ t, engineTurn s = .next t := by
  unfold engineTurn
  split
  · obtain ⟨w, hw, -⟩ | ⟨e, he⟩ := completeCommand_answer s
    · exact ⟨_, hw⟩
    · exact ⟨_, he⟩
  · exact ⟨s, rfl⟩

theorem exists_takeTurn (turn : Turn) (s : State) : ∃ t, takeTurn turn s = .next t := by
  cases turn with
  | engine => exact exists_engineTurn s
  | access | poll | reset => exact ⟨_, rfl⟩

end Sys2Proof.Machine
end

section
/-! PROOFS. The statements on reset and steps. -/

namespace Sys2Proof.Claims

open Sys2Proof Sys2Proof.Machine

/-- Settles O8: by what a step can have done. Each kind of turn keeps the invariant. -/
theorem stepKeepsInvariant : Obligations.StepKeepsInvariant := by
  intro s t hinv hstep
  obtain ⟨a, r, -, rfl⟩ | ⟨d, r, -, rfl⟩ | ⟨r, -, rfl⟩ | ⟨r, -, hengine⟩ | ⟨-, hengine⟩ := step_next hstep
  case inl => exact (hinv.setSchedule r).hostAccess a
  case inr.inl => exact (hinv.setSchedule r).hostPoll d
  case inr.inr.inl => exact State.resetUnit_inv _
  case inr.inr.inr.inl => exact (hinv.setSchedule r).engineTurn hengine
  case inr.inr.inr.inr => exact hinv.engineTurn hengine

/-- Settles O7: every kind of turn answers a next state, since every command completes. -/
theorem stepNeverStops : Obligations.StepNeverStops := fun _ => exists_takeTurn _ _

/-- Settles O2: the reset table has ROUNDS 8, ERRCODE 0 and BUSY 0, and no buffer byte is written. -/
theorem resetMeetsInvariant : Obligations.ResetMeetsInvariant := State.reset_inv

/-- Settles O3: a reset turn is `State.resetUnit`. -/
theorem resetTurnRestoresRegisters : Obligations.ResetTurnRestoresRegisters := fun _ _ hschedule =>
  step_reset hschedule

/-- Settles O4: a step is its turn, and the engine's turn is the completion step of the decoded command while busy and
nothing while idle. -/
theorem stepRunsDecodedCommand : Obligations.StepRunsDecodedCommand := by
  refine ⟨fun s i hbusy hdecode => ⟨fun r hschedule => ?engine, fun hnil => ?noTurn⟩, fun s a r => step_access,
    fun s r hidle hschedule => ?idle, fun s hidle hnil => ?idleNoTurn⟩
  case engine => exact (step_engine hschedule).trans (engineTurn_of_decode hbusy hdecode)
  case noTurn => exact (step_nil hnil).trans (engineTurn_of_decode hbusy hdecode)
  case idle => exact (step_engine hschedule).trans (engineTurn_idle hidle)
  case idleNoTurn => exact (step_nil hnil).trans (engineTurn_idle hidle)

end Sys2Proof.Claims
end

section
/-! PROOFS. The opcode map both ways (30_encoding.md R90, R92, R96, R97). -/

namespace Sys2Proof

/-- The encoding of a command has reserved field 0 and the command's opcode (30_encoding.md R92). -/
theorem eq_encode_iff {w : Word} {i : Instr} :
    w = encode i ↔ w.extractLsb' 8 24 = 0#24 ∧ w.extractLsb' 0 8 = opcodeOf i := by
  constructor
  · rintro rfl
    exact ⟨BitVec.extractLsb'_append_eq_left, BitVec.extractLsb'_append_eq_right⟩
  · rintro ⟨hrsv, hopc⟩
    rw [word_eq_fields w, hrsv, hopc, encode]

/-- The decoder accepts the encodings alone (30_encoding.md R97). -/
theorem decode_eq_ok {w : Word} {i : Instr} : decode w = .ok i ↔ w = encode i := by
  rw [eq_encode_iff, ← decodeOpc_eq_some]
  by_cases hrsv : w.extractLsb' 8 24 = 0#24
  · rw [decode_of_opc hrsv]
    cases hopc : decodeOpc (w.extractLsb' 0 8) <;> simp [hrsv]
  · simp [decode_of_rsv hrsv, hrsv]

theorem decode_eq_reservedBits {w : Word} : decode w = .error .reservedBits ↔ w.extractLsb' 8 24 ≠ 0#24 := by
  refine ⟨fun h hrsv => ?_, decode_of_rsv⟩
  rw [decode_of_opc hrsv] at h
  cases hopc : decodeOpc (w.extractLsb' 0 8) <;> simp [hopc] at h

theorem decode_eq_reservedOpcode {w : Word} :
    decode w = .error .reservedOpcode ↔ w.extractLsb' 8 24 = 0#24 ∧ 0x0E ≤ (w.extractLsb' 0 8).toNat := by
  rw [← decodeOpc_eq_none]
  by_cases hrsv : w.extractLsb' 8 24 = 0#24
  · rw [decode_of_opc hrsv]
    cases hopc : decodeOpc (w.extractLsb' 0 8) <;> simp [hrsv]
  · simp [decode_of_rsv hrsv, hrsv]

end Sys2Proof

namespace Sys2Proof.Claims

open Sys2Proof Sys2Proof.Machine

/-- Settles O9: the decoder looks at the reserved field first and then up the opcode in the map. -/
theorem decodeInvertsEncode : Obligations.DecodeInvertsEncode :=
  ⟨fun _ _ => decode_eq_ok, fun _ => decode_eq_reservedBits, fun _ => decode_eq_reservedOpcode⟩

/-- Settles O10: the fourteen words are the commands' encodings, and the two others break one condition each. -/
theorem decodeSpecWords : Obligations.DecodeSpecWords := by
  refine ⟨?_, ?_, ?_, ?_, ?_, ?_, ?_, ?_, ?_, ?_, ?_, ?_, ?_, ?_, ?opcode, ?reserved⟩
  case opcode => exact decode_eq_reservedOpcode.2 (by decide)
  case reserved => exact decode_eq_reservedBits.2 (by decide)
  all_goals exact decode_eq_ok.2 rfl

end Sys2Proof.Claims
end

section
/-! PROOFS. The key schedule (41_keyschedule.md R120, R121, R123). -/

namespace Sys2Proof.Machine

open Sys2Proof

/-- 55 undoes the multiplication by 7 modulo 64, so every shift occurs in one period (41_keyschedule.md R120). -/
theorem shiftAmount_surjective {v : Nat} (hv : v < 64) : ∃ i < 64, shiftAmount i = v := by
  refine ⟨55 * v % 64, Nat.mod_lt _ (by decide), ?_⟩
  rw [shiftAmount]
  omega

theorem shiftAmount_injective {i j : Nat} (hi : i < 64) (hj : j < 64) (h : shiftAmount i = shiftAmount j) : i = j := by
  simp only [shiftAmount] at h
  omega

theorem shiftAmount_add_period (i : Nat) : shiftAmount (i + 64) = shiftAmount i := by
  simp only [shiftAmount]
  omega

theorem shiftAmount_lt (i : Nat) : shiftAmount i < 64 := Nat.mod_lt _ (by decide)

/-- The kept bits and the wrapped bits do not overlap: bit b comes from the first exactly below place 64 − s. -/
theorem shifts_xor_eq_or (k : Block) {s : Nat} (hs : s < 64) :
    (k >>> s) ^^^ (k <<< (64 - s)) = (k >>> s) ||| (k <<< (64 - s)) := by
  apply BitVec.eq_of_getLsbD_eq
  intro b hb
  simp only [BitVec.getLsbD_xor, BitVec.getLsbD_or, BitVec.getLsbD_ushiftRight, BitVec.getLsbD_shiftLeft]
  by_cases hkept : b < 64 - s
  · simp [hkept]
  · have hout : k.getLsbD (s + b) = false := BitVec.getLsbD_of_ge _ _ (by omega)
    simp [hout]

theorem rotateRight_eq_or (k : Block) {s : Nat} (hs : s < 64) :
    k.rotateRight s = (k >>> s) ||| (k <<< (64 - s)) := by
  rw [BitVec.rotateRight, BitVec.rotateRightAux, Nat.mod_eq_of_lt hs]

/-- The XOR formula is a right rotation, shift 0 with its wrap term 0 among them (41_keyschedule.md R123). -/
theorem shifted_eq_rotateRight (k : Block) {s : Nat} (hs : s < 64) :
    (k >>> s) ^^^ wrappedBits k s = k.rotateRight s := by
  by_cases h0 : s = 0
  · subst h0
    simp [wrappedBits, rotateRight_eq_or k hs]
  · rw [wrappedBits, if_neg h0, shifts_xor_eq_or k hs, rotateRight_eq_or k hs]

theorem roundKey_eq_rotateRight (k : Block) (i : Nat) : roundKey k i = lowHalf (k.rotateRight (shiftAmount i)) := by
  rw [roundKey, shifted_eq_rotateRight k (shiftAmount_lt i)]

/-- Bit b of a round key is a key bit (41_keyschedule.md R123). -/
theorem roundKey_getLsbD (k : Block) (i : Nat) {b : Nat} (hb : b < 32) :
    (roundKey k i).getLsbD b = k.getLsbD ((b + shiftAmount i) % 64) := by
  rw [roundKey, lowHalf, BitVec.getLsbD_extractLsb', Nat.zero_add, decide_eq_true hb, Bool.true_and,
    shifted_getLsbD k _ b (shiftAmount_lt i) (by omega)]

end Sys2Proof.Machine

namespace Sys2Proof.Claims

open Sys2Proof Sys2Proof.Machine

/-- Settles O14: 7 is invertible modulo 64, and a schedule lists its keys in order. -/
theorem roundKeysFollowFormula : Obligations.RoundKeysFollowFormula := by
  refine ⟨⟨by decide, fun _ => rfl, shiftAmount_add_period, fun _ => shiftAmount_surjective,
    fun i hi j hj => shiftAmount_injective hi hj⟩, fun k n => ⟨length_roundKeys k n, fun i hi => ?key⟩⟩
  case key => rw [getElem?_roundKeys k n i hi, roundKey_eq_formula]

/-- Settles O15: the two shifted keys share no bit, so that their XOR is their OR, which is the rotation. -/
theorem roundKeyIsRotation : Obligations.RoundKeyIsRotation := by
  refine ⟨fun k s _ hs => ⟨shifts_xor_eq_or k hs, ?rotation⟩, roundKey_eq_rotateRight,
    fun k i b hb => roundKey_getLsbD k i hb⟩
  case rotation => rw [shifts_xor_eq_or k hs, rotateRight_eq_or k hs]

end Sys2Proof.Claims
end

section
/-! PROOFS. The S-box and the round function as permutations (40_sbox.md R112, 42_round.md R132). -/

namespace Sys2Proof.Machine

open Sys2Proof

/-- The substitution is undone nibble by nibble. -/
theorem substitute_injective : Function.Injective substitute := fun a b h =>
  word_ext_nibbles fun j hj => sbox_injective _ _ <| by
    rw [← wordNibble_substitute a j hj, ← wordNibble_substitute b j hj, h]

theorem roundFunction_injective (k : Word) : Function.Injective fun r => roundFunction r k := fun a b h => by
  have hxor : a ^^^ k = b ^^^ k := substitute_injective h
  rwa [BitVec.xor_left_inj] at hxor

end Sys2Proof.Machine

namespace Sys2Proof.Claims

open Sys2Proof Sys2Proof.Machine

/-- Settles O12: the sixteen entries, one by one. -/
theorem sboxTableIsPermutation : Obligations.SboxTableIsPermutation := by
  refine ⟨?table, ?left, ?right, ?noFixedPoint⟩
  case table => rfl
  case left => decide
  case right => decide
  case noFixedPoint => decide

/-- Settles O18: F is the substitution of r XOR k, which is injective, hence a bijection of the finite type of words. -/
theorem roundFunctionBijective : Obligations.RoundFunctionBijective := by
  refine ⟨fun r k => ?xor, fun k => Finite.injective_iff_bijective.1 (roundFunction_injective k)⟩
  case xor => rw [roundFunction, roundFunction, BitVec.xor_zero]

end Sys2Proof.Claims
end

section
/-! PROOFS. Decryption undoes encryption (43_feistel.md R146), block by block and in the ECB commands (R145). -/

namespace Sys2Proof.Machine

open Sys2Proof

/-- A fold is undone by the fold of the undoing steps over the reversed list. -/
theorem foldl_reverse_foldl {α β : Type} {f g : α → β → α} (h : ∀ a b, g (f a b) b = a) (l : List β) (a : α) :
    l.reverse.foldl g (l.foldl f a) = a := by
  induction l generalizing a with
  | nil => rfl
  | cons b l ih => rw [List.reverse_cons, List.foldl_concat, List.foldl_cons, ih, h]

theorem decrypt_encrypt (b k : Block) (n : Nat) : decrypt (encrypt b k n) k n = b := by
  rw [decrypt, encrypt, halves_ofHalves, foldl_reverse_foldl decRound_encRound, ofHalves_halves]

theorem encrypt_decrypt (b k : Block) (n : Nat) : encrypt (decrypt b k n) k n = b := by
  have hundo := foldl_reverse_foldl encRound_decRound (roundKeys k n).reverse (halves b)
  rw [List.reverse_reverse] at hundo
  rw [encrypt, decrypt, halves_ofHalves, hundo, ofHalves_halves]

theorem decryptBlock_encryptBlock (s : State) (b : Block) : s.decryptBlock (s.encryptBlock b) = b :=
  decrypt_encrypt b s.key s.roundCount

/-- Two states with the same first n blocks and the same bytes elsewhere have the same buffers. -/
theorem bufByte_eq_of_blk {s t : State} {n : Nat} (hblk : ∀ j < n, t.blk j = s.blk j)
    (hout : ∀ a, ¬ Claims.inBlocks n a → t.bufByte a = s.bufByte a) (a : Nat) : t.bufByte a = s.bufByte a := by
  by_cases ha : Claims.inBlocks n a
  · obtain ⟨hle, hlt⟩ := ha
    obtain ⟨j, p, hj, hp, rfl⟩ : ∃ j p, j < n ∧ p < 8 ∧ a = blkBase + 8 * j + p :=
      ⟨(a - 0x2000) / 8, (a - 0x2000) % 8, by omega, by omega, by simp only [blkBase]; omega⟩
    rw [bufByte_blk t j p hp, bufByte_blk s j p hp, hblk j hj]
  · exact hout a ha

/-- An ECB command over g after one over f, when g undoes f. -/
theorem runEcb_undone (s : State) {f g : Block → Block} (h : ∀ b, g (f b) = b) (hcap : s.nblk.toNat ≤ s.cfg.blkCap) :
    ∃ t u, runEcb s f = .next t ∧ runEcb t g = .next u ∧ t.key = s.key ∧ t.rounds = s.rounds ∧
      ∀ a, u.bufByte a = s.bufByte a := by
  obtain ⟨t, ht, -, hframe, hblk, hout⟩ := runEcb_result s f hcap
  have hnblk : t.nblk = s.nblk := by rw [hframe]
  have hcfg : t.cfg = s.cfg := by rw [hframe]
  have hkey : t.key = s.key := by rw [hframe]
  have hrounds : t.rounds = s.rounds := by rw [hframe]
  obtain ⟨u, hu, -, -, hblk', hout'⟩ := runEcb_result t g (by rw [hnblk, hcfg]; exact hcap)
  rw [hnblk] at hblk' hout'
  refine ⟨t, u, ht, hu, hkey, hrounds,
    bufByte_eq_of_blk (fun j hj => ?blk) fun a ha => (hout' a ha).trans (hout a ha)⟩
  case blk => rw [hblk' j hj, hblk j hj, h]

end Sys2Proof.Machine

namespace Sys2Proof.Claims

open Sys2Proof Sys2Proof.Machine

/-- Settles O22: each round undoes its counterpart, in reverse order. -/
theorem decryptUndoesEncrypt : Obligations.DecryptUndoesEncrypt :=
  fun b k n => ⟨decrypt_encrypt b k n, encrypt_decrypt b k n⟩

/-- Settles O27: DECECB decrypts under the same KEY and ROUNDS the blocks that ENCECB has encrypted. -/
theorem ecbRestoresBuffers : Obligations.EcbRestoresBuffers := by
  intro s hcap
  obtain ⟨t, u, ht, hu, hkey, hrounds, hbytes⟩ := runEcb_undone s (decryptBlock_encryptBlock s) hcap
  refine ⟨t, u, ?enc, ?dec, hbytes⟩
  case enc => rw [exec_encecb, ht]
  case dec => rw [exec_dececb, decryptBlock_congr hkey hrounds, hu]

end Sys2Proof.Claims
end

section
/-! PROOFS. Host accesses of registers, of the round-key file and of reserved offsets (20_memory.md R61 to R68). -/

namespace Sys2Proof.Machine

open Sys2Proof

/-! The fields of STATUS and CTRL (10_state.md R33, R34). -/

section
variable {w : Nat} (x : BitVec w) (b : Bool)

theorem getLsbD_append_ofBool_zero : (x ++ BitVec.ofBool b).getLsbD 0 = b := by
  rw [BitVec.getLsbD_append, if_pos Nat.one_pos, BitVec.getLsbD_ofBool, decide_eq_true rfl, Bool.true_and]

/-- Appending a bit moves every bit up by one place. -/
theorem getLsbD_append_ofBool_succ (i : Nat) : (x ++ BitVec.ofBool b).getLsbD (i + 1) = x.getLsbD i := by
  simp [BitVec.getLsbD_append]

theorem extractLsb'_append_ofBool_succ (i n : Nat) :
    (x ++ BitVec.ofBool b).extractLsb' (i + 1) n = x.extractLsb' i n :=
  BitVec.extractLsb'_append_eq_of_le (Nat.le_add_left 1 i)

end

/-- The flags are the five lowest bits; above them stand 0#3, ERRCODE and 0#20 (10_state.md R33). -/
theorem Status.toWord_fields (t : Status) :
    t.toWord.getLsbD 0 = t.busy ∧ t.toWord.getLsbD 1 = t.done ∧ t.toWord.getLsbD 2 = t.err ∧
      t.toWord.getLsbD 3 = t.wign ∧ t.toWord.getLsbD 4 = t.lossy ∧ t.toWord.extractLsb' 5 3 = 0#3 ∧
      t.toWord.extractLsb' 8 4 = t.errcode ∧ t.toWord.extractLsb' 12 20 = 0#20 := by
  have hcode : (0#20 ++ t.errcode ++ 0#3).extractLsb' 3 4 = t.errcode :=
    (BitVec.extractLsb'_append_eq_of_le le_rfl).trans BitVec.extractLsb'_append_eq_right
  have hhigh : (0#20 ++ t.errcode ++ 0#3).extractLsb' 7 20 = 0#20 :=
    (BitVec.extractLsb'_append_eq_of_le (by decide)).trans BitVec.extractLsb'_append_eq_left
  simp only [Status.toWord, getLsbD_append_ofBool_zero, getLsbD_append_ofBool_succ, extractLsb'_append_ofBool_succ,
    BitVec.extractLsb'_append_eq_right, hcode, hhigh, and_self]

theorem Ctrl.toWord_fields (c : Ctrl) :
    c.toWord.getLsbD 0 = c.ie ∧ c.toWord.getLsbD 1 = c.strict ∧ c.toWord.extractLsb' 2 30 = 0#30 := by
  simp only [Ctrl.toWord, getLsbD_append_ofBool_zero, getLsbD_append_ofBool_succ, extractLsb'_append_ofBool_succ,
    BitVec.extractLsb'_eq_self, and_self]

/-! Writes. -/

/-- While busy only `CTRL` and `STATUS` are written (20_memory.md R66). -/
theorem writableWhileBusy_false {c : Config} {off : Offset} (hctrl : off ≠ 0x0004#16) (hstatus : off ≠ 0x0008#16) :
    (placeAt c off.toNat).writableWhileBusy = false := by
  rw [Bool.eq_false_iff, ne_eq, writableWhileBusy_iff, placeAt_eq_reg, placeAt_eq_reg, not_or]
  exact ⟨fun h => hctrl (BitVec.eq_of_toNat_eq h), fun h => hstatus (BitVec.eq_of_toNat_eq h)⟩

/-- A write of ROUNDS within 1 to 64 is read back as written. -/
theorem writeRounds_legal (s : State) {v : Word} (hv : 1 ≤ v.toNat ∧ v.toNat ≤ 64) :
    s.writeRounds v = { s with rounds := v.setWidth 7 } ∧ (v.setWidth 7).toNat = v.toNat := by
  refine ⟨if_pos hv, ?_⟩
  rw [BitVec.toNat_setWidth]
  omega

theorem writeRounds_illegal (s : State) {v : Word} (hv : ¬ (1 ≤ v.toNat ∧ v.toNat ≤ 64)) :
    s.writeRounds v = s.ignoreWrite := if_neg hv

/-- The places without a register of their own that no host write changes: the round-key file and the reserved offsets
(20_memory.md R65, R67). -/
theorem hostAccess_write_readOnly (s : State) {off : Offset} (v : Word) (halign : off.toNat % 4 = 0)
    (hplace : placeAt s.cfg off.toNat = .reserved ∨ ∃ i, placeAt s.cfg off.toNat = .roundKey i) :
    s.hostAccess (.write off .word v) = { s.ignoreWrite with bus := .writeAck } := by
  have hwrite : s.writePlace off.toNat v = s.ignoreWrite := by
    unfold State.writePlace
    obtain hp | ⟨i, hp⟩ := hplace <;> rw [hp]
  rw [hostAccess_write s v halign, State.hostWrite, hwrite, ite_self]

/-- The bus offset of `RK[i]` (20_memory.md R61). -/
theorem toNat_roundKeyOffset {i : Nat} (hi : i < 64) : (BitVec.ofNat 16 (0x0100 + 4 * i)).toNat = rkBase + 4 * i := by
  rw [BitVec.toNat_ofNat, rkBase]
  omega

theorem roundKeyOffset_aligned (i : Nat) : (rkBase + 4 * i) % 4 = 0 := by
  rw [rkBase]
  omega

theorem hostAccess_write_roundKey (s : State) {i : Nat} (v : Word) (hi : i < 64) :
    s.hostAccess (.write (BitVec.ofNat 16 (0x0100 + 4 * i)) .word v) = { s.ignoreWrite with bus := .writeAck } := by
  have hoff := toNat_roundKeyOffset hi
  exact hostAccess_write_readOnly s v (by rw [hoff]; exact roundKeyOffset_aligned i)
    (.inr ⟨⟨i, hi⟩, by rw [hoff]; exact placeAt_roundKey s.cfg i hi⟩)

/-! Reads. -/

/-- A read changes the model's record of the access alone (20_memory.md R63, R68). -/
theorem hostAccess_read_frame (s : State) (off : Offset) (w : AccessWidth) :
    ∃ b n, s.hostAccess (.read off w) = { s with bus := b, busyReads := n } := by
  simp only [State.hostAccess]
  split
  · exact hostRead_frame s off.toNat
  · exact ⟨_, _, rfl⟩

theorem hostAccess_read_roundKey (s : State) (i : Fin 64) (hidle : s.status.busy = false) :
    s.hostAccess (.read (BitVec.ofNat 16 (0x0100 + 4 * i.val)) .word) = { s with bus := .readData s.rk[i] } := by
  have hoff := toNat_roundKeyOffset i.isLt
  rw [hostAccess_read s (by rw [hoff]; exact roundKeyOffset_aligned i), hoff, hostRead_plain s _ (.inl hidle),
    State.readPlace, placeAt_roundKey s.cfg i i.isLt]

/-- A named register's bus offset and the value a read returns. -/
def State.readRow (s : State) (r : RegName) : Offset × Word := (BitVec.ofNat 16 r.offset, s.readReg r)

/-- The registers whose reads return their value while busy (20_memory.md R68). -/
def RegName.kept : List RegName := RegName.all.filter fun r => !r.isResult

theorem RegName.isResult_of_mem_kept {r : RegName} (h : r ∈ RegName.kept) : r.isResult = false := by
  simpa using (List.mem_filter.1 h).2

/-- A read of a register whose value is returned gives the row's value. -/
theorem hostAccess_readRow {s : State} {p : Offset × Word} {l : List RegName} (hp : p ∈ l.map s.readRow)
    (hplain : ∀ r ∈ l, s.status.busy = false ∨ r.isResult = false) :
    s.hostAccess (.read p.1 .word) = { s with bus := .readData p.2 } := by
  obtain ⟨r, hr, rfl⟩ := List.mem_map.1 hp
  exact hostAccess_read_reg s r (hplain r hr)

/-- A read while busy of a place a command may write (20_memory.md R68). -/
theorem hostAccess_read_free (s : State) {off : Offset} (hbusy : s.status.busy = true) (halign : off.toNat % 4 = 0)
    (hresult : (placeAt s.cfg off.toNat).isResult = true) :
    s.hostAccess (.read off .word) =
      { s with bus := .readData (Config.busyReadWord s.busyReads), busyReads := s.busyReads + 1 } := by
  rw [hostAccess_read s halign, hostRead_free s _ hbusy hresult]

theorem isResult_of_mem_results {c : Config} {off : Offset}
    (h : off ∈ (RegName.all.filter RegName.isResult).map fun r => BitVec.ofNat 16 r.offset) :
    (placeAt c off.toNat).isResult = true := by
  obtain ⟨r, hr, rfl⟩ := List.mem_map.1 h
  rw [toNat_offset, placeAt_reg]
  exact (List.mem_filter.1 hr).2

theorem isResult_roundKeyFile {c : Config} {off : Nat} (halign : off % 4 = 0) (hlo : 0x0100 ≤ off)
    (hhi : off < 0x0200) : (placeAt c off).isResult = true := by
  obtain ⟨i, hi, rfl⟩ : ∃ i, i < 64 ∧ off = rkBase + 4 * i := ⟨(off - 0x0100) / 4, by omega, by rw [rkBase]; omega⟩
  rw [placeAt_roundKey c i hi]
  rfl

theorem isResult_buffer {c : Config} {off : Nat} (h : isBuffer c off = true) : (placeAt c off).isResult = true := by
  rw [placeAt_buffer c off h]
  rfl

/-! Reserved offsets. -/

/-- The five ranges of reserved offsets (20_memory.md R61). -/
theorem placeAt_reservedRange (c : Config) {off : Nat}
    (h : (0x0048 ≤ off ∧ off < 0x0100) ∨ (0x0200 ≤ off ∧ off < 0x1000) ∨
      (0x1000 + c.txtCap ≤ off ∧ off < 0x2000) ∨ (0x2000 + 8 * c.blkCap ≤ off ∧ off < 0x4000) ∨
      0x4000 + c.hexCap ≤ off) : placeAt c off = .reserved := by
  have hcap := blkCap_le c
  have htxt := txtCap_eq c
  have hhex := hexCap_eq c
  refine placeAt_reserved c off (by omega) (by omega) ?_
  rw [Bool.eq_false_iff, ne_eq, isBuffer_eq_true]
  omega

theorem hostAccess_read_reserved (s : State) {off : Offset} (halign : off.toNat % 4 = 0)
    (hplace : placeAt s.cfg off.toNat = .reserved) :
    s.hostAccess (.read off .word) = { s with bus := .readData 0#32 } := by
  rw [hostAccess_read s halign, hostRead_plain s _ (.inr (by rw [hplace]; rfl)), State.readPlace, hplace]

end Sys2Proof.Machine

namespace Sys2Proof.Claims

open Sys2Proof Sys2Proof.Machine

/-- Settles O50: no place but `CTRL` and `STATUS` is writable while busy. -/
theorem writeWhileBusyIgnored : Obligations.WriteWhileBusyIgnored := by
  intro s off v hbusy halign hctrl hstatus
  exact (hostAccess_write s v halign).trans (hostWrite_ignored s _ v hbusy (writableWhileBusy_false hctrl hstatus))

/-- Settles O51: the fields as they are concatenated, and the writes of the two registers that are writable while
busy. -/
theorem statusAndControlWrites : Obligations.StatusAndControlWrites := by
  refine ⟨Status.toWord_fields, Ctrl.toWord_fields, fun s v => ⟨?status, fun hidle => ?idle, fun hbusy => ?busy⟩⟩
  case status => exact hostAccess_write_reg s .status v (.inr rfl)
  case idle =>
    refine (hostAccess_write_reg s .ctrl v (.inr rfl)).trans ?_
    simp only [State.writeReg, Ctrl.write, hidle, Bool.false_eq_true, if_false]
  case busy =>
    refine (hostAccess_write_reg s .ctrl v (.inr rfl)).trans ?_
    simp only [State.writeReg, Ctrl.write, hbusy, if_true]

/-- Settles O52: a legal value fits the seven bits of the value field, and any other is ignored. -/
theorem roundsWriteTakesLegalValues : Obligations.RoundsWriteTakesLegalValues := by
  intro s v hidle
  have hwrite : s.hostAccess (.write 0x0014#16 .word v) = { s.writeRounds v with bus := .writeAck } :=
    hostAccess_write_reg s .rounds v (.inl hidle)
  refine ⟨fun hlegal => ?legal, fun hillegal => ?illegal⟩
  case legal =>
    obtain ⟨htaken, hvalue⟩ := writeRounds_legal s hlegal
    rw [htaken] at hwrite
    exact ⟨_, hwrite, rfl, hvalue⟩
  case illegal =>
    rw [writeRounds_illegal s hillegal] at hwrite
    exact hwrite

/-- Settles O53: an idle write of a register is that register's own write; the read-only ones and the round-key file
ignore it. -/
theorem idleRegisterWrites : Obligations.IdleRegisterWrites := by
  intro s v hidle
  have hwrite (r : RegName) : s.hostAccess (.write (BitVec.ofNat 16 r.offset) .word v) =
      { s.writeReg v r with bus := .writeAck } := hostAccess_write_reg s r v (.inl hidle)
  refine ⟨hwrite .keyHi, hwrite .keyLo, hwrite .arg0, hwrite .arg1, hwrite .binHi, hwrite .binLo, hwrite .tlen,
    hwrite .nblk, hwrite .hlen, ?readOnly, fun i hi => hostAccess_write_roundKey s v hi⟩
  case readOnly =>
    simp only [List.forall_mem_cons]
    exact ⟨hwrite .id, hwrite .errinfo, hwrite .res, hwrite .boutHi, hwrite .boutLo,
      fun _ h => absurd h List.not_mem_nil⟩

/-- Settles O54: a read records its answer alone, and while idle every register's answer is its value. -/
theorem readsReturnRegisters : Obligations.ReadsReturnRegisters := by
  refine ⟨fun s off width => ?frame, fun s hidle p hp => ?registers, fun s i => hostAccess_read_roundKey s i⟩
  case frame =>
    obtain ⟨b, n, hread⟩ := hostAccess_read_frame s off width
    exact ⟨_, hread, rfl⟩
  case registers =>
    rw [BitVec.ofNat_toNat] at hp
    exact hostAccess_readRow (l := RegName.all) hp fun _ _ => .inl hidle

/-- Settles O55: the five ranges hold no register and no buffer byte, whatever the unit does. -/
theorem reservedOffsetsReadZero : Obligations.ReservedOffsetsReadZero := by
  intro s off v halign hrange
  have hplace := placeAt_reservedRange s.cfg hrange
  exact ⟨hostAccess_read_reserved s halign hplace, hostAccess_write_readOnly s v halign (.inl hplace)⟩

/-- Settles O57: the places a command may write are six registers, the round-key file and the buffers. -/
theorem busyReadsAreFree : Obligations.BusyReadsAreFree := by
  intro s hbusy
  refine ⟨fun off halign hoff => hostAccess_read_free s hbusy halign ?result, fun p hp => ?kept⟩
  case result =>
    obtain hreg | ⟨hlo, hhi⟩ | hbuffer := hoff
    · exact isResult_of_mem_results hreg
    · exact isResult_roundKeyFile halign hlo hhi
    · exact isResult_buffer (isBuffer_eq_true.2 hbuffer)
  case kept =>
    rw [BitVec.ofNat_toNat] at hp
    exact hostAccess_readRow (l := RegName.kept) hp fun r hr => .inr (RegName.isResult_of_mem_kept hr)

end Sys2Proof.Claims
end

section
/-! PROOFS. Completions, the interrupt output and the registers a command leaves (10_state.md R44, 30_encoding.md R95,
60_exceptions.md R211, R220). -/

namespace Sys2Proof.Machine

open Sys2Proof

/-- IRQ is IE and DONE (10_state.md R44). -/
theorem State.irq_eq_true {s : State} : s.irq = true ↔ s.ctrl.ie = true ∧ s.status.done = true :=
  Bool.and_eq_true_iff

/-- Every completion clears BUSY, sets DONE and keeps CTRL and the turns to come. -/
theorem Answer.completed {s t : State} (h : Answer s (.next t)) :
    t.status.busy = false ∧ t.status.done = true ∧ t.ctrl = s.ctrl ∧ t.schedule = s.schedule := by
  obtain ⟨w, hw, rfl⟩ | ⟨e, rfl⟩ := h.next_cases
  · exact ⟨rfl, rfl, hw.ctrl, hw.schedule⟩
  · exact ⟨rfl, rfl, rfl, rfl⟩

/-- A completion raises IRQ if the interrupt is enabled. -/
theorem Answer.irq {s t : State} (h : Answer s (.next t)) :
    t.status.busy = false ∧ t.status.done = true ∧ t.irq = s.ctrl.ie := by
  obtain ⟨hbusy, hdone, hctrl, -⟩ := h.completed
  exact ⟨hbusy, hdone, by rw [State.irq, hdone, hctrl, Bool.and_true]⟩

theorem exec_next_answer {i : Instr} {s t : State} (h : exec i s = .next t) : Answer s (.next t) :=
  h ▸ exec_answer i s

/-- The engine's turn while busy is a completion. -/
theorem engineTurn_answer {s t : State} (hbusy : s.status.busy = true) (h : engineTurn s = .next t) :
    Answer s (.next t) := by
  rw [engineTurn_busy hbusy] at h
  exact h ▸ completeCommand_answer s

/-! IRQ after the writes of STATUS, CTRL and CMD. -/

theorem irq_write_status (s : State) (v : Word) :
    (s.hostAccess (.write 0x0008#16 .word v)).irq = (s.irq && !v.getLsbD 1) := by
  have hwrite : s.hostAccess (.write 0x0008#16 .word v) =
      { s with status := s.status.writeOneToClear v, bus := .writeAck } := hostAccess_write_reg s .status v (.inr rfl)
  rw [hwrite, State.irq, State.irq, Status.writeOneToClear_done, Bool.and_assoc]

theorem irq_write_ctrl (s : State) (v : Word) :
    (s.hostAccess (.write 0x0004#16 .word v)).irq = (v.getLsbD 0 && s.status.done) := by
  have hwrite : s.hostAccess (.write 0x0004#16 .word v) =
      { s with ctrl := s.ctrl.write s.status.busy v, bus := .writeAck } := hostAccess_write_reg s .ctrl v (.inr rfl)
  rw [hwrite, State.irq, Ctrl.write_ie]

end Sys2Proof.Machine

namespace Sys2Proof.Claims

open Sys2Proof Sys2Proof.Machine

/-- Settles O46: a completion leaves DONE 1 and CTRL as it was, and the other events write IE or DONE. -/
theorem completionRaisesIrq : Obligations.CompletionRaisesIrq := by
  refine ⟨fun s => State.irq_eq_true, fun i s t hexec => (exec_next_answer hexec).irq,
    fun s t r hbusy hschedule hstep => ?engine,
    fun s v => ⟨irq_write_status s v, fun hidle => ?issue, irq_write_ctrl s v⟩,
    fun s t r hschedule hstep => ?reset⟩
  case engine =>
    rw [step_engine hschedule] at hstep
    exact (engineTurn_answer (s := { s with schedule := r }) hbusy hstep).irq
  case issue =>
    rw [hostAccess_write_cmd_idle s v hidle]
    exact State.irq_eq_false_of_not_done rfl
  case reset =>
    rw [step_reset hschedule] at hstep
    cases hstep
    exact State.irq_eq_false_of_not_done rfl

/-- Settles O45: a command's writes name none of these registers, and its completion writes ERR and ERRINFO only with
an outcome other than OK. -/
theorem commandsKeepInputRegisters : Obligations.CommandsKeepInputRegisters := by
  intro i s t hexec
  obtain ⟨w, hw, rfl⟩ | ⟨e, rfl⟩ := exec_eq_next_cases hexec
  case inl =>
    obtain ⟨d, hd⟩ := hw.status
    have hstatus : w.completeOk.status = (s.status.noteLoss d).completeOk := by rw [State.completeOk_status, hd]
    rw [hstatus]
    exact ⟨⟨hw.key, hw.rounds, hw.arg0, hw.arg1, hw.bin, hw.ctrl, hw.cmd⟩, id, rfl,
      fun hlossy => Bool.or_eq_true_iff.2 (.inl hlossy), fun _ => ⟨hw.errinfo, rfl⟩⟩
  case inr =>
    have hcode : e.code.toBits ≠ 0#4 := by cases e.code <;> decide
    exact ⟨⟨rfl, rfl, rfl, rfl, rfl, rfl, rfl⟩, fun _ => rfl, rfl, id, fun hok => absurd hok hcode⟩

end Sys2Proof.Claims
end

section
/-! PROOFS. The `wait` statement (30_encoding.md R99). -/

namespace Sys2Proof.Machine

open Sys2Proof

/-- A read of STATUS returns it, busy or not (20_memory.md R68). -/
theorem hostRead_status (s : State) :
    s.hostRead RegName.status.offset = { s with bus := .readData s.status.toWord } := by
  rw [hostRead_plain s _ (.inr (by rw [placeAt_reg]; rfl)), readPlace_reg, State.readReg]

/-- A wait has ended: the turns after it are next, BUSY is 0, and the last value read is STATUS. -/
def WaitEnded (r : List Turn) (t : State) : Prop :=
  t.schedule = r ∧ t.status.busy = false ∧ t.bus = .readData t.status.toWord

/-- A poll that reads BUSY 0 ends the wait. -/
theorem step_poll_idle {s : State} {d : Nat} {r : List Turn} (hschedule : s.schedule = .poll d :: r)
    (hidle : s.status.busy = false) : ∃ t, step s = .next t ∧ WaitEnded r t := by
  rw [step_poll hschedule]
  unfold State.hostPoll
  rw [hostRead_status, if_neg (by simp [hidle])]
  exact ⟨_, rfl, rfl, hidle, rfl⟩

/-- The engine's turn while busy leaves BUSY 0 and the turns after it. -/
theorem step_engine_completes {s : State} {r : List Turn} (hschedule : s.schedule = .engine :: r)
    (hbusy : s.status.busy = true) : ∃ t, step s = .next t ∧ t.schedule = r ∧ t.status.busy = false := by
  obtain ⟨t, ht⟩ := exists_engineTurn { s with schedule := r }
  obtain ⟨hidle, -, -, hrest⟩ := (engineTurn_answer (s := { s with schedule := r }) hbusy ht).completed
  exact ⟨t, (step_engine hschedule).trans ht, hrest, hidle⟩

/-- The last poll granted to the engine reads BUSY 1: its turn comes next, then one more poll. -/
theorem step_poll_busy_zero {s : State} {r : List Turn} (hschedule : s.schedule = .poll 0 :: r)
    (hbusy : s.status.busy = true) :
    ∃ t, step s = .next t ∧ t.schedule = .engine :: .poll 0 :: r ∧ t.status.busy = true := by
  rw [step_poll hschedule, State.hostPoll, hostRead_status, if_pos (show s.status.busy = true from hbusy)]
  exact ⟨_, rfl, rfl, hbusy⟩

theorem step_poll_busy_succ {s : State} {d : Nat} {r : List Turn} (hschedule : s.schedule = .poll (d + 1) :: r)
    (hbusy : s.status.busy = true) :
    ∃ t, step s = .next t ∧ t.schedule = .poll d :: r ∧ t.status.busy = true := by
  rw [step_poll hschedule, State.hostPoll, hostRead_status, if_pos (show s.status.busy = true from hbusy)]
  exact ⟨_, rfl, rfl, hbusy⟩

/-- Each poll that reads BUSY 1 uses up one of those granted; the last is followed by the engine's turn and one poll. -/
theorem run_wait (d : Nat) {s : State} {r : List Turn} (hschedule : s.schedule = .poll d :: r) :
    ∃ n ≤ d + 3, ∃ t, core.run n s = .next t ∧ WaitEnded r t := by
  cases hbusy : s.status.busy with
  | false =>
    obtain ⟨t, hstep, hended⟩ := step_poll_idle hschedule hbusy
    exact ⟨1, by omega, t, run_step_first hstep, hended⟩
  | true =>
    induction d generalizing s with
    | zero =>
      obtain ⟨t, hpoll, hnext, hstill⟩ := step_poll_busy_zero hschedule hbusy
      obtain ⟨u, hengine, hrest, hidle⟩ := step_engine_completes hnext hstill
      obtain ⟨v, hlast, hended⟩ := step_poll_idle hrest hidle
      exact ⟨3, le_rfl, v, (run_step_first hpoll).trans ((run_step_first hengine).trans (run_step_first hlast)), hended⟩
    | succ d ih =>
      obtain ⟨t, hpoll, hnext, hstill⟩ := step_poll_busy_succ hschedule hbusy
      obtain ⟨n, hn, u, hrun, hended⟩ := ih hnext hstill
      exact ⟨n + 1, by omega, u, (run_step_first hpoll).trans hrun, hended⟩

end Sys2Proof.Machine

namespace Sys2Proof.Claims

open Sys2Proof Sys2Proof.Machine

/-- Settles O58: the granted polls, the engine's turn and one more poll. -/
theorem waitEnds : Obligations.WaitEnds := fun d _ _ hschedule => run_wait d hschedule

end Sys2Proof.Claims
end

section
/-! PROOFS. The accesses of `puttxt` (30_encoding.md R100). -/

namespace Sys2Proof.Machine

open Sys2Proof

/-! The turns of `puttxt`. -/

/-- Word w of a text as `puttxt` writes it: its bytes 4w to 4w+3, those beyond the text 0x00 (30_encoding.md R100). -/
def textWord (text : List Byte) (w : Nat) : Word := joinWord fun p => text.getD (4 * w + p) 0x00#8

/-- The host's write of a word of TXT. -/
def writeTextTurn (text : List Byte) (w : Nat) : Turn :=
  .access (.write (BitVec.ofNat 16 (txtBase + 4 * w)) .word (textWord text w))

/-- The host's write of TLEN. -/
def writeTlenTurn (text : List Byte) : Turn := .access (.write 0x003C#16 .word (BitVec.ofNat 32 text.length))

/-- With no delays the turns of transactions are those of each, one after the other. -/
theorem scheduleOf_nil (ts : List Txn) : scheduleOf ts [] = ts.flatMap (Txn.turns 0) := by
  induction ts with
  | nil => rfl
  | cons t ts ih => rw [scheduleOf, ih, List.flatMap_cons]

/-- The words of the text in order, then its length (30_encoding.md R100, R101). -/
theorem scheduleOf_puttxt (text : List Byte) :
    scheduleOf (encodeScript [.puttxt text]) [] =
      (List.range ((text.length + 3) / 4)).map (writeTextTurn text) ++ [writeTlenTurn text] := by
  have hwords : ((fillBuffer .txt text).map Stmt.encode).flatMap (Txn.turns 0) =
      (List.range ((text.length + 3) / 4)).map (writeTextTurn text) := by
    rw [fillBuffer, List.map_map, List.flatMap_map, List.map_eq_flatMap]
    rfl
  rw [scheduleOf_nil, encodeScript, List.flatMap_singleton, Line.expand, List.map_append, List.flatMap_append, hwords]
  rfl

/-! The run of those turns. -/

/-- Writes of consecutive bytes one after the other. -/
theorem Memory.writeBytes_append (m : Memory) (a : Nat) (xs ys : List Byte) :
    m.writeBytes a (xs ++ ys) = (m.writeBytes a xs).writeBytes (a + xs.length) ys := by
  induction xs generalizing m a with
  | nil => rfl
  | cons x xs ih =>
    rw [List.cons_append, writeBytes, writeBytes, ih, List.length_cons, Nat.add_assoc, Nat.add_comm 1]

/-- The bytes of n words of the text from word k on. -/
def wordsFrom (text : List Byte) (k n : Nat) : List Byte :=
  (List.range' k n).flatMap fun w => wordBytes (textWord text w)

theorem wordsFrom_succ (text : List Byte) (k n : Nat) :
    wordsFrom text k (n + 1) = wordBytes (textWord text k) ++ wordsFrom text (k + 1) n := by
  rw [wordsFrom, List.range'_succ, List.flatMap_cons, wordsFrom]

/-- The first n words are the first 4n bytes of the padded text. -/
theorem wordsFrom_zero (text : List Byte) (n : Nat) :
    wordsFrom text 0 n = (List.range (4 * n)).map fun b => text.getD b 0x00#8 := by
  have hword (w : Nat) : wordBytes (textWord text w) = (List.range 4).map fun p => text.getD (4 * w + p) 0x00#8 :=
    List.map_congr_left fun p hp => wordByte_joinWord _ p (List.mem_range.1 hp)
  rw [wordsFrom, ← List.range_eq_range']
  induction n with
  | zero => rfl
  | succ n ih =>
    rw [List.range_succ, List.flatMap_append, ih, List.flatMap_singleton, hword, Nat.mul_succ, List.range_add,
      List.map_append, List.map_map]
    rfl

/-- The state after the turn of word w, with the turns r to come. -/
def State.putTextWord (s : State) (text : List Byte) (w : Nat) (r : List Turn) : State :=
  { s with
    mem := s.mem.writeBytes (txtBase + 4 * w) (wordBytes (textWord text w)), schedule := r, bus := .writeAck }

theorem step_writeTextTurn {text : List Byte} {s : State} {w : Nat} {r : List Turn} (hidle : s.status.busy = false)
    (hcap : 4 * w < s.cfg.txtCap) (hschedule : s.schedule = writeTextTurn text w :: r) :
    step s = .next (s.putTextWord text w r) := by
  have halign : (txtBase + 4 * w) % 4 = 0 := by rw [txtBase]; omega
  rw [step_access hschedule, hostAccess_write_buffer { s with schedule := r } _ hidle (isBuffer_txtWord hcap) halign]
  rfl

/-- The turns of n words, from word k on, store those words. -/
theorem run_writeTextTurns (text : List Byte) (n : Nat) {k : Nat} {s : State} {r : List Turn}
    (hidle : s.status.busy = false) (hcap : 4 * (k + n) ≤ s.cfg.txtCap)
    (hschedule : s.schedule = (List.range' k n).map (writeTextTurn text) ++ r) :
    ∃ b, core.run n s = .next { s with
      mem := s.mem.writeBytes (txtBase + 4 * k) (wordsFrom text k n), schedule := r, bus := b } := by
  induction n generalizing k s with
  | zero =>
    refine ⟨s.bus, ?_⟩
    rw [List.range'_zero, List.map_nil, List.nil_append] at hschedule
    subst hschedule
    rfl
  | succ n ih =>
    rw [List.range'_succ, List.map_cons, List.cons_append] at hschedule
    have hstep := step_writeTextTurn hidle (by omega) hschedule
    have hcap' : 4 * (k + 1 + n) ≤ s.cfg.txtCap := by omega
    obtain ⟨b, hrun⟩ := ih (s := s.putTextWord text k _) hidle hcap' rfl
    refine ⟨b, ?_⟩
    rw [run_step_first hstep, hrun, wordsFrom_succ, Memory.writeBytes_append, length_wordBytes, Nat.add_assoc]
    rfl

/-- The state after `puttxt`: the words of the text stored and TLEN its length. -/
def State.putText (s : State) (text : List Byte) : State :=
  { s with
    mem := s.mem.writeBytes txtBase (wordsFrom text 0 ((text.length + 3) / 4)),
    tlen := BitVec.ofNat 32 text.length, schedule := [], bus := .writeAck }

theorem run_puttxt {s : State} {text : List Byte} (hidle : s.status.busy = false)
    (hschedule : s.schedule = scheduleOf (encodeScript [.puttxt text]) []) (hcap : text.length ≤ s.cfg.txtCap) :
    core.run s.schedule.length s = .next (s.putText text) := by
  rw [scheduleOf_puttxt] at hschedule
  have hwords : 4 * (0 + (text.length + 3) / 4) ≤ s.cfg.txtCap := by
    rw [txtCap_eq] at hcap ⊢
    omega
  have hlen : s.schedule.length = (text.length + 3) / 4 + 1 := by simp [hschedule]
  rw [List.range_eq_range'] at hschedule
  obtain ⟨b, hrun⟩ := run_writeTextTurns text _ hidle hwords hschedule
  rw [hlen]
  refine run_step_last hrun ?_
  rw [step_access rfl]
  exact congrArg _ (hostAccess_write_reg _ .tlen _ (.inl hidle))

/-! The text operand afterwards. -/

theorem txt_putText (s : State) (text : List Byte) {b : Nat} (hb : b < 4 * ((text.length + 3) / 4)) :
    (s.putText text).txt b = text.getD b 0x00#8 := by
  have hmem : (s.putText text).mem = s.mem.writeBytes txtBase (wordsFrom text 0 ((text.length + 3) / 4)) := rfl
  rw [wordsFrom_zero] at hmem
  rw [txt_stored hmem (by simpa using hb)]
  simp [hb]

theorem textBytes_putText (s : State) {text : List Byte} (hcap : text.length ≤ s.cfg.txtCap) :
    (s.putText text).textBytes = text := by
  have htlen : (s.putText text).tlen.toNat = text.length := by
    have := blkCap_le s.cfg
    rw [txtCap_eq] at hcap
    exact Nat.mod_eq_of_lt (by omega)
  refine List.ext_getElem (by rw [length_textBytes, htlen]) fun b _ hb => ?_
  rw [textBytes_getElem, txt_putText s text (by omega), List.getD_eq_getElem _ _ hb]

theorem bufByte_putText_outside (s : State) (text : List Byte) {a : Nat}
    (ha : ¬ Claims.inText (4 * ((text.length + 3) / 4)) a) : (s.putText text).bufByte a = s.bufByte a :=
  bufByte_outside_text (bs := wordsFrom text 0 _) rfl rfl (by simpa [wordsFrom_zero] using ha)

end Sys2Proof.Machine

namespace Sys2Proof.Claims

open Sys2Proof Sys2Proof.Machine

/-- Settles O59: every turn of the schedule stores its word or TLEN, as the unit is idle and the words are in TXT. -/
theorem puttxtLeavesText : Obligations.PuttxtLeavesText := by
  intro s text hidle hschedule hcap
  refine ⟨s.putText text, run_puttxt hidle hschedule hcap, textBytes_putText s hcap, rfl, fun b hlo hhi => ?padding,
    fun a ha => bufByte_putText_outside s text ha⟩
  case padding => rw [txt_putText s text hhi, List.getD_eq_default _ _ hlo]

end Sys2Proof.Claims
end

section
/-! PROOFS. Two runs of a command from states with the same inputs (10_state.md R38, 20_memory.md R66): it makes the
same writes, or fails alike. -/

namespace Sys2Proof.Machine

open Sys2Proof

/-- `s` but for what no command takes as an input: the interrupt enable, STATUS, the round-key file and the model's
record of host accesses. -/
def State.withUnread (s : State) (ie : Bool) (st : Status) (rk : Vector Word 64) (b : BusResponse) (n : Nat) : State :=
  { s with ctrl := { s.ctrl with ie := ie }, status := st, rk := rk, bus := b, busyReads := n }

/-- Each entry of two round-key files has got the same key in both or is the old one in both. -/
def SameKeys (old old' rk rk' : Vector Word 64) : Prop :=
  ∀ j (h : j < 64), rk'[j] = rk[j] ∨ (rk'[j] = old'[j] ∧ rk[j] = old[j])

/-- A write that takes no unread field as an input and leaves all of them. -/
def PlainWrite (f : State → State) : Prop :=
  ∀ v ie st rk b n, f (v.withUnread ie st rk b n) = (f v).withUnread ie st rk b n

/-- `w` and `w'` are `s` and `s'` after the same writes: they differ in the unread fields alone, which are those of `s`
and `s'` but for the same loss noted and the same keys loaded. -/
def SameWrites (s s' w w' : State) : Prop :=
  ∃ (v : State) (d : Bool) (rk rk' : Vector Word 64),
    w = v.withUnread s.ctrl.ie (s.status.noteLoss d) rk s.bus s.busyReads ∧
    w' = v.withUnread s'.ctrl.ie (s'.status.noteLoss d) rk' s'.bus s'.busyReads ∧ SameKeys s.rk s'.rk rk rk'

theorem sameWrites_refl (s : State) (ie : Bool) (st : Status) (rk : Vector Word 64) (b : BusResponse) (n : Nat) :
    SameWrites s (s.withUnread ie st rk b n) s (s.withUnread ie st rk b n) := by
  refine ⟨s, false, s.rk, rk, ?_, ?_, fun _ _ => .inr ⟨rfl, rfl⟩⟩ <;>
  · rw [noteLoss_false]
    rfl

section
variable {s s' w w' : State}

theorem SameWrites.plain (h : SameWrites s s' w w') {f : State → State} (hf : PlainWrite f) :
    SameWrites s s' (f w) (f w') := by
  obtain ⟨v, d, rk, rk', rfl, rfl, hkeys⟩ := h
  exact ⟨f v, d, rk, rk', hf _ _ _ _ _ _, hf _ _ _ _ _ _, hkeys⟩

theorem SameWrites.noteLoss (h : SameWrites s s' w w') (e : Bool) :
    SameWrites s s' (w.noteLoss e) (w'.noteLoss e) := by
  obtain ⟨v, d, rk, rk', rfl, rfl, hkeys⟩ := h
  refine ⟨v, d || e, rk, rk', ?_, ?_, hkeys⟩ <;>
  · rw [← noteLoss_noteLoss]
    rfl

theorem SameKeys.writeKeys {old old' rk rk' : Vector Word 64} (h : SameKeys old old' rk rk') (keys : List Word) :
    SameKeys old old' (writeKeys keys 0 rk) (writeKeys keys 0 rk') := by
  intro j hj
  rw [writeKeys_getElem keys 0 rk j hj, writeKeys_getElem keys 0 rk' j hj, if_pos (Nat.zero_le j),
    if_pos (Nat.zero_le j)]
  cases keys[j - 0]? with
  | none => exact h j hj
  | some k => exact .inl rfl

theorem SameWrites.loadRoundKeys (h : SameWrites s s' w w') :
    SameWrites s s' w.loadRoundKeys w'.loadRoundKeys := by
  obtain ⟨v, d, rk, rk', rfl, rfl, hkeys⟩ := h
  exact ⟨v, d, _, _, rfl, rfl, hkeys.writeKeys (roundKeys v.key v.roundCount)⟩

theorem SameWrites.storeUnpacked (h : SameWrites s s' w w') (bs : List Block) :
    SameWrites s s' (w.storeUnpacked bs) (w'.storeUnpacked bs) :=
  ((h.plain (f := (State.storeText · _)) fun _ _ _ _ _ _ => rfl).plain (f := (State.setTlen · _))
    fun _ _ _ _ _ _ => rfl).noteLoss _

/-! The writes of every command but the round keys and LOSSY are plain. -/

theorem plainWrite_setRes (v : Word) : PlainWrite fun s => { s with res := v } := fun _ _ _ _ _ _ => rfl

theorem plainWrite_setBout (v : Block) : PlainWrite fun s => { s with bout := v } := fun _ _ _ _ _ _ => rfl

theorem plainWrite_putBlocks (bs : List Block) (n : Nat) : PlainWrite fun s => (s.storeBlocks bs).setNblk n :=
  fun _ _ _ _ _ _ => rfl

theorem plainWrite_storeBlocks (bs : List Block) : PlainWrite (State.storeBlocks · bs) := fun _ _ _ _ _ _ => rfl

theorem plainWrite_storeRendered (bs : List Block) : PlainWrite (State.storeRendered · bs) := fun _ _ _ _ _ _ => rfl

/-- Two completions alike: with OK after the same writes, or with the same error. -/
def SameAnswer (s s' : State) (o o' : Host.Outcome State Fault Refusal) : Prop :=
  (∃ w w', o = .next w.completeOk ∧ o' = .next w'.completeOk ∧ SameWrites s s' w w') ∨
    ∃ e, o = .next (s.completeError e) ∧ o' = .next (s'.completeError e)

theorem sameAnswer_ok (h : SameWrites s s' w w') : SameAnswer s s' (finish s (.ok w)) (finish s' (.ok w')) :=
  .inl ⟨w, w', rfl, rfl, h⟩

theorem sameAnswer_unless {c : Option CmdError} {r r' : Except CmdError State}
    (h : SameAnswer s s' (finish s r) (finish s' r')) :
    SameAnswer s s' (finish s (unlessError c r)) (finish s' (unlessError c r')) := by
  cases c with
  | none => exact h
  | some e => exact .inr ⟨e, rfl, rfl⟩

end

/-- A command's operands and checks are the same in both runs, and so are its writes. -/
theorem exec_sameAnswer (i : Instr) (s : State) (ie : Bool) (st : Status) (rk : Vector Word 64) (b : BusResponse)
    (n : Nat) : SameAnswer s (s.withUnread ie st rk b n) (exec i s) (exec i (s.withUnread ie st rk b n)) := by
  have w0 := sameWrites_refl s ie st rk b n
  cases i with
  | nop => exact sameAnswer_ok w0
  | sbox => exact sameAnswer_ok (w0.plain (plainWrite_setRes _))
  | keygen => exact sameAnswer_ok w0.loadRoundKeys
  | roundf => exact sameAnswer_ok (w0.plain (plainWrite_setRes _))
  | encb => exact sameAnswer_ok (w0.loadRoundKeys.plain (plainWrite_setBout _))
  | decb => exact sameAnswer_ok (w0.loadRoundKeys.plain (plainWrite_setBout _))
  | t2b => exact sameAnswer_unless (sameAnswer_unless (sameAnswer_ok (w0.plain (plainWrite_putBlocks _ _))))
  | b2t => exact sameAnswer_unless (sameAnswer_unless (sameAnswer_ok (w0.storeUnpacked _)))
  | encecb => exact sameAnswer_unless (sameAnswer_ok (w0.plain (plainWrite_storeBlocks _)).loadRoundKeys)
  | dececb => exact sameAnswer_unless (sameAnswer_ok (w0.plain (plainWrite_storeBlocks _)).loadRoundKeys)
  | b2h => exact sameAnswer_unless (sameAnswer_ok (w0.plain (plainWrite_storeRendered _)))
  | h2b =>
    exact sameAnswer_unless (sameAnswer_unless (sameAnswer_unless
      (sameAnswer_ok (w0.plain (plainWrite_putBlocks _ _)))))
  | enctxt =>
    exact sameAnswer_unless (sameAnswer_unless (sameAnswer_ok
      ((w0.plain (plainWrite_putBlocks _ _)).plain (plainWrite_storeRendered _)).loadRoundKeys))
  | dectxt =>
    exact sameAnswer_unless (sameAnswer_unless (sameAnswer_unless (sameAnswer_unless (sameAnswer_ok
      ((w0.plain (plainWrite_putBlocks _ _)).storeUnpacked _).loadRoundKeys))))

/-- While a command runs, host accesses change unread fields alone. -/
theorem foldl_hostAccess_busy (as : List Access) {s : State} (hbusy : s.status.busy = true) :
    ∃ ie st b n, as.foldl State.hostAccess s = s.withUnread ie st s.rk b n := by
  induction as generalizing s with
  | nil => exact ⟨s.ctrl.ie, s.status, s.bus, s.busyReads, rfl⟩
  | cons a as ih =>
    obtain ⟨ie, done, err, wign, lossy, b, n, haccess⟩ := hostAccess_busy s a hbusy
    have hbusy' : (s.hostAccess a).status.busy = true := by rw [haccess]; exact hbusy
    obtain ⟨ie', st', b', n', hrest⟩ := ih hbusy'
    refine ⟨ie', st', b', n', ?_⟩
    rw [List.foldl_cons, hrest, haccess]
    rfl

theorem SameKeys.eq {old rk rk' : Vector Word 64} (h : SameKeys old old rk rk') : rk' = rk :=
  Vector.ext fun j hj => (h j hj).elim id fun hkept => hkept.1.trans hkept.2.symm

end Sys2Proof.Machine

namespace Sys2Proof.Claims

open Sys2Proof Sys2Proof.Machine

/-- Settles O47: the round-key file is no input of any command, so that both runs complete alike. -/
theorem resultsIgnoreRoundKeyFile : Obligations.ResultsIgnoreRoundKeyFile := by
  intro i s t t' rk hexec hexec'
  obtain ⟨w, w', hw, hw', v, d, rk₁, rk₂, rfl, rfl, hkeys⟩ | ⟨e, he, he'⟩ :=
    exec_sameAnswer i s s.ctrl.ie s.status rk s.bus s.busyReads
  case inl =>
    cases hexec.symm.trans hw
    cases hexec'.symm.trans hw'
    exact ⟨rfl, hkeys⟩
  case inr =>
    cases hexec.symm.trans he
    cases hexec'.symm.trans he'
    exact ⟨rfl, fun _ _ => .inr ⟨rfl, rfl⟩⟩

/-- Settles O48: the accesses leave every input of the command, so that it completes as it would have without them. -/
theorem inputsFrozenWhileBusy : Obligations.InputsFrozenWhileBusy := by
  intro i as s t t' hbusy hexec hexec'
  obtain ⟨ie, st, b, n, haccesses⟩ := foldl_hostAccess_busy as hbusy
  rw [haccesses] at hexec'
  obtain ⟨w, w', hw, hw', v, d, rk₁, rk₂, rfl, rfl, hkeys⟩ | ⟨e, he, he'⟩ := exec_sameAnswer i s ie st s.rk b n
  case inl =>
    obtain rfl := hkeys.eq
    cases hexec.symm.trans hw
    cases hexec'.symm.trans hw'
    rfl
  case inr =>
    cases hexec.symm.trans he
    cases hexec'.symm.trans he'
    rfl

end Sys2Proof.Claims
end

section
/-! PROOFS. Unpacking block by block, and which texts come back from the codec (44_codec.md R161, R165). -/

namespace Sys2Proof.Machine

open Sys2Proof

/-! Unpacking. -/

/-- The blocks' texts do not end in a NUL, so the last strip removes nothing (44_codec.md R161). -/
theorem unpack_eq_flatMap (bs : List Block) (nb : Nat) : unpack bs nb = (bs.take nb).flatMap blockText :=
  stripNuls_of_last _ (flatMap_blockText_last _)

/-- The decodable bytes of a text (00_scope.md R14). -/
def decodables (d : List Byte) : List Byte := d.filter fun c => decide (c.toNat < 0x80)

theorem blockText_eq (b : Block) : blockText b = stripNuls (decodables (blockBytes b)) := by
  refine congrArg stripNuls (List.filter_congr fun c _ => ?_)
  rw [Bool.eq_iff_iff, Bool.not_eq_true', undecodable_false, decide_eq_true_iff]

/-! The text in chunks of eight bytes. -/

/-- Chunk j of a text: its bytes 8j to 8j + 7, as far as there are such. -/
def chunk (s : List Byte) (j : Nat) : List Byte := (s.drop (8 * j)).take 8

theorem length_chunk (s : List Byte) (j : Nat) : (chunk s j).length = min 8 (s.length - 8 * j) := by
  rw [chunk, List.length_take, List.length_drop]

theorem flatMap_chunk_take (s : List Byte) (m : Nat) : (List.range m).flatMap (chunk s) = s.take (8 * m) := by
  induction m with
  | zero => rfl
  | succ m ih =>
    rw [List.range_succ, List.flatMap_append, ih, List.flatMap_singleton, Nat.mul_succ, List.take_add, chunk]

theorem flatMap_chunk (s : List Byte) : (List.range (ceil8 s.length)).flatMap (chunk s) = s := by
  rw [flatMap_chunk_take, List.take_of_length_le (by rw [ceil8]; omega)]

/-- A packed block is its chunk padded with NULs. -/
theorem paddedBytes_eq_chunk (s : List Byte) (j : Nat) :
    ((List.range 8).map fun p => paddedByte s s.length (8 * j + p)) =
      chunk s j ++ List.replicate (8 - (chunk s j).length) 0x00#8 := by
  have hlen := length_chunk s j
  refine List.ext_getElem (by simp; omega) fun p hp _ => ?_
  rw [List.length_map, List.length_range] at hp
  rw [List.getElem_map, List.getElem_range, paddedByte, List.getElem_append]
  by_cases hin : 8 * j + p < s.length
  · rw [if_pos hin, dif_pos (by omega), List.getD_eq_getElem _ _ hin]
    simp [chunk]
  · rw [if_neg hin, dif_neg (by omega), List.getElem_replicate]

theorem stripNuls_append_nuls (d : List Byte) (k : Nat) : stripNuls (d ++ List.replicate k 0x00#8) = stripNuls d := by
  induction k with
  | zero => rw [List.replicate_zero, List.append_nil]
  | succ k ih =>
    rw [List.replicate_succ', ← List.append_assoc, stripNuls_eq, List.rdropWhile_concat_pos _ _ _ (by decide),
      ← stripNuls_eq, ih]

/-- The text of a packed block is that of its chunk: the padding is stripped. -/
theorem blockText_packed (s : List Byte) (j : Nat) :
    blockText (joinBlock fun p => paddedByte s s.length (8 * j + p)) = stripNuls (decodables (chunk s j)) := by
  rw [blockText_eq, blockBytes_joinBlock, paddedBytes_eq_chunk, decodables, List.filter_append,
    List.filter_replicate_of_pos (by decide), stripNuls_append_nuls, decodables]

theorem unpack_pack (s : List Byte) :
    unpack (pack s s.length) (ceil8 s.length) =
      (List.range (ceil8 s.length)).flatMap fun j => stripNuls (decodables (chunk s j)) := by
  rw [unpack_eq_flatMap, List.take_of_length_le (length_pack s s.length).le, pack, List.flatMap_map]
  simp only [blockText_packed]

/-! A text comes back exactly when each of its chunks does. -/

theorem length_stripNuls_decodables_le (d : List Byte) : (stripNuls (decodables d)).length ≤ d.length :=
  (length_stripNuls_le _).trans (List.length_filter_le _ _)

/-- Concatenations of pieces no longer than their counterparts are equal exactly when the pieces are. -/
theorem flatMap_eq_flatMap_iff {α β : Type} {f g : α → List β} (hle : ∀ x, (f x).length ≤ (g x).length) (l : List α) :
    l.flatMap f = l.flatMap g ↔ ∀ x ∈ l, f x = g x := by
  have htotal (l : List α) : (l.flatMap f).length ≤ (l.flatMap g).length := by
    induction l with
    | nil => exact le_rfl
    | cons x l ih =>
      rw [List.flatMap_cons, List.flatMap_cons, List.length_append, List.length_append]
      exact Nat.add_le_add (hle x) ih
  induction l with
  | nil => simp
  | cons x l ih =>
    rw [List.forall_mem_cons, List.flatMap_cons, List.flatMap_cons]
    refine ⟨fun h => ?_, fun ⟨hx, hl⟩ => by rw [hx, ih.2 hl]⟩
    have hlen : (f x).length = (g x).length := by
      have hsum := congrArg List.length h
      rw [List.length_append, List.length_append] at hsum
      have := hle x
      have := htotal l
      omega
    obtain ⟨hx, hl⟩ := List.append_inj h hlen
    exact ⟨hx, ih.1 hl⟩

/-- A chunk comes back exactly when its bytes are decodable and the last is no NUL. -/
theorem stripNuls_decodables_eq_self {d : List Byte} :
    stripNuls (decodables d) = d ↔ (∀ c ∈ d, c.toNat < 0x80) ∧ ∀ hne : d ≠ [], d.getLast hne ≠ 0#8 := by
  have hself : (∀ c ∈ d, c.toNat < 0x80) ↔ decodables d = d := by simp [decodables]
  have hlast : (∀ hne : d ≠ [], d.getLast hne ≠ 0#8) ↔ stripNuls d = d := by
    simp [stripNuls_eq, List.rdropWhile_eq_self_iff]
  rw [hself, hlast]
  refine ⟨fun h => ?_, fun ⟨hdec, hstrip⟩ => by rw [hdec, hstrip]⟩
  have hdec : decodables d = d := by
    refine List.Sublist.eq_of_length_le List.filter_sublist ?_
    have := length_stripNuls_le (decodables d)
    rwa [h] at this
  rw [hdec] at h
  exact ⟨hdec, h⟩

/-- The last byte of a chunk is byte 8j + 7 of the text, or the text's last byte. -/
theorem getLast_chunk {s : List Byte} {j : Nat} (hj : j < ceil8 s.length) (hne : chunk s j ≠ []) :
    (chunk s j).getLast hne = s.getD (if 8 * j + 7 < s.length then 8 * j + 7 else s.length - 1) 0#8 := by
  have hlen := length_chunk s j
  rw [ceil8] at hj
  rw [List.getLast_eq_getElem, List.getD_eq_getElem _ _ (by split <;> omega)]
  simp only [chunk, List.getElem_take, List.getElem_drop]
  congr 1
  rw [chunk] at hlen
  split <;> omega

theorem forall_chunk_iff_roundTrips (s : List Byte) :
    (∀ j ∈ List.range (ceil8 s.length),
      (∀ c ∈ chunk s j, c.toNat < 0x80) ∧ ∀ hne : chunk s j ≠ [], (chunk s j).getLast hne ≠ 0#8) ↔
    Claims.roundTrips s := by
  have hnonempty {j : Nat} (hj : j < ceil8 s.length) : chunk s j ≠ [] := by
    rw [ceil8] at hj
    rw [← List.length_pos_iff, length_chunk]
    omega
  simp only [List.mem_range]
  constructor
  · intro h
    refine ⟨fun c hc => ?bytes, ?last, fun j hj => ?chunks⟩
    case bytes =>
      rw [← flatMap_chunk s, List.mem_flatMap] at hc
      obtain ⟨j, hj, hc⟩ := hc
      exact (h j (List.mem_range.1 hj)).1 c hc
    case last =>
      refine (Nat.eq_zero_or_pos s.length).imp_right fun hpos => ?_
      have hj : (s.length - 1) / 8 < ceil8 s.length := by rw [ceil8]; omega
      have hlast := (h _ hj).2 (hnonempty hj)
      rw [getLast_chunk hj] at hlast
      convert hlast using 2
      split <;> omega
    case chunks =>
      have hj' : j < ceil8 s.length := by rw [ceil8]; omega
      have hlast := (h j hj').2 (hnonempty hj')
      rwa [getLast_chunk hj', if_pos hj] at hlast
  · rintro ⟨hbytes, hlast, hchunks⟩ j hj
    refine ⟨fun c hc => hbytes c (List.mem_of_mem_drop (List.mem_of_mem_take hc)), fun hne => ?_⟩
    rw [getLast_chunk hj]
    split
    · exact hchunks j ‹_›
    · rw [ceil8] at hj
      exact hlast.resolve_left (by omega)

end Sys2Proof.Machine

namespace Sys2Proof.Claims

open Sys2Proof Sys2Proof.Machine

/-- Settles O29: a block's text is its decodable bytes without trailing NULs. -/
theorem unpackStripsEachBlock : Obligations.UnpackStripsEachBlock := by
  intro bs nb decoded _ hdecoded
  have htexts : decoded = (bs.take nb).flatMap blockText := by
    rw [hdecoded, funext blockText_eq]
    rfl
  rw [htexts]
  exact ⟨rfl, unpack_eq_flatMap bs nb⟩

/-- Settles O32: no chunk gets longer, so the text comes back exactly when every chunk does. -/
theorem codecRoundTrip : Obligations.CodecRoundTrip := fun s => calc
  unpack (pack s s.length) (ceil8 s.length) = s
      ↔ ((List.range (ceil8 s.length)).flatMap fun j => stripNuls (decodables (chunk s j))) =
          (List.range (ceil8 s.length)).flatMap (chunk s) := by rw [unpack_pack, flatMap_chunk]
    _ ↔ ∀ j ∈ List.range (ceil8 s.length), stripNuls (decodables (chunk s j)) = chunk s j :=
        flatMap_eq_flatMap_iff (fun _ => length_stripNuls_decodables_le _) _
    _ ↔ roundTrips s := by simp only [stripNuls_decodables_eq_self, forall_chunk_iff_roundTrips]

end Sys2Proof.Claims
end

section
/-! PROOFS. Parsing undoes rendering (45_pipeline.md R183). -/

namespace Sys2Proof.Machine

open Sys2Proof

/-- A digit's value within the text, where the default of `digitAt` plays no part. -/
theorem some_digitAt {h : List Byte} {b : Nat} (hb : b < h.length) (hdigit : (hexVal (h.getD b 0#8)).isSome) :
    some (digitAt h b) = hexVal (h.getD b 0#8) := by
  rw [digitAt, List.getD_eq_getElem _ _ hb]
  rw [List.getD_eq_getElem _ _ hb] at hdigit ⊢
  obtain ⟨v, hv⟩ := Option.isSome_iff_exists.1 hdigit
  rw [hv, Option.getD_some]

theorem digitAt_render {bs : List Block} {j d : Nat} (hj : j < bs.length) (hd : d < 16) :
    digitAt (render bs bs.length) (16 * j + d) = blockNibble (bs.getD j 0#64) d := by
  have hchar := getD_render le_rfl hj hd
  rw [← Option.some_inj, some_digitAt (by rw [length_render]; omega) (by rw [hchar, hexVal_hexChar]; rfl), hchar,
    hexVal_hexChar]

theorem parse_render (bs : List Block) : parse (render bs bs.length) (16 * bs.length) = bs := by
  have hlen : 16 * bs.length / 16 = bs.length := by omega
  refine List.ext_getElem (by rw [length_parse, hlen]) fun j hj hj' => block_ext_nibbles fun d hd => ?_
  rw [← List.getD_eq_getElem _ 0#64 hj, ← List.getD_eq_getElem _ 0#64 hj',
    blockNibble_getD_parse _ _ j d (by rwa [hlen]) hd, digitAt_render hj' hd]

end Sys2Proof.Machine

namespace Sys2Proof.Claims

open Sys2Proof Sys2Proof.Machine

/-- Settles O35: each digit of a parsed block is its character's value, and a rendered digit's value is the digit. -/
theorem parseUndoesRender : Obligations.ParseUndoesRender := by
  refine ⟨fun h n hn _ hdigits => ⟨length_parse h n, fun j hj d hd => ?digit⟩, parse_render⟩
  case digit =>
    have hb : 16 * j + d < n := by omega
    exact (congrArg some (blockNibble_getD_parse h n j d hj hd)).trans (some_digitAt (hb.trans_le hn) (hdigits _ hb))

end Sys2Proof.Claims
end

section
/-! PROOFS. The text commands as three commands each, and the round trip of a text through both (45_pipeline.md R186 to
R189). -/

namespace Sys2Proof.Machine

open Sys2Proof

/-! Commands that run back to back. -/

/-- A new block operand of the same length replaces the one stored before. -/
theorem storeBlocks_storeBlocks {s : State} (hwf : s.mem.wf) {xs ys : List Block} (hlen : xs.length = ys.length) :
    (s.storeBlocks xs).storeBlocks ys = s.storeBlocks ys := by
  have hmem : (s.mem.writeBytes blkBase (xs.flatMap blockBytes)).writeBytes blkBase (ys.flatMap blockBytes) =
      s.mem.writeBytes blkBase (ys.flatMap blockBytes) :=
    Memory.writeBytes_writeBytes _ _ _ _ hwf (by rw [length_flatMap_blockBytes, length_flatMap_blockBytes, hlen])
  simp only [State.storeBlocks, hmem]

theorem blocks_completeOk (s : State) : s.completeOk.blocks = s.blocks := rfl

/-- An ECB command after a command that has put the blocks p 0, p 1, … puts f (p 0), f (p 1), … in their place. -/
theorem writeEcb_putBlocks {s : State} (hwf : s.mem.wf) {n : Nat} (hn : n < 2 ^ 32) (p : Nat → Block)
    (f : Block → Block) :
    (s.putBlocks n p).completeOk.writeEcb f = (s.putBlocks n fun j => f (p j)).completeOk.loadRoundKeys := by
  have hblocks : (s.putBlocks n p).completeOk.blocks.map f = (List.range n).map fun j => f (p j) := by
    rw [blocks_completeOk, (blocks_putBlocks s p hn).2, List.map_map]
    rfl
  have hstore : (s.storeBlocks ((List.range n).map p)).storeBlocks ((List.range n).map fun j => f (p j)) =
      s.storeBlocks ((List.range n).map fun j => f (p j)) :=
    storeBlocks_storeBlocks hwf (by simp)
  rw [State.writeEcb, hblocks, State.putBlocks, State.putBlocks, ← hstore]
  rfl

/-- How ENCECB and DECECB leave a state u whose block operand an earlier command has put: with its round keys loaded,
and completed twice. -/
def State.loaded (u : State) : State := u.completeOk.loadRoundKeys.completeOk

theorem runEcb_putBlocks {s : State} (hwf : s.mem.wf) {n : Nat} (hn : n ≤ s.cfg.blkCap) (p : Nat → Block)
    (f : Block → Block) :
    runEcb (s.putBlocks n p).completeOk f = .next (s.putBlocks n fun j => f (p j)).loaded := by
  have hn' : n < 2 ^ 32 := (hn.trans (blkCap_le s.cfg)).trans_lt (by decide)
  have hcap : (s.putBlocks n p).completeOk.nblk.toNat ≤ (s.putBlocks n p).completeOk.cfg.blkCap := by
    rw [State.completeOk_nblk, (blocks_putBlocks s p hn').1]
    exact hn
  rw [runEcb_ok _ f hcap, writeEcb_putBlocks hwf hn', State.loaded]

section
variable {s : State} (hwf : s.mem.wf) {n : Nat} (hn : n ≤ s.cfg.blkCap) (p : Nat → Block)
include hwf hn

theorem exec_encecb_putBlocks : exec .encecb (s.putBlocks n p).completeOk =
    .next (s.putBlocks n fun j => s.encryptBlock (p j)).loaded := by
  have hkeys : (s.putBlocks n p).completeOk.encryptBlock = s.encryptBlock := encryptBlock_congr rfl rfl
  rw [exec_encecb, hkeys, runEcb_putBlocks hwf hn]

theorem exec_dececb_putBlocks : exec .dececb (s.putBlocks n p).completeOk =
    .next (s.putBlocks n fun j => s.decryptBlock (p j)).loaded := by
  have hkeys : (s.putBlocks n p).completeOk.decryptBlock = s.decryptBlock := decryptBlock_congr rfl rfl
  rw [exec_dececb, hkeys, runEcb_putBlocks hwf hn]

end

/-! The last command runs in such a state; the load of the round keys and that command's writes may change places. -/

theorem exec_b2h_ok {u : State} (hcap : u.nblk.toNat ≤ u.cfg.blkCap) :
    exec .b2h u = .next (u.storeRendered u.blocks).completeOk := by
  rw [exec_b2h, finish_within_capacity _ _ hcap, finish_ok]

theorem exec_b2t_ok {u : State} (hcap : u.nblk.toNat ≤ u.cfg.blkCap)
    (hstrict : strictError u.ctrl.strict (bytesOfBlocks u.blocks) = none) :
    exec .b2t u = .next (u.storeUnpacked u.blocks).completeOk := by
  rw [exec_b2t, finish_within_capacity _ _ hcap, finish_unlessError_none _ _ hstrict, finish_ok]

theorem blocks_loaded (u : State) : u.loaded.blocks = u.blocks := rfl

/-- The load of the round keys and the completions touch nothing that an unpacking or a rendering does. -/
theorem storeUnpacked_loaded (u : State) (bs : List Block) :
    (u.loaded.storeUnpacked bs).completeOk = (u.storeUnpacked bs).loadRoundKeys.completeOk := by
  apply State.ext <;> rfl

theorem storeRendered_loaded (u : State) (bs : List Block) :
    (u.loaded.storeRendered bs).completeOk = (u.storeRendered bs).loadRoundKeys.completeOk := by
  apply State.ext <;> rfl

theorem exec_b2h_loaded {u : State} (hcap : u.nblk.toNat ≤ u.cfg.blkCap) :
    exec .b2h u.loaded = .next (u.storeRendered u.blocks).loadRoundKeys.completeOk := by
  rw [exec_b2h_ok (u := u.loaded) hcap, blocks_loaded, storeRendered_loaded]

theorem exec_b2t_loaded {u : State} (hcap : u.nblk.toNat ≤ u.cfg.blkCap)
    (hstrict : strictError u.ctrl.strict (bytesOfBlocks u.blocks) = none) :
    exec .b2t u.loaded = .next (u.storeUnpacked u.blocks).loadRoundKeys.completeOk := by
  rw [exec_b2t_ok (u := u.loaded) hcap (by rw [blocks_loaded]; exact hstrict), blocks_loaded, storeUnpacked_loaded]

/-! ENCTXT. -/

/-- Block j of the packed text operand (44_codec.md R160). -/
def State.packedBlock (s : State) (j : Nat) : Block := joinBlock fun p => Claims.paddedText s (8 * j + p)

theorem pack_textBytes (s : State) :
    pack s.textBytes s.tlen.toNat = (List.range (ceil8 s.tlen.toNat)).map s.packedBlock := by
  refine List.map_congr_left fun j _ => ?_
  simp only [paddedByte_textBytes, State.packedBlock, Claims.paddedText]

theorem storePacked_eq_putBlocks (s : State) : s.storePacked = s.putBlocks (ceil8 s.tlen.toNat) s.packedBlock := by
  rw [State.storePacked, pack_textBytes, State.putBlocks]

section
variable {s : State} (hcap : s.tlen.toNat ≤ s.cfg.txtCap)
  (hclean : s.ctrl.strict = true → ∀ b < s.tlen.toNat, (s.txt b).toNat < 0x80)
include hcap hclean

theorem exec_t2b_ok : exec .t2b s = .next (s.putBlocks (ceil8 s.tlen.toNat) s.packedBlock).completeOk := by
  rw [exec_t2b, finish_within_capacity s _ hcap, finish_unlessError_none s _ (strictError_textBytes_none hclean),
    finish_ok, storePacked_eq_putBlocks]

theorem exec_enctxt_ok : exec .enctxt s = .next s.writeEnctxt.completeOk := by
  rw [exec_enctxt, finish_within_capacity s _ hcap, finish_unlessError_none s _ (strictError_textBytes_none hclean),
    finish_ok]

end

/-- A successful ENCTXT has passed its checks. -/
theorem exec_enctxt_next {s t : State} (h : exec .enctxt s = .next t) (hok : t.status.errcode = 0#4) :
    s.tlen.toNat ≤ s.cfg.txtCap ∧ t = s.writeEnctxt.completeOk := by
  rw [exec_enctxt] at h
  obtain ⟨hrange, h⟩ := unlessError_ok h hok
  obtain ⟨-, h⟩ := unlessError_ok h hok
  exact ⟨rangeError_eq_none.1 hrange, (Host.Outcome.next.inj h).symm⟩

/-- HLEN after ENCTXT (45_pipeline.md R188). -/
theorem toNat_hlen_writeEnctxt {s : State} (hcap : s.tlen.toNat ≤ s.cfg.txtCap) :
    s.writeEnctxt.hlen.toNat = 16 * ceil8 s.tlen.toNat := by
  have hfit := (ceil8_le hcap).trans (blkCap_le s.cfg)
  rw [writeEnctxt_frame]
  exact Nat.mod_eq_of_lt (by omega)

/-! DECTXT. -/

/-- A successful command with the checks on the hex operand has passed them. -/
theorem finish_checkHex_next {s t : State} {r : Except CmdError State} (h : finish s (s.checkHex r) = .next t)
    (hok : t.status.errcode = 0#4) :
    s.hlen.toNat ≤ s.cfg.hexCap ∧ (∀ r', finish s (s.checkHex r') = finish s r') ∧ finish s r = .next t := by
  obtain ⟨hrange, h⟩ := unlessError_ok h hok
  obtain ⟨hlen, h⟩ := unlessError_ok h hok
  obtain ⟨hdigits, h⟩ := unlessError_ok h hok
  refine ⟨rangeError_eq_none.1 hrange, fun r' => ?_, h⟩
  rw [State.checkHex, hrange, hlen, hdigits, unlessError_none, unlessError_none, unlessError_none]

/-! The round trip. -/

section
variable {s : State} (hcap : s.hlen.toNat ≤ s.cfg.hexCap) (hlen : s.hlen.toNat % 16 = 0)
  (hdigits : ∀ b < s.hlen.toNat, (hexVal (s.hex b)).isSome)
  (hclean : s.ctrl.strict = true → ∀ j < s.hlen.toNat / 16, ∀ q < 8, (blockByte (s.plainBlock j) q).toNat < 0x80)

include hcap hlen hdigits hclean in
theorem exec_dectxt_ok : exec .dectxt s = .next s.writeDectxt.completeOk := by
  rw [exec_dectxt, finish_checkHex_valid s _ hcap hlen hdigits,
    finish_unlessError_none s _ (strictError_putPlain_none hclean), finish_ok]

theorem textBytes_completeOk (s : State) : s.completeOk.textBytes = s.textBytes := rfl

include hcap in
/-- The text operand after DECTXT is the text of the plaintext. -/
theorem textBytes_writeDectxt : s.writeDectxt.textBytes = s.plainText := by
  have hfit := (length_unpack_le ((List.range (s.hlen.toNat / 16)).map s.plainBlock) (s.hlen.toNat / 16)).trans
    (Nat.mul_le_mul_left 8 ((blkCap_of_hexCap hcap).trans (blkCap_le s.cfg)))
  have htlen : s.writeDectxt.tlen.toNat = s.plainText.length := by
    rw [writeDectxt_frame]
    exact Nat.mod_eq_of_lt (hfit.trans_lt (by decide))
  refine List.ext_getElem (by rw [length_textBytes, htlen]) fun b _ hb => ?_
  rw [textBytes_getElem, txt_writeDectxt s hb, List.getD_eq_getElem _ _ hb]

end

/-- `v` can decrypt what `s` has encrypted: the same KEY and ROUNDS, and the hex of the ciphertext in HEX. -/
structure Receives (v s : State) : Prop where
  key : v.key = s.key
  rounds : v.rounds = s.rounds
  hlen : v.hlen.toNat = 16 * ceil8 s.tlen.toNat
  hex : ∀ b < 16 * ceil8 s.tlen.toNat, v.hex b = s.writeEnctxt.hex b

section
variable {s v : State} (h : Receives v s)
include h

/-- The received characters are the digits of the ciphertext. -/
theorem Receives.hexVal_hex {j d : Nat} (hj : j < ceil8 s.tlen.toNat) (hd : d < 16) :
    hexVal (v.hex (16 * j + d)) = some (blockNibble (s.cipherBlock j) d) := by
  rw [h.hex _ (by omega), hex_writeEnctxt s hj hd, hexVal_hexChar]

theorem Receives.digits : ∀ b < v.hlen.toNat, (hexVal (v.hex b)).isSome := by
  intro b hb
  rw [h.hlen] at hb
  have hdigit := h.hexVal_hex (j := b / 16) (d := b % 16) (by omega) (by omega)
  rw [Nat.div_add_mod] at hdigit
  rw [hdigit]
  rfl

theorem Receives.plainBlock {j : Nat} (hj : j < ceil8 s.tlen.toNat) : v.plainBlock j = s.packedBlock j := by
  have hparsed : Claims.parsedBlock v j = s.cipherBlock j := by
    refine block_ext_nibbles fun d hd => ?_
    rw [Claims.parsedBlock, blockNibble_joinNibbles _ _ hd, h.hexVal_hex hj hd, Option.getD_some]
  rw [State.plainBlock, hparsed, decryptBlock_congr h.key h.rounds, State.cipherBlock, decryptBlock_encryptBlock,
    State.packedBlock]

theorem Receives.blockCount : v.hlen.toNat / 16 = ceil8 s.tlen.toNat := by
  rw [h.hlen]
  omega

/-- The decrypted text is the text operand packed and unpacked. -/
theorem Receives.plainText :
    v.plainText = unpack (pack s.textBytes s.textBytes.length) (ceil8 s.textBytes.length) := by
  have hblocks : (List.range (ceil8 s.tlen.toNat)).map v.plainBlock =
      (List.range (ceil8 s.tlen.toNat)).map s.packedBlock :=
    List.map_congr_left fun j hj => h.plainBlock (List.mem_range.1 hj)
  rw [State.plainText, h.blockCount, hblocks, length_textBytes, pack_textBytes]

/-- The plaintext has only bytes of the text operand and NULs. -/
theorem Receives.clean (hclean : ∀ b < s.tlen.toNat, (s.txt b).toNat < 0x80) :
    ∀ j < v.hlen.toNat / 16, ∀ q < 8, (blockByte (v.plainBlock j) q).toNat < 0x80 := by
  intro j hj q hq
  rw [h.plainBlock (by rwa [h.blockCount] at hj), State.packedBlock, blockByte_joinBlock _ _ hq, Claims.paddedText]
  split
  · exact hclean _ ‹_›
  · decide

end

end Sys2Proof.Machine

namespace Sys2Proof.Claims

open Sys2Proof Sys2Proof.Machine

/-- Settles O42: HLEN is the length of the rendered ciphertext. -/
theorem ciphertextLength : Obligations.CiphertextLength := by
  intro s t hexec hok
  obtain ⟨hcap, rfl⟩ := exec_enctxt_next hexec hok
  have hlen : s.writeEnctxt.completeOk.hlen.toNat = 16 * ceil8 s.tlen.toNat := by
    rw [State.completeOk_hlen, toNat_hlen_writeEnctxt hcap]
  rw [ceil8] at hlen
  refine ⟨hlen, ?multiple, fun hzero => ?empty⟩
  case multiple => omega
  case empty =>
    rw [hzero] at hlen
    exact BitVec.eq_of_toNat_eq hlen

/-- Settles O40: T2B puts the packed text, ENCECB its ciphertext in its place, and B2H renders that. -/
theorem encryptTextIsThreeCommands : Obligations.EncryptTextIsThreeCommands := by
  intro s hwf hcap hclean
  have hblk : ceil8 s.tlen.toNat ≤ s.cfg.blkCap := ceil8_le hcap
  have hnblk : s.putCipher.nblk.toNat ≤ s.cfg.blkCap := by rwa [nblk_putCipher]
  refine ⟨(s.putBlocks (ceil8 s.tlen.toNat) s.packedBlock).completeOk, s.putCipher.loaded,
    s.writeEnctxt.completeOk, ?t2b, ?encecb, ?b2h, ?enctxt⟩
  case t2b => exact exec_t2b_ok hcap hclean
  case encecb => exact exec_encecb_putBlocks hwf hblk s.packedBlock
  case b2h => rw [exec_b2h_loaded hnblk, State.writeEnctxt]
  case enctxt => exact exec_enctxt_ok hcap hclean

/-- Settles O41: H2B puts the parsed blocks, DECECB their plaintext in their place, and B2T unpacks that. -/
theorem decryptTextIsThreeCommands : Obligations.DecryptTextIsThreeCommands := by
  intro s w hwf hexec hok
  rw [exec_dectxt] at hexec
  obtain ⟨hcap, hchecks, hexec⟩ := finish_checkHex_next hexec hok
  obtain ⟨hstrict, hexec⟩ := unlessError_ok hexec hok
  have hblk : s.hlen.toNat / 16 ≤ s.cfg.blkCap := blkCap_of_hexCap hcap
  have hnblk : s.putPlain.nblk.toNat ≤ s.cfg.blkCap := by rwa [nblk_putPlain]
  refine ⟨(s.putBlocks (s.hlen.toNat / 16) (parsedBlock s)).completeOk, s.putPlain.loaded, ?h2b, ?dececb, ?b2t⟩
  case h2b => rw [exec_h2b, hchecks, finish_ok]
  case dececb => exact exec_dececb_putBlocks hwf hblk (parsedBlock s)
  case b2t => rw [exec_b2t_loaded hnblk hstrict, ← hexec, finish_ok, State.writeDectxt]

/-- Settles O43: the receiving unit decrypts the very blocks that were packed, so the text comes back exactly when it
does from the codec. -/
theorem textRoundTrip : Obligations.TextRoundTrip := by
  intro s hcap hclean
  refine ⟨s.writeEnctxt.completeOk, exec_enctxt_ok hcap hclean, fun v hkey hrounds hhlen hvcap hvclean hhex => ?_⟩
  have hlen : s.writeEnctxt.completeOk.hlen.toNat = 16 * ceil8 s.tlen.toNat := by
    rw [State.completeOk_hlen, toNat_hlen_writeEnctxt hcap]
  rw [hlen] at hhex
  have hrecv : Receives v s := ⟨hkey, hrounds, by rw [hhlen, hlen], hhex⟩
  have hexec : exec .dectxt v = .next v.writeDectxt.completeOk :=
    exec_dectxt_ok hvcap (by rw [hrecv.hlen, Nat.mul_mod_right]) hrecv.digits fun hstrict =>
      hrecv.clean (hvclean hstrict)
  refine ⟨v.writeDectxt.completeOk, hexec, ?ok, ?text⟩
  case ok => rw [State.completeOk_status, Status.completeOk_errcode]
  case text => rw [textBytes_completeOk, textBytes_writeDectxt hvcap, hrecv.plainText, codecRoundTrip]

end Sys2Proof.Claims
end
